-- ==== Sys2Proof/Word.lean ====
section
/-! DEFINITION. The word types of the block: 00_scope.md R5 (`WORD_BYTES`, `REG_W`) and R7. -/

namespace Sys2Proof

/-- A register or FIFO word, 32 bits (00_scope.md R5 `REG_W`, R9 "Word: a 4-byte unit"). -/
abbrev Word := BitVec 32

/-- A byte of a buffer window (20_memory.md R42). -/
abbrev Byte := BitVec 8

/-- A word count as the engines hold it, 16 bits (10_state.md R11 `in_copied`, `out_copied`). -/
abbrev Count := BitVec 16

end Sys2Proof
end

