-- ==== Sys2Proof/Config.lean ====
section
/-! DEFINITION. The configuration record `Cfg` of 00_scope.md R5, its default values, the test
configuration of 95_test_vectors.md section 1, and the free values (`draw(N)` of R8). -/

namespace Sys2Proof

/-- `BYTE_ORDER` of 00_scope.md R5: the byte order of a word in a buffer window (20_memory.md R43). -/
inductive ByteOrder where
  | little
  | big
deriving DecidableEq, Repr

/-- `IN_FULL_POLICY` of 00_scope.md R5: what the IN engine does when the input FIFO is full
(41_copy_engines.md R112). -/
inductive InFullPolicy where
  | stop
  | stall
deriving DecidableEq, Repr

/-- The constants of `Cfg` (00_scope.md R5), all but the platform-supplied DeviceContext. -/
structure Params where
  offCtrl       : Nat
  offStatus     : Nat
  offXfer       : Nat
  offAmount     : Nat
  offUser0      : Nat
  minRegSpace   : Nat
  ctrlToBit     : Nat
  ctrlFromBit   : Nat
  stInEmptyBit    : Nat
  stInFullBit     : Nat
  stInCopyingBit  : Nat
  stOutEmptyBit   : Nat
  stOutFullBit    : Nat
  stOutCopyingBit : Nat
  xfInShift     : Nat
  xfInMask      : Word
  xfOutShift    : Nat
  xfOutMask     : Word
  amountW       : Nat
  fifoInDepth   : Nat
  fifoOutDepth  : Nat
  bufInWords    : Nat
  bufOutWords   : Nat
  inFullPolicy  : InFullPolicy
  pollLimit     : Option Nat
  byteOrder     : ByteOrder
deriving DecidableEq, Repr

/-- The source's DeviceContext, "the platform-supplied part of `Cfg`" (00_scope.md R9). No rule
depends on `registerBase` (R5): every access is by offset from it. -/
structure DeviceContext where
  registerBase : Nat
  regionLength : Nat
  bufInOffset  : Nat
  bufOutOffset : Nat
deriving DecidableEq, Repr

/-- The configuration record of 00_scope.md R5, fixed before reset and never written (10_state.md R11). -/
structure Cfg extends Params where
  dev : DeviceContext
deriving DecidableEq, Repr

/-- The inputs the platform supplies at initialisation, any of which may be missing
(43_offset_validation.md R151). -/
structure Platform where
  registerBase : Option Nat
  regionLength : Option Nat
  bufInOffset  : Option Nat
  bufOutOffset : Option Nat
deriving DecidableEq, Repr

/-- The defaults of 00_scope.md R5, with the test values of the OPEN ones (D13, D14). -/
def Params.standard : Params where
  offCtrl := 0x00
  offStatus := 0x04
  offXfer := 0x08
  offAmount := 0x0C
  offUser0 := 0x10
  minRegSpace := 0x28
  ctrlToBit := 0
  ctrlFromBit := 1
  stInEmptyBit := 0
  stInFullBit := 1
  stInCopyingBit := 2
  stOutEmptyBit := 3
  stOutFullBit := 4
  stOutCopyingBit := 5
  xfInShift := 0
  xfInMask := 0xFFFF
  xfOutShift := 16
  xfOutMask := 0xFFFF
  amountW := 16
  fifoInDepth := 16
  fifoOutDepth := 16
  bufInWords := 64
  bufOutWords := 64
  inFullPolicy := .stop
  pollLimit := none
  byteOrder := .little

/-- TESTCFG (95_test_vectors.md section 1, decision D40). DESIGN CHOICE: the configuration of the
reset state, and no statement rests on its values but those that name it (log 2). Unsafe if read
as the values of a real block. -/
def Cfg.test : Cfg :=
  { Params.standard with
    dev := { registerBase := 0, regionLength := 0x1000, bufInOffset := 0x100, bufOutOffset := 0x200 } }

/-- The free values: `freeWord k` is the `k`-th `draw(32)` of 00_scope.md R8, a value under no law;
a narrower draw is a part of one. DESIGN CHOICE of form, safe (log 6). -/
opaque Config.freeWord : Nat → BitVec 32

end Sys2Proof
end

