-- ==== Sys2Proof/Syntax.lean ====
section
/-! DEFINITION. The commands of the block: one constructor of `Instr` per row of
spec/opcode_table.json (30_encoding.md R65, R66, R63), and the command words on the three ports. -/

namespace Sys2Proof

/-- The access size of a format B command (30_encoding.md R61). -/
inductive Size where
  | byte
  | half
  | word
deriving DecidableEq, Repr

/-- `n` = 1, 2, 4 for `size` = 00, 01, 10 (30_encoding.md R64). -/
def Size.bytes : Size → Nat
  | .byte => 1
  | .half => 2
  | .word => 4

/-- A command, with the operands its rule uses. A field of the command word that the rule ignores is
dropped by the decoder and has no place here (log 19). `j` is the byte index in the window of
40_register_access.md R90; `index` is read as a signed integer (30_encoding.md R62). -/
inductive Instr where
  -- format B: protocol registers
  | rdCtrl
  | wrCtrl (wdata : Word)
  | rdStatus
  | wrStatus (wdata : Word)
  | rdXferStatus
  | wrXferStatus (wdata : Word)
  | rdDataAmount
  | wrDataAmount (wdata : Word)
  -- format B: user registers
  | rdUser0
  | rdUser1
  | rdUser2
  | rdUser3
  | rdUser4
  | rdUser5
  | wrUser0 (wdata : Word)
  | wrUser1 (wdata : Word)
  | wrUser2 (wdata : Word)
  | wrUser3 (wdata : Word)
  | wrUser4 (wdata : Word)
  | wrUser5 (wdata : Word)
  -- format B: buffer windows
  | rdBufIn (n : Size) (j : Nat)
  | wrBufIn (n : Size) (j : Nat) (wdata : Word)
  | rdBufOut (n : Size) (j : Nat)
  | wrBufOut (n : Size) (j : Nat) (wdata : Word)
  -- format B: every other word
  | busIllegal (we : Bool) (size : BitVec 2) (rsv : BitVec 5) (offset : BitVec 24)
  -- format C
  | setUserReg (index : Word) (value : Word)
  | getUserReg (index : Word)
  | getFifoInEmpty
  | getFifoInFull
  | getFifoInCopying
  | getFifoInCopiedAmount
  | getFifoOutEmpty
  | getFifoOutFull
  | getFifoOutCopying
  | getFifoOutCopiedAmount
  | ctlUnknown (op : BitVec 8)
  -- format P
  | devPopIn
  | devPushOut (data : Word)
deriving DecidableEq, Repr

/-- A command word on the port it arrives on, which fixes its format and length (30_encoding.md R68). -/
inductive Command where
  | bus (w : BitVec 64)
  | ctl (w : BitVec 72)
  | dev (w : BitVec 33)
deriving DecidableEq, Repr

end Sys2Proof
end

