-- ==== Sys2Proof/WellFormed.lean ====
section
/-! DEFINITION. Which commands exist under a configuration: the `match` patterns and the `condition`
texts of spec/opcode_table.json. Written apart from the decoder, so that their agreement says something. -/

namespace Sys2Proof

/-- The `condition` of a window row of the opcode table, for the window of `words` words at `base`:
`n` bytes at `offset` lie in the window and in the region, aligned to `n`. -/
def inWindow (c : Cfg) (base words offset n : Nat) : Bool :=
  decide (base ≤ offset) && decide (offset + n ≤ base + 4 * words) && decide (offset % n = 0)
    && decide (offset + n ≤ c.dev.regionLength)

/-- `offset` is one of the ten register offsets (10_state.md R19). -/
def isRegister (c : Cfg) (offset : Nat) : Bool :=
  offset == c.offCtrl || offset == c.offStatus || offset == c.offXfer || offset == c.offAmount
    || offset == c.offUser0 || offset == c.offUser0 + 4 || offset == c.offUser0 + 8
    || offset == c.offUser0 + 12 || offset == c.offUser0 + 16 || offset == c.offUser0 + 20

/-- The size field's access width; the code 11 is reserved (30_encoding.md R61). -/
def sizeBytes? (size : BitVec 2) : Option Nat :=
  match size.toNat with
  | 0 => some 1
  | 1 => some 2
  | 2 => some 4
  | _ => none

/-- Some format B row other than BUS_ILLEGAL matches `(size, rsv, offset)`. -/
def busLegal (c : Cfg) (size : BitVec 2) (rsv : BitVec 5) (offset : BitVec 24) : Bool :=
  rsv == 0 &&
  match sizeBytes? size with
  | none => false
  | some n =>
    (n == 4 && isRegister c offset.toNat)
      || inWindow c c.dev.bufInOffset c.bufInWords offset.toNat n
      || inWindow c c.dev.bufOutOffset c.bufOutWords offset.toNat n

/-- The command exists under the configuration `c`: its row of the opcode table admits its operands. -/
def Instr.wf (c : Cfg) : Instr → Bool
  | .rdCtrl | .wrCtrl _ | .rdStatus | .wrStatus _ | .rdXferStatus | .wrXferStatus _
  | .rdDataAmount | .wrDataAmount _ => true
  | .rdUser0 | .rdUser1 | .rdUser2 | .rdUser3 | .rdUser4 | .rdUser5 => true
  | .wrUser0 _ | .wrUser1 _ | .wrUser2 _ | .wrUser3 _ | .wrUser4 _ | .wrUser5 _ => true
  | .rdBufIn n j | .wrBufIn n j _ =>
    inWindow c c.dev.bufInOffset c.bufInWords (c.dev.bufInOffset + j) n.bytes
  | .rdBufOut n j | .wrBufOut n j _ =>
    inWindow c c.dev.bufOutOffset c.bufOutWords (c.dev.bufOutOffset + j) n.bytes
  | .busIllegal _ size rsv offset => !busLegal c size rsv offset
  | .setUserReg _ _ | .getUserReg _ => true
  | .getFifoInEmpty | .getFifoInFull | .getFifoInCopying | .getFifoInCopiedAmount
  | .getFifoOutEmpty | .getFifoOutFull | .getFifoOutCopying | .getFifoOutCopiedAmount => true
  | .ctlUnknown op => decide (0x0A ≤ op.toNat)
  | .devPopIn | .devPushOut _ => true

end Sys2Proof
end

