-- ==== Sys2Proof/Decode.lean ====
section
/-! DEFINITION. The decoder of the three command formats (30_encoding.md R61 to R68,
40_register_access.md R80), total on every word, and the encoder written from the same formats. -/

namespace Sys2Proof

/-- What a decoded bus access reaches (40_register_access.md R80). -/
inductive Target where
  | ctrl
  | status
  | xferStatus
  | dataAmount
  | user (i : Fin 6)
  | bufIn (j : Nat)
  | bufOut (j : Nat)
  | illegal
deriving DecidableEq, Repr

/-- A word that no port carries: the only way a decode is refused (30_encoding.md R68: every command
of a format has that format's fixed length). -/
inductive DecodeReject where
  | badLength (nbits : Nat)
deriving DecidableEq, Repr

/-- The access size of a size field, none for the reserved code 11 (30_encoding.md R61). -/
def sizeOf? (size : BitVec 2) : Option Size :=
  match size.toNat with
  | 0 => some .byte
  | 1 => some .half
  | 2 => some .word
  | _ => none

/-- The size field of an access size (30_encoding.md R61). -/
def Size.code : Size → BitVec 2
  | .byte => 0
  | .half => 1
  | .word => 2

/-- The user register at a byte offset: `offset = OFF_USER0 + 4*i, 0 <= i <= 5` (40_register_access.md R80). -/
def userAt? (c : Cfg) (off : Nat) : Option (Fin 6) :=
  if off = c.offUser0 then some 0
  else if off = c.offUser0 + 4 then some 1
  else if off = c.offUser0 + 8 then some 2
  else if off = c.offUser0 + 12 then some 3
  else if off = c.offUser0 + 16 then some 4
  else if off = c.offUser0 + 20 then some 5
  else none

/-- The register at an offset of the register range, in the order of 40_register_access.md R80 test 3. -/
def registerAt (c : Cfg) (off : Nat) : Target :=
  if off = c.offCtrl then .ctrl
  else if off = c.offStatus then .status
  else if off = c.offXfer then .xferStatus
  else if off = c.offAmount then .dataAmount
  else match userAt? c off with
    | some i => .user i
    | none => .illegal

/-- Tests 2 to 6 of the bus decode (40_register_access.md R80), in that order. -/
def decodeTarget (c : Cfg) (off n : Nat) : Target :=
  if c.dev.regionLength ≤ off ∨ c.dev.regionLength < off + n then .illegal
  else if off < c.minRegSpace then
    if n ≠ 4 ∨ off % 4 ≠ 0 then .illegal else registerAt c off
  else if c.dev.bufInOffset ≤ off ∧ off + n ≤ c.dev.bufInOffset + 4 * c.bufInWords then
    if off % n ≠ 0 then .illegal else .bufIn (off - c.dev.bufInOffset)
  else if c.dev.bufOutOffset ≤ off ∧ off + n ≤ c.dev.bufOutOffset + 4 * c.bufOutWords then
    if off % n ≠ 0 then .illegal else .bufOut (off - c.dev.bufOutOffset)
  else .illegal

/-- The read of user register `i` as a command (30_encoding.md R65). -/
def rdUserInstr (i : Fin 6) : Instr :=
  match i.val with
  | 0 => .rdUser0
  | 1 => .rdUser1
  | 2 => .rdUser2
  | 3 => .rdUser3
  | 4 => .rdUser4
  | _ => .rdUser5

/-- The write of user register `i` as a command (30_encoding.md R65). -/
def wrUserInstr (i : Fin 6) (wdata : Word) : Instr :=
  match i.val with
  | 0 => .wrUser0 wdata
  | 1 => .wrUser1 wdata
  | 2 => .wrUser2 wdata
  | 3 => .wrUser3 wdata
  | 4 => .wrUser4 wdata
  | _ => .wrUser5 wdata

/-- The read command of a target; `bad` is the word's BUS_ILLEGAL. -/
def readInstr (bad : Instr) (n : Size) : Target → Instr
  | .ctrl => .rdCtrl
  | .status => .rdStatus
  | .xferStatus => .rdXferStatus
  | .dataAmount => .rdDataAmount
  | .user i => rdUserInstr i
  | .bufIn j => .rdBufIn n j
  | .bufOut j => .rdBufOut n j
  | .illegal => bad

/-- The write command of a target; `bad` is the word's BUS_ILLEGAL. -/
def writeInstr (bad : Instr) (n : Size) (wdata : Word) : Target → Instr
  | .ctrl => .wrCtrl wdata
  | .status => .wrStatus wdata
  | .xferStatus => .wrXferStatus wdata
  | .dataAmount => .wrDataAmount wdata
  | .user i => wrUserInstr i wdata
  | .bufIn j => .wrBufIn n j wdata
  | .bufOut j => .wrBufOut n j wdata
  | .illegal => bad

/-- The fields of a format B word decoded to a command (40_register_access.md R80 test 1, then the rest). -/
def busFields (c : Cfg) (we : Bool) (size : BitVec 2) (rsv : BitVec 5) (off : BitVec 24)
    (wdata : Word) : Instr :=
  match sizeOf? size with
  | none => .busIllegal we size rsv off
  | some n =>
    if rsv ≠ 0 then .busIllegal we size rsv off
    else if we then
      writeInstr (.busIllegal we size rsv off) n wdata (decodeTarget c off.toNat n.bytes)
    else
      readInstr (.busIllegal we size rsv off) n (decodeTarget c off.toNat n.bytes)

/-- Format B, 64 bits: `we` [63], `size` [62:61], `rsv` [60:56], `offset` [55:32], `wdata` [31:0]
(30_encoding.md R61). -/
def decodeBus (c : Cfg) (w : BitVec 64) : Instr :=
  busFields c (w.getLsbD 63) (w.extractLsb' 61 2) (w.extractLsb' 56 5) (w.extractLsb' 32 24)
    (w.extractLsb' 0 32)

/-- The fields of a format C word decoded by `op` (30_encoding.md R66). -/
def ctlFields (op : BitVec 8) (index value : Word) : Instr :=
  match op.toNat with
  | 0x00 => .setUserReg index value
  | 0x01 => .getUserReg index
  | 0x02 => .getFifoInEmpty
  | 0x03 => .getFifoInFull
  | 0x04 => .getFifoInCopying
  | 0x05 => .getFifoInCopiedAmount
  | 0x06 => .getFifoOutEmpty
  | 0x07 => .getFifoOutFull
  | 0x08 => .getFifoOutCopying
  | 0x09 => .getFifoOutCopiedAmount
  | _ => .ctlUnknown op

/-- Format C, 72 bits: `op` [71:64], `index` [63:32], `value` [31:0] (30_encoding.md R62). -/
def decodeCtl (w : BitVec 72) : Instr :=
  ctlFields (w.extractLsb' 64 8) (w.extractLsb' 32 32) (w.extractLsb' 0 32)

/-- Format P, 33 bits: `dir` [32], `data` [31:0] (30_encoding.md R63). -/
def decodeDev (w : BitVec 33) : Instr :=
  if w.getLsbD 32 then .devPushOut (w.extractLsb' 0 32) else .devPopIn

/-- The decoder of all three ports (30_encoding.md R68). -/
def decode (c : Cfg) : Command → Instr
  | .bus w => decodeBus c w
  | .ctl w => decodeCtl w
  | .dev w => decodeDev w

/-! ### The encoder -/

/-- A format B word from its fields (30_encoding.md R61). -/
def busWord (we : Bool) (size : BitVec 2) (rsv : BitVec 5) (off : BitVec 24) (wdata : Word) : BitVec 64 :=
  BitVec.ofBool we ++ size ++ rsv ++ off ++ wdata

/-- A format C word from its fields (30_encoding.md R62). -/
def ctlWord (op : BitVec 8) (index value : Word) : BitVec 72 :=
  op ++ index ++ value

/-- A format P word from its fields (30_encoding.md R63). -/
def devWord (dir : Bool) (data : Word) : BitVec 33 :=
  BitVec.ofBool dir ++ data

/-- The bus word that reads `n` bytes at `off`, `RD.W`, `RD.H`, `RD.B` of 30_encoding.md R69. -/
def rdWord (n : Size) (off : Nat) : BitVec 64 :=
  busWord false n.code 0 (BitVec.ofNat 24 off) 0

/-- The bus word that writes `n` bytes at `off`, `WR.W`, `WR.H`, `WR.B` of 30_encoding.md R69. -/
def wrWord (n : Size) (off : Nat) (wdata : Word) : BitVec 64 :=
  busWord true n.code 0 (BitVec.ofNat 24 off) wdata

/-- The command word of a command; a field the command does not use is zero (30_encoding.md R65, R66, R63). -/
def encode (c : Cfg) : Instr → Command
  | .rdCtrl => .bus (rdWord .word c.offCtrl)
  | .wrCtrl wdata => .bus (wrWord .word c.offCtrl wdata)
  | .rdStatus => .bus (rdWord .word c.offStatus)
  | .wrStatus wdata => .bus (wrWord .word c.offStatus wdata)
  | .rdXferStatus => .bus (rdWord .word c.offXfer)
  | .wrXferStatus wdata => .bus (wrWord .word c.offXfer wdata)
  | .rdDataAmount => .bus (rdWord .word c.offAmount)
  | .wrDataAmount wdata => .bus (wrWord .word c.offAmount wdata)
  | .rdUser0 => .bus (rdWord .word c.offUser0)
  | .rdUser1 => .bus (rdWord .word (c.offUser0 + 4))
  | .rdUser2 => .bus (rdWord .word (c.offUser0 + 8))
  | .rdUser3 => .bus (rdWord .word (c.offUser0 + 12))
  | .rdUser4 => .bus (rdWord .word (c.offUser0 + 16))
  | .rdUser5 => .bus (rdWord .word (c.offUser0 + 20))
  | .wrUser0 wdata => .bus (wrWord .word c.offUser0 wdata)
  | .wrUser1 wdata => .bus (wrWord .word (c.offUser0 + 4) wdata)
  | .wrUser2 wdata => .bus (wrWord .word (c.offUser0 + 8) wdata)
  | .wrUser3 wdata => .bus (wrWord .word (c.offUser0 + 12) wdata)
  | .wrUser4 wdata => .bus (wrWord .word (c.offUser0 + 16) wdata)
  | .wrUser5 wdata => .bus (wrWord .word (c.offUser0 + 20) wdata)
  | .rdBufIn n j => .bus (rdWord n (c.dev.bufInOffset + j))
  | .wrBufIn n j wdata => .bus (wrWord n (c.dev.bufInOffset + j) wdata)
  | .rdBufOut n j => .bus (rdWord n (c.dev.bufOutOffset + j))
  | .wrBufOut n j wdata => .bus (wrWord n (c.dev.bufOutOffset + j) wdata)
  | .busIllegal we size rsv off => .bus (busWord we size rsv off 0)
  | .setUserReg index value => .ctl (ctlWord 0x00 index value)
  | .getUserReg index => .ctl (ctlWord 0x01 index 0)
  | .getFifoInEmpty => .ctl (ctlWord 0x02 0 0)
  | .getFifoInFull => .ctl (ctlWord 0x03 0 0)
  | .getFifoInCopying => .ctl (ctlWord 0x04 0 0)
  | .getFifoInCopiedAmount => .ctl (ctlWord 0x05 0 0)
  | .getFifoOutEmpty => .ctl (ctlWord 0x06 0 0)
  | .getFifoOutFull => .ctl (ctlWord 0x07 0 0)
  | .getFifoOutCopying => .ctl (ctlWord 0x08 0 0)
  | .getFifoOutCopiedAmount => .ctl (ctlWord 0x09 0 0)
  | .ctlUnknown op => .ctl (ctlWord op 0 0)
  | .devPopIn => .dev (devWord false 0)
  | .devPushOut data => .dev (devWord true data)

/-! ### Words as the opcode table numbers them -/

/-- The port a word of `nbits` bits arrives on: 64, 72 and 33 bits name the format (30_encoding.md
R68); 40 is format P in whole bytes (log 20). -/
def commandOf (nbits w : Nat) : Except DecodeReject Command :=
  if nbits = 64 then .ok (.bus (BitVec.ofNat 64 w))
  else if nbits = 72 then .ok (.ctl (BitVec.ofNat 72 w))
  else if nbits = 33 ∨ nbits = 40 then .ok (.dev (BitVec.ofNat 33 w))
  else .error (.badLength nbits)

/-- The command the decoder reads from a word of the opcode table, under TESTCFG, the configuration
of the reset state (log 2, log 20). -/
def decodeTableWord (nbits w : Nat) : Option Instr :=
  match commandOf nbits w with
  | .ok cmd => some (decode Cfg.test cmd)
  | .error _ => none

end Sys2Proof
end

