-- ==== Sys2Proof/Machine/State.lean ====
section
/-! DEFINITION. The state of the block (10_state.md R11), the inputs and outputs around it, and the
reset state (R31). -/

namespace Sys2Proof.Machine

/-- The reasons of the sticky fault mark (10_state.md R30, 60_exceptions.md R193 to R196). It is a mark
in the state, not an outcome of a step: "A fault is not reported to the host and does not stop it" (R192). -/
inductive FaultMark where
  | busFault
  | engineRetrigger
  | windowRace
  | windowOverrun
deriving DecidableEq, Repr

/-- The error kinds handed back to a caller (60_exceptions.md R186). -/
inductive ErrorKind where
  | resourceExhausted
  | boundaryFault
  | accessDenied
  | invalidArgument
  | deviceNotReady
  | timeout
deriving DecidableEq, Repr

/-- The agents that take steps (10_state.md R10); `echo` is the echo coprocessor, the named premise of
41_copy_engines.md R119 (log 26). -/
inductive Agent where
  | host
  | inEngine
  | outEngine
  | coprocessor
  | echo
deriving DecidableEq, Repr

/-- A control action of the multiplexer's control half (42_status_control_mux.md R131). -/
inductive Action where
  | toFifo
  | fromFifo
deriving DecidableEq, Repr

/-- The host-software events of a procedure that the block does not decide (44_host_procedures.md R170,
R172): whether the buffer allocation fails and whether the copy to or from the caller fails (log 17). -/
structure HostEvents where
  allocFails : Bool
  copyFails  : Bool
deriving DecidableEq, Repr

/-- The pseudo-instructions (30_encoding.md R70, 44_host_procedures.md). -/
inductive Proc where
  | trigIn
  | trigOut
  | pollIn
  | pollOut
  | writeToDevice (payload : List Byte) (ev : HostEvents)
  | readFromDevice (maxLength : Nat) (ev : HostEvents)
deriving DecidableEq, Repr

/-- The access a procedure makes next (44_host_procedures.md R165 to R171): `stage j` writes staged byte
`j`, `setAmount` writes DATA_AMOUNT, `trigRead`, `trigClear`, `trigSet` are the three accesses of a
trigger, `poll a k` the STATUS read after `k` unsuccessful ones, `readXfer` the XFER_STATUS read,
`collect j avail acc` the read of result byte `j` of `avail`. -/
inductive Phase where
  | stage (j : Nat)
  | setAmount
  | trigRead (a : Action)
  | trigClear (a : Action) (c : Word)
  | trigSet (a : Action) (c : Word)
  | poll (a : Action) (k : Nat)
  | readXfer (a : Action)
  | collect (j avail : Nat) (acc : List Byte)
deriving DecidableEq, Repr

/-- A procedure in progress. -/
structure ProcRun where
  proc  : Proc
  phase : Phase
deriving DecidableEq, Repr

/-- What the host issues next: a bus word, a control word, or a pseudo-instruction (30_encoding.md R68, R70). -/
inductive HostCmd where
  | bus (w : BitVec 64)
  | ctl (w : BitVec 72)
  | proc (p : Proc)
deriving DecidableEq, Repr

/-- What the host's last command returned (30_encoding.md R61, R62; 44_host_procedures.md R169, R171):
`data n v` is the `8*n`-bit value of a bus read, `value v` a control operation's 32-bit result, `count`
and `bytes` the results of WRITE_TO_DEVICE and READ_FROM_DEVICE, `done` a command without a result. -/
inductive HostResp where
  | none
  | done
  | data (n : Nat) (v : Word)
  | value (v : Word)
  | error (k : ErrorKind)
  | count (bytes : Nat)
  | bytes (bs : List Byte)
deriving DecidableEq, Repr

/-- What the coprocessor's last command returned (41_copy_engines.md R117, R118); `waiting`: the command
has no step yet. -/
inductive DevResp where
  | none
  | popped (w : Word)
  | pushed
  | waiting
deriving DecidableEq, Repr

/-- A buffer window's bytes: (byte index, byte) pairs, indices strictly rising. -/
abbrev Memory := List Host.Cell

/-- The state: the components of 10_state.md R11, then the parameter `cfg` (R32, log 1), then the
model's own inputs, outputs and draw counter (INVENTORY.md '## State'). -/
structure State where
  ctrlTo      : Bool
  ctrlFrom    : Bool
  amount      : Count
  user        : Vector Word 6
  userWritten : Vector Bool 6
  fifoIn      : List Word
  fifoOut     : List Word
  bufIn       : Memory
  bufOut      : Memory
  inBusy      : Bool
  inTarget    : Count
  inCopied    : Count
  outBusy     : Bool
  outCopied   : Count
  fault       : Option FaultMark
  cfg         : Cfg
  draws       : Nat
  turns       : List Agent
  hostPort    : List HostCmd
  devPort     : List (BitVec 33)
  proc        : Option ProcRun
  hostResp    : HostResp
  devResp     : DevResp
deriving DecidableEq, Repr

/-- The ways a step stops without a next state. No rule of the spec stops the block. -/
inductive Fault where
  /-- Raised by `step` when the input list `turns` names no agent: the schedule given is at its end
  (20_memory.md R51 leaves the choice of the agent open). Safe: nothing is claimed beyond it (log 8). -/
  | noTurn
deriving DecidableEq, Repr

/-- The ways the model gives no meaning. -/
inductive Refusal where
  /-- Raised by an arm of `exec` whose instruction has no meaning yet. Safe. No arm does (NOTES.md). -/
  | notModelled (mnemonic : String)
  /-- Raised by `step` in a state whose configuration fails 00_scope.md R5 or `Validate`: "after it the
  block has no state and no operation may be issued" (60_exceptions.md R191). Safe (log 13). -/
  | deviceNotReady
deriving DecidableEq, Repr

/-- The reset state of a configuration (10_state.md R31). The stored words of `user` are shown by no
read while `userWritten` is false (log 4), and no byte of a window is listed (log 5). -/
def State.resetWith (c : Cfg) : State where
  ctrlTo := false
  ctrlFrom := false
  amount := 0
  user := Vector.replicate 6 0
  userWritten := Vector.replicate 6 false
  fifoIn := []
  fifoOut := []
  bufIn := []
  bufOut := []
  inBusy := false
  inTarget := 0
  inCopied := 0
  outBusy := false
  outCopied := 0
  fault := none
  cfg := c
  draws := 0
  turns := []
  hostPort := []
  devPort := []
  proc := none
  hostResp := .none
  devResp := .none

/-- The machine right after reset: 10_state.md R31 under TESTCFG (log 2), no command on a port, no turn
given (log 20). -/
def State.reset : State := State.resetWith Cfg.test

end Sys2Proof.Machine
end

