-- ==== Sys2Proof/Machine/Operands.lean ====
section
/-! DEFINITION. Operand forms: byte order and truncation (20_memory.md R43, 30_encoding.md R64), the
user-register index (43_offset_validation.md R156, R157), and the lengths of the host procedures
(44_host_procedures.md R173). -/

namespace Sys2Proof.Machine

/-! ### Byte order -/

/-- The low `n` bytes of a word, least significant first (20_memory.md R43). -/
def bytesLE : Nat → Word → List Byte
  | 0, _ => []
  | n + 1, v => v.setWidth 8 :: bytesLE n (v >>> 8)

/-- The word of a list of bytes, least significant first (20_memory.md R43). -/
def wordLE : List Byte → Word
  | [] => 0
  | b :: bs => b.setWidth 32 ||| (wordLE bs <<< 8)

/-- The `n` bytes an access of `n` bytes stores for `v`, lowest address first. The big-endian order is
DEDUCED: the mirror image of 20_memory.md R43, unsafe (log 15). -/
def toBytes (o : ByteOrder) (n : Nat) (v : Word) : List Byte :=
  match o with
  | .little => bytesLE n v
  | .big => (bytesLE n v).reverse

/-- The value of the bytes of an access, lowest address first (20_memory.md R43, log 15). -/
def ofBytes (o : ByteOrder) (bs : List Byte) : Word :=
  match o with
  | .little => wordLE bs
  | .big => wordLE bs.reverse

/-- Byte `t` of a word, counted from the least significant. -/
def byteOf (v : Word) (t : Nat) : Byte :=
  v.extractLsb' (8 * t) 8

/-- The low `8*n` bits of a word (20_memory.md R47, `draw(8n)` of R46). -/
def lowBytes (n : Nat) (v : Word) : Word :=
  v &&& (BitVec.allOnes 32 >>> (32 - 8 * n))

/-! ### The user-register index -/

/-- `UserIndexValid(i) = (0 <= i) and (i <= 5)` for a signed 32-bit `i` (43_offset_validation.md R156). -/
def userIndexValid (index : Word) : Bool :=
  decide (0 ≤ index.toInt) && decide (index.toInt ≤ 5)

/-- The offset formed from a valid index, `OFF_USER0 + 4*i` (43_offset_validation.md R157). -/
def userOffset (c : Cfg) (index : Word) : Nat :=
  c.offUser0 + 4 * index.toNat

/-- The access width of an illegal bus word, for its `draw(8n)`: 4 for the reserved code 11, which has
no width. DESIGN CHOICE, safe: the draw is then a whole free word (log 7). -/
def illegalBytes (size : BitVec 2) : Nat :=
  match sizeOf? size with
  | some n => n.bytes
  | none => 4

/-! ### Lengths of the host procedures -/

/-- `RoundUp4(L)` of 44_host_procedures.md R173. -/
def roundUp4 (len : Nat) : Nat :=
  (len + 3) - (len + 3) % 4

/-- Byte `j` of the staged buffer: the payload followed by zero padding (44_host_procedures.md R169). -/
def stagedByte (payload : List Byte) (j : Nat) : Byte :=
  payload.getD j 0

/-- The word count written to DATA_AMOUNT: `(padded_len / 4) & (2^AMOUNT_W - 1)` (44_host_procedures.md R169). -/
def amountOf (c : Cfg) (len : Nat) : Word :=
  BitVec.ofNat 32 (roundUp4 len / 4 % 2 ^ c.amountW)

end Sys2Proof.Machine
end

