-- ==== Sys2Proof/Machine/Flags.lean ====
section
/-! DEFINITION. The computed registers (10_state.md R12, R15, R16) and the status/control bit multiplexer
(42_status_control_mux.md R130 to R134). -/

namespace Sys2Proof.Machine

/-! ### Computed registers -/

/-- A flag at its bit position. -/
def flagAt (b : Bool) (bit : Nat) : Word :=
  if b then 1#32 <<< bit else 0#32

/-- FIFO_IN_EMPTY: 1 iff `len(fifo_in) = 0` (10_state.md R15). -/
def inEmpty (s : State) : Bool := s.fifoIn.length == 0

/-- FIFO_IN_FULL: 1 iff `len(fifo_in) = FIFO_IN_DEPTH` (10_state.md R15). -/
def inFull (s : State) : Bool := s.fifoIn.length == s.cfg.fifoInDepth

/-- FIFO_OUT_EMPTY: 1 iff `len(fifo_out) = 0` (10_state.md R15). -/
def outEmpty (s : State) : Bool := s.fifoOut.length == 0

/-- FIFO_OUT_FULL: 1 iff `len(fifo_out) = FIFO_OUT_DEPTH` (10_state.md R15). -/
def outFull (s : State) : Bool := s.fifoOut.length == s.cfg.fifoOutDepth

/-- The value a read of CTRL returns (40_register_access.md R81). -/
def ctrlWord (s : State) : Word :=
  flagAt s.ctrlFrom s.cfg.ctrlFromBit ||| flagAt s.ctrlTo s.cfg.ctrlToBit

/-- The value a read of STATUS returns (40_register_access.md R84). -/
def statusWord (s : State) : Word :=
  flagAt (inEmpty s) s.cfg.stInEmptyBit
    ||| flagAt (inFull s) s.cfg.stInFullBit
    ||| flagAt s.inBusy s.cfg.stInCopyingBit
    ||| flagAt (outEmpty s) s.cfg.stOutEmptyBit
    ||| flagAt (outFull s) s.cfg.stOutFullBit
    ||| flagAt s.outBusy s.cfg.stOutCopyingBit

/-- The value a read of XFER_STATUS returns (40_register_access.md R86). -/
def xferWord (s : State) : Word :=
  (s.outCopied.setWidth 32 <<< s.cfg.xfOutShift) ||| (s.inCopied.setWidth 32 <<< s.cfg.xfInShift)

/-! ### The multiplexer's control half -/

/-- `CtrlMask(a)` (42_status_control_mux.md R131). -/
def ctrlMask (c : Cfg) : Action → Word
  | .toFifo => 1#32 <<< c.ctrlToBit
  | .fromFifo => 1#32 <<< c.ctrlFromBit

/-- `ClearVal(a, c) = c & ~CtrlMask(a)` (42_status_control_mux.md R131). -/
def clearVal (c : Cfg) (a : Action) (v : Word) : Word := v &&& ~~~(ctrlMask c a)

/-- `SetVal(a, c) = c | CtrlMask(a)` (42_status_control_mux.md R131). -/
def setVal (c : Cfg) (a : Action) (v : Word) : Word := v ||| ctrlMask c a

/-! ### The multiplexer's status half -/

/-- The flag selectors of 42_status_control_mux.md R132. -/
inductive FlagSel where
  | inEmpty
  | inFull
  | inCopying
  | outEmpty
  | outFull
  | outCopying
deriving DecidableEq, Repr

/-- The count selectors of 42_status_control_mux.md R133. -/
inductive CountSel where
  | inCopied
  | outCopied
deriving DecidableEq, Repr

/-- The selections of the multiplexer, `op` in 0x02..0x09 (42_status_control_mux.md R134). -/
inductive MuxOp where
  | flag (s : FlagSel)
  | count (s : CountSel)
deriving DecidableEq, Repr

/-- `bit(s)` (42_status_control_mux.md R132). -/
def flagBit (c : Cfg) : FlagSel → Nat
  | .inEmpty => c.stInEmptyBit
  | .inFull => c.stInFullBit
  | .inCopying => c.stInCopyingBit
  | .outEmpty => c.stOutEmptyBit
  | .outFull => c.stOutFullBit
  | .outCopying => c.stOutCopyingBit

/-- `Flag(s, raw) = (raw >> bit(s)) & 1` (42_status_control_mux.md R132). -/
def flagOf (c : Cfg) (s : FlagSel) (raw : Word) : BitVec 1 :=
  (raw >>> flagBit c s).setWidth 1

/-- `Count(s, raw) = (raw >> shift(s)) & mask(s)` (42_status_control_mux.md R133). DESIGN CHOICE: the whole masked
field is returned; under a mask wider than 16 bits the rule's "16-bit result" would cut it (log 29). -/
def countOf (c : Cfg) (s : CountSel) (raw : Word) : Word :=
  match s with
  | .inCopied => (raw >>> c.xfInShift) &&& c.xfInMask
  | .outCopied => (raw >>> c.xfOutShift) &&& c.xfOutMask

/-- `Mux(op, raw_status, raw_xfer)` (42_status_control_mux.md R134). -/
def mux (c : Cfg) (op : MuxOp) (rawStatus rawXfer : Word) : Word :=
  match op with
  | .flag s => (flagOf c s rawStatus).setWidth 32
  | .count s => countOf c s rawXfer

/-- The flag a procedure polls for an action (44_host_procedures.md R167, R168). -/
def copyingSel : Action → FlagSel
  | .toFifo => .inCopying
  | .fromFifo => .outCopying

end Sys2Proof.Machine
end

