-- ==== Sys2Proof/Machine/Validation.lean ====
section
/-! DEFINITION. The constraints on `Cfg` (00_scope.md R5), the word-aligned buffer offset validation
(43_offset_validation.md R150 to R155), and bringing the block up (70_reset_and_hazards.md R206). -/

namespace Sys2Proof.Machine

/-- The ten register offsets (10_state.md R19). -/
def registerOffsets (p : Params) : List Nat :=
  [p.offCtrl, p.offStatus, p.offXfer, p.offAmount, p.offUser0, p.offUser0 + 4, p.offUser0 + 8,
    p.offUser0 + 12, p.offUser0 + 16, p.offUser0 + 20]

/-- The six status bit numbers (10_state.md R15). -/
def statusBits (p : Params) : List Nat :=
  [p.stInEmptyBit, p.stInFullBit, p.stInCopyingBit, p.stOutEmptyBit, p.stOutFullBit, p.stOutCopyingBit]

/-- The entries of a list are pairwise distinct. -/
def distinct : List Nat → Bool
  | [] => true
  | x :: xs => xs.all (fun y => x != y) && distinct xs

/-- A mask passes every count of `w` bits, and the field at `shift` lies in the word. -/
def fieldFits (mask : Word) (shift w : Nat) : Bool :=
  (mask &&& BitVec.ofNat 32 (2 ^ w - 1)) == BitVec.ofNat 32 (2 ^ w - 1) && decide (shift + w ≤ 32)

/-- The register offsets are word-aligned, distinct, and end at `MIN_REG_SPACE` (00_scope.md R5).
That they are distinct is DEDUCED, safe (log 3). -/
def offsetsOk (p : Params) : Bool :=
  (registerOffsets p).all (fun o => o % 4 == 0) && distinct (registerOffsets p)
    && p.minRegSpace == (registerOffsets p).foldl (fun m o => max m (o + 4)) 0

/-- The bit numbers are distinct and the transfer-status fields disjoint (00_scope.md R5). That every
bit number and field lies in the 32-bit word and that a field holds every count are DEDUCED, safe (log 3). -/
def bitsOk (p : Params) : Bool :=
  distinct [p.ctrlToBit, p.ctrlFromBit] && decide (p.ctrlToBit < 32) && decide (p.ctrlFromBit < 32)
    && distinct (statusBits p) && (statusBits p).all (fun b => decide (b < 32))
    && ((p.xfInMask <<< p.xfInShift) &&& (p.xfOutMask <<< p.xfOutShift)) == 0#32
    && fieldFits p.xfInMask p.xfInShift p.amountW && fieldFits p.xfOutMask p.xfOutShift p.amountW

/-- `AMOUNT_W <= 16`, depths at least 1, `1 <= BUF_*_WORDS <= 2^AMOUNT_W - 1` (00_scope.md R5).
`AMOUNT_W <= 16` is taken for every mask, DEDUCED, safe (log 18). -/
def sizesOk (p : Params) : Bool :=
  decide (p.amountW ≤ 16) && decide (1 ≤ p.fifoInDepth) && decide (1 ≤ p.fifoOutDepth)
    && decide (1 ≤ p.bufInWords) && decide (p.bufInWords ≤ 2 ^ p.amountW - 1)
    && decide (1 ≤ p.bufOutWords) && decide (p.bufOutWords ≤ 2 ^ p.amountW - 1)

/-- The constraints of 00_scope.md R5 that are not checked by `Validate`. -/
def paramsOk (p : Params) : Bool :=
  offsetsOk p && bitsOk p && sizesOk p

/-- `LenOk` (43_offset_validation.md R150). -/
def lenOk (p : Params) (regionLength : Nat) : Bool :=
  decide (p.minRegSpace ≤ regionLength)

/-- `AlignOk` (43_offset_validation.md R152). -/
def alignOk (bufIn bufOut : Nat) : Bool :=
  decide (bufIn % 4 = 0) && decide (bufOut % 4 = 0)

/-- `RangeOk`, on natural numbers (43_offset_validation.md R153). -/
def rangeOk (p : Params) (regionLength bufIn bufOut : Nat) : Bool :=
  decide (p.minRegSpace ≤ bufIn) && decide (bufIn + 4 * p.bufInWords ≤ regionLength)
    && decide (p.minRegSpace ≤ bufOut) && decide (bufOut + 4 * p.bufOutWords ≤ regionLength)

/-- `DisjointOk` (43_offset_validation.md R154). -/
def disjointOk (p : Params) (bufIn bufOut : Nat) : Bool :=
  decide (bufIn + 4 * p.bufInWords ≤ bufOut) || decide (bufOut + 4 * p.bufOutWords ≤ bufIn)

/-- `Validate(region_length?, buf_in_offset?, buf_out_offset?)` (43_offset_validation.md R155): no error
kind on Ok. -/
def validate (p : Params) (regionLength bufIn bufOut : Option Nat) : Option ErrorKind :=
  match regionLength, bufIn, bufOut with
  | some len, some bi, some bo =>
    if 2 ^ 24 < len then some .deviceNotReady
    else if lenOk p len = false then some .deviceNotReady
    else if alignOk bi bo = false then some .deviceNotReady
    else if rangeOk p len bi bo = false then some .deviceNotReady
    else if disjointOk p bi bo = false then some .deviceNotReady
    else none
  | _, _, _ => some .deviceNotReady

/-- A configuration under which the block was brought up: the constraints of 00_scope.md R5 hold and
`Validate` accepted the platform's values (70_reset_and_hazards.md R206). -/
def cfgOk (c : Cfg) : Bool :=
  paramsOk c.toParams
    && (validate c.toParams (some c.dev.regionLength) (some c.dev.bufInOffset) (some c.dev.bufOutOffset)).isNone

/-- Initialisation (70_reset_and_hazards.md R206): all four platform values must be supplied
(43_offset_validation.md R151), `Validate` must answer Ok, and the block is then in its reset state
(R155); on failure there is no state (60_exceptions.md R191). -/
def bringUp (p : Params) (plat : Platform) : Except ErrorKind State :=
  match validate p plat.regionLength plat.bufInOffset plat.bufOutOffset with
  | some k => .error k
  | none =>
    match plat.registerBase, plat.regionLength, plat.bufInOffset, plat.bufOutOffset with
    | some base, some len, some bi, some bo =>
      .ok (State.resetWith
        { p with dev := { registerBase := base, regionLength := len, bufInOffset := bi, bufOutOffset := bo } })
    | _, _, _, _ => .error .deviceNotReady

end Sys2Proof.Machine
end

