-- ==== Sys2Proof/Machine/Ops.lean ====
section
/-! DEFINITION. The named operations every meaning is written with: window bytes, free values, the
fault mark and the error result, registers, FIFOs, triggers, and the bus primitives `MemRead` and
`MemWrite` (20_memory.md R46, R47). -/

namespace Sys2Proof.Machine

/-- What a meaning answers. -/
abbrev Answer := Host.Outcome State Fault Refusal

/-! ### Window bytes -/

/-- What an unlisted byte reads as: no value of its own (10_state.md R31: "`draw(8)` per byte per read
until first written"). DESIGN CHOICE of form, safe (log 5). -/
def Memory.unlisted : Option Byte := none

/-- The byte listed at an index. -/
def Memory.get? : Memory → Nat → Option Byte
  | [], _ => Memory.unlisted
  | (k, v) :: m, a => if k = a then some v else Memory.get? m a

/-- Store a byte, keeping the indices strictly rising. -/
def Memory.set : Memory → Nat → Byte → Memory
  | [], a, b => [(a, b)]
  | (k, v) :: m, a, b =>
    if a < k then (a, b) :: (k, v) :: m
    else if a = k then (a, b) :: m
    else (k, v) :: Memory.set m a b

/-- The canonical form: indices strictly rising. No entry can equal what an unlisted index reads as,
which is no value. -/
def Memory.wf : Memory → Bool
  | [] => true
  | (k, _) :: m => m.all (fun e => decide (k < e.1)) && Memory.wf m

/-- Every listed index is below `n`. -/
def Memory.below (n : Nat) (m : Memory) : Bool :=
  m.all (fun e => decide (e.1 < n))

/-- Store bytes at consecutive indices from `j`. -/
def Memory.setBytes (m : Memory) (j : Nat) : List Byte → Memory
  | [] => m
  | b :: bs => Memory.setBytes (Memory.set m j b) (j + 1) bs

/-- The `n` bytes at `j`, byte `t` of the access taken from `free` where the window lists none. -/
def Memory.getBytes (m : Memory) (free : Word) (j : Nat) (n : Nat) : List Byte :=
  (List.range n).map (fun t => (Memory.get? m (j + t)).getD (byteOf free t))

/-- The value of an access of `n` bytes at byte index `j` of a window (20_memory.md R43). -/
def Memory.value (m : Memory) (o : ByteOrder) (free : Word) (j n : Nat) : Word :=
  ofBytes o (Memory.getBytes m free j n)

/-- The window after a store of `n` bytes of `v` at byte index `j` (20_memory.md R43). -/
def Memory.store (m : Memory) (o : ByteOrder) (j n : Nat) (v : Word) : Memory :=
  Memory.setBytes m j (toBytes o n v)

/-! ### Free values -/

/-- The next `draw(32)` (00_scope.md R8). -/
def State.free (s : State) : Word := Config.freeWord s.draws

/-- One draw used: the next use is another value (00_scope.md R8, "chosen anew at each use"). -/
def State.nextDraw (s : State) : State := { s with draws := s.draws + 1 }

/-! ### The two abnormal outcomes: the fault mark and the error result (60_exceptions.md R185) -/

/-- `fault <Reason>`: set the mark if it is none, leave it otherwise (10_state.md R30). -/
def State.mark (r : FaultMark) (s : State) : State :=
  { s with fault := some (s.fault.getD r) }

/-- Hand a response to the host. -/
def State.respond (r : HostResp) (s : State) : State := { s with hostResp := r }

/-- Hand a response to the coprocessor. -/
def State.respondDev (r : DevResp) (s : State) : State := { s with devResp := r }

/-- The code of an error kind (60_exceptions.md R186). The response carries the kind itself. -/
def ErrorKind.code : ErrorKind → Nat
  | .resourceExhausted => 1
  | .boundaryFault => 2
  | .accessDenied => 3
  | .invalidArgument => 4
  | .deviceNotReady => 5
  | .timeout => 6

/-- `raise <Kind>`: the operation ends here and the caller receives the kind; state written before stays
written, nothing else happens (60_exceptions.md R185). -/
def State.raise (k : ErrorKind) (s : State) : State := s.respond (.error k)

/-- `fault WindowRace` if the window's engine is copying (60_exceptions.md R195). -/
def raceIf (busy : Bool) (s : State) : State :=
  if busy then s.mark .windowRace else s

/-! ### User registers and DATA_AMOUNT -/

/-- The value a read of user register `i` returns: a draw until first written (10_state.md R20, R31). -/
def userValue (i : Fin 6) (s : State) : Word :=
  if s.userWritten[i] then s.user[i] else s.free

/-- Write of user register `i` (40_register_access.md R89). -/
def writeUser (i : Fin 6) (v : Word) (s : State) : State :=
  { s with user := s.user.set i v, userWritten := s.userWritten.set i true }

/-- Write of DATA_AMOUNT: `amount <- wdata[AMOUNT_W-1 : 0]` (40_register_access.md R94). -/
def writeAmount (v : Word) (s : State) : State :=
  { s with amount := BitVec.ofNat 16 (v.toNat % 2 ^ s.cfg.amountW) }

/-! ### CTRL and the triggers -/

/-- A rising COPY_TO_FIFO: start the IN engine, or the fault (40_register_access.md R82). -/
def triggerIn (s : State) : State :=
  if s.inBusy then s.mark .engineRetrigger
  else if s.cfg.bufInWords < s.amount.toNat then s.mark .windowOverrun
  else { s with inBusy := true, inTarget := s.amount, inCopied := 0 }

/-- A rising COPY_FROM_FIFO: start the OUT engine, or the fault (40_register_access.md R82). -/
def triggerOut (s : State) : State :=
  if s.outBusy then s.mark .engineRetrigger
  else { s with outBusy := true, outCopied := 0 }

/-- Store the two control bits of a CTRL write (10_state.md R12, R13). -/
def storeCtrl (v : Word) (s : State) : State :=
  { s with ctrlTo := v.getLsbD s.cfg.ctrlToBit, ctrlFrom := v.getLsbD s.cfg.ctrlFromBit }

/-- The write stores 1 over a stored 0 of COPY_TO_FIFO (40_register_access.md R82 `rise_to`). -/
def risesTo (v : Word) (s : State) : Bool :=
  !s.ctrlTo && v.getLsbD s.cfg.ctrlToBit

/-- The write stores 1 over a stored 0 of COPY_FROM_FIFO (40_register_access.md R82 `rise_from`). -/
def risesFrom (v : Word) (s : State) : Bool :=
  !s.ctrlFrom && v.getLsbD s.cfg.ctrlFromBit

/-- Write of CTRL (40_register_access.md R82, R83): both bits stored, then each rising bit judged on
its own, COPY_TO_FIFO first (60_exceptions.md R201). -/
def writeCtrl (v : Word) (s : State) : State :=
  let stored := storeCtrl v s
  let afterTo := if risesTo v s then triggerIn stored else stored
  if risesFrom v s then triggerOut afterTo else afterTo

/-! ### The buffer windows -/

/-- The value a read of `n` bytes at index `j` of the input window returns (40_register_access.md R90). -/
def bufInValue (n j : Nat) (s : State) : Word :=
  Memory.value s.bufIn s.cfg.byteOrder s.free j n

/-- The value a read of `n` bytes at index `j` of the output window returns (40_register_access.md R92). -/
def bufOutValue (n j : Nat) (s : State) : Word :=
  Memory.value s.bufOut s.cfg.byteOrder s.free j n

/-- The state after a host read of the input window: the race mark if its engine copies. -/
def afterReadBufIn (s : State) : State := (raceIf s.inBusy s).nextDraw

/-- The state after a host read of the output window: the race mark if its engine copies. -/
def afterReadBufOut (s : State) : State := (raceIf s.outBusy s).nextDraw

/-- Store `n` bytes at index `j` of the input window. -/
def storeBufIn (n j : Nat) (v : Word) (s : State) : State :=
  { s with bufIn := Memory.store s.bufIn s.cfg.byteOrder j n v }

/-- Store `n` bytes at index `j` of the output window. -/
def storeBufOut (n j : Nat) (v : Word) (s : State) : State :=
  { s with bufOut := Memory.store s.bufOut s.cfg.byteOrder j n v }

/-- Host write of the input window: the race mark if its engine copies, and the store
(40_register_access.md R91). -/
def writeBufIn (n j : Nat) (v : Word) (s : State) : State :=
  storeBufIn n j v (raceIf s.inBusy s)

/-- Host write of the output window (40_register_access.md R93). -/
def writeBufOut (n j : Nat) (v : Word) (s : State) : State :=
  storeBufOut n j v (raceIf s.outBusy s)

/-! ### The FIFOs (00_scope.md R8 `push`, `pop`) -/

/-- Push a word into the input FIFO. -/
def pushIn (w : Word) (s : State) : State := { s with fifoIn := s.fifoIn ++ [w] }

/-- Push a word into the output FIFO. -/
def pushOut (w : Word) (s : State) : State := { s with fifoOut := s.fifoOut ++ [w] }

/-- The state after a pop of the input FIFO; `s.fifoIn.head?` is the word. -/
def dropIn (s : State) : State := { s with fifoIn := s.fifoIn.tail }

/-- The state after a pop of the output FIFO; `s.fifoOut.head?` is the word. -/
def dropOut (s : State) : State := { s with fifoOut := s.fifoOut.tail }

/-! ### The bus primitives -/

/-- A bus access that decodes to BUS_ILLEGAL: `fault BusFault`, nothing else (40_register_access.md R96,
R97). -/
def busError (s : State) : State := s.mark .busFault

/-- `MemRead(off, n)`: the value and the state after (20_memory.md R46). -/
def memRead (off n : Nat) (s : State) : Word × State :=
  match decodeTarget s.cfg off n with
  | .ctrl => (ctrlWord s, s)
  | .status => (statusWord s, s)
  | .xferStatus => (xferWord s, s)
  | .dataAmount => (s.free, s.nextDraw)
  | .user i => (userValue i s, s.nextDraw)
  | .bufIn j => (bufInValue n j s, afterReadBufIn s)
  | .bufOut j => (bufOutValue n j s, afterReadBufOut s)
  | .illegal => (lowBytes n s.free, (busError s).nextDraw)

/-- `MemWrite(off, n, v)` (20_memory.md R47). -/
def memWrite (off n : Nat) (v : Word) (s : State) : State :=
  match decodeTarget s.cfg off n with
  | .ctrl => writeCtrl v s
  | .status => s
  | .xferStatus => s
  | .dataAmount => writeAmount v s
  | .user i => writeUser i v s
  | .bufIn j => writeBufIn n j v s
  | .bufOut j => writeBufOut n j v s
  | .illegal => busError s

end Sys2Proof.Machine
end

