-- ==== Sys2Proof/Machine/Control.lean ====
section
/-! DEFINITION. The meanings of the format C commands, the control operations (42_status_control_mux.md
R135 to R146). -/

namespace Sys2Proof.Machine

/-- A control operation that returned `v` and left `s` (R135). -/
def controlAnswer (v : Word) (s : State) : Answer := .next (s.respond (.value v))

/-- A control operation that raised an error kind (60_exceptions.md R185). -/
def errorAnswer (k : ErrorKind) (s : State) : Answer := .next (s.raise k)

/-- A GET of a flag: `Mux(op, MemRead(OFF_STATUS, 4), 0)` (R138 to R140, R142 to R144). -/
def getFlag (f : FlagSel) (s : State) : Answer :=
  controlAnswer (mux s.cfg (.flag f) (memRead s.cfg.offStatus 4 s).1 0) (memRead s.cfg.offStatus 4 s).2

/-- A GET of a copied amount: `Mux(op, 0, MemRead(OFF_XFER, 4))`, in words (R141, R145). -/
def getCount (k : CountSel) (s : State) : Answer :=
  controlAnswer (mux s.cfg (.count k) 0 (memRead s.cfg.offXfer 4 s).1) (memRead s.cfg.offXfer 4 s).2

/-- SET_USER_REG (R136). -/
def execSetUserReg (index value : Word) (s : State) : Answer :=
  if userIndexValid index then controlAnswer 0 (memWrite (userOffset s.cfg index) 4 value s)
  else errorAnswer .accessDenied s

/-- GET_USER_REG (R137). -/
def execGetUserReg (index : Word) (s : State) : Answer :=
  if userIndexValid index then
    controlAnswer (memRead (userOffset s.cfg index) 4 s).1 (memRead (userOffset s.cfg index) 4 s).2
  else errorAnswer .accessDenied s

/-- GET_FIFO_IN_EMPTY (R138). -/
def execGetFifoInEmpty (s : State) : Answer := getFlag .inEmpty s

/-- GET_FIFO_IN_FULL (R139). -/
def execGetFifoInFull (s : State) : Answer := getFlag .inFull s

/-- GET_FIFO_IN_COPYING (R140). -/
def execGetFifoInCopying (s : State) : Answer := getFlag .inCopying s

/-- GET_FIFO_IN_COPIED_AMOUNT (R141). -/
def execGetFifoInCopiedAmount (s : State) : Answer := getCount .inCopied s

/-- GET_FIFO_OUT_EMPTY (R142). -/
def execGetFifoOutEmpty (s : State) : Answer := getFlag .outEmpty s

/-- GET_FIFO_OUT_FULL (R143). -/
def execGetFifoOutFull (s : State) : Answer := getFlag .outFull s

/-- GET_FIFO_OUT_COPYING (R144). -/
def execGetFifoOutCopying (s : State) : Answer := getFlag .outCopying s

/-- GET_FIFO_OUT_COPIED_AMOUNT (R145). -/
def execGetFifoOutCopiedAmount (s : State) : Answer := getCount .outCopied s

/-- CTL_UNKNOWN: `raise InvalidArgument`, no access, no state change (R146). -/
def execCtlUnknown (_op : BitVec 8) (s : State) : Answer := errorAnswer .invalidArgument s

end Sys2Proof.Machine
end

