-- ==== Sys2Proof/Machine/DevPort.lean ====
section
/-! DEFINITION. The meanings of the format P commands, the coprocessor's FIFO port
(41_copy_engines.md R117, R118). -/

namespace Sys2Proof.Machine

/-- DEV_POP_IN: take the word at the head of the input FIFO. On an empty FIFO there is no step, "the
coprocessor waits" (R117, log 10). -/
def execDevPopIn (s : State) : Answer :=
  match s.fifoIn with
  | [] => .next (s.respondDev .waiting)
  | w :: _ => .next ((dropIn s).respondDev (.popped w))

/-- DEV_PUSH_OUT: append a word at the tail of the output FIFO. On a full FIFO there is no step (R118,
log 10). -/
def execDevPushOut (data : Word) (s : State) : Answer :=
  if s.fifoOut.length < s.cfg.fifoOutDepth then .next ((pushOut data s).respondDev .pushed)
  else .next (s.respondDev .waiting)

/-- The coprocessor's command has no step in this state and stays on its port (R117, R118, log 10). -/
def devWaits (i : Instr) (s : State) : Bool :=
  match i with
  | .devPopIn => s.fifoIn.isEmpty
  | .devPushOut _ => !decide (s.fifoOut.length < s.cfg.fifoOutDepth)
  | _ => false

end Sys2Proof.Machine
end

