-- ==== Sys2Proof/Machine/RegisterAccess.lean ====
section
/-! DEFINITION. The meanings of the format B commands (40_register_access.md R81 to R97). -/

namespace Sys2Proof.Machine

/-- A bus read of `n` bytes that returned `v` and left `s`. -/
def readAnswer (n : Nat) (v : Word) (s : State) : Answer := .next (s.respond (.data n v))

/-- A bus write that left `s`. -/
def writeAnswer (s : State) : Answer := .next (s.respond .done)

/-! ### Protocol registers -/

/-- RD_CTRL: the stored bits, not the state of the engines (R81). -/
def execRdCtrl (s : State) : Answer := readAnswer 4 (ctrlWord s) s

/-- WR_CTRL (R82, R83). -/
def execWrCtrl (wdata : Word) (s : State) : Answer := writeAnswer (writeCtrl wdata s)

/-- RD_STATUS: computed at the read, clears nothing (R84). -/
def execRdStatus (s : State) : Answer := readAnswer 4 (statusWord s) s

/-- WR_STATUS: ignored (R85, log 27). -/
def execWrStatus (_wdata : Word) (s : State) : Answer := writeAnswer s

/-- RD_XFER_STATUS: the running counts (R86). -/
def execRdXferStatus (s : State) : Answer := readAnswer 4 (xferWord s) s

/-- WR_XFER_STATUS: ignored (R87, log 27). -/
def execWrXferStatus (_wdata : Word) (s : State) : Answer := writeAnswer s

/-- RD_DATA_AMOUNT: a draw, the register is write-only (R95). -/
def execRdDataAmount (s : State) : Answer := readAnswer 4 s.free s.nextDraw

/-- WR_DATA_AMOUNT (R94). -/
def execWrDataAmount (wdata : Word) (s : State) : Answer := writeAnswer (writeAmount wdata s)

/-! ### User registers (R88, R89) -/

/-- Read of user register `i` (R88). -/
def readUser (i : Fin 6) (s : State) : Answer := readAnswer 4 (userValue i s) s.nextDraw

/-- RD_USER0 (R88). -/
def execRdUser0 (s : State) : Answer := readUser 0 s

/-- RD_USER1 (R88). -/
def execRdUser1 (s : State) : Answer := readUser 1 s

/-- RD_USER2 (R88). -/
def execRdUser2 (s : State) : Answer := readUser 2 s

/-- RD_USER3 (R88). -/
def execRdUser3 (s : State) : Answer := readUser 3 s

/-- RD_USER4 (R88). -/
def execRdUser4 (s : State) : Answer := readUser 4 s

/-- RD_USER5 (R88). -/
def execRdUser5 (s : State) : Answer := readUser 5 s

/-- WR_USER0 (R89). -/
def execWrUser0 (wdata : Word) (s : State) : Answer := writeAnswer (writeUser 0 wdata s)

/-- WR_USER1 (R89). -/
def execWrUser1 (wdata : Word) (s : State) : Answer := writeAnswer (writeUser 1 wdata s)

/-- WR_USER2 (R89). -/
def execWrUser2 (wdata : Word) (s : State) : Answer := writeAnswer (writeUser 2 wdata s)

/-- WR_USER3 (R89). -/
def execWrUser3 (wdata : Word) (s : State) : Answer := writeAnswer (writeUser 3 wdata s)

/-- WR_USER4 (R89). -/
def execWrUser4 (wdata : Word) (s : State) : Answer := writeAnswer (writeUser 4 wdata s)

/-- WR_USER5 (R89). -/
def execWrUser5 (wdata : Word) (s : State) : Answer := writeAnswer (writeUser 5 wdata s)

/-! ### Buffer windows -/

/-- RD_BUF_IN: the bytes, and `WindowRace` if the IN engine copies (R90). -/
def execRdBufIn (n : Size) (j : Nat) (s : State) : Answer :=
  readAnswer n.bytes (bufInValue n.bytes j s) (afterReadBufIn s)

/-- WR_BUF_IN: the bytes are stored, and `WindowRace` if the IN engine copies (R91). -/
def execWrBufIn (n : Size) (j : Nat) (wdata : Word) (s : State) : Answer :=
  writeAnswer (writeBufIn n.bytes j wdata s)

/-- RD_BUF_OUT (R92). -/
def execRdBufOut (n : Size) (j : Nat) (s : State) : Answer :=
  readAnswer n.bytes (bufOutValue n.bytes j s) (afterReadBufOut s)

/-- WR_BUF_OUT (R93). -/
def execWrBufOut (n : Size) (j : Nat) (wdata : Word) (s : State) : Answer :=
  writeAnswer (writeBufOut n.bytes j wdata s)

/-! ### Every other word -/

/-- BUS_ILLEGAL, by address or by shape: `fault BusFault`; a read returns `draw(8n)`, a write stores
nothing (R96, R97). -/
def execBusIllegal (we : Bool) (size : BitVec 2) (_rsv : BitVec 5) (_offset : BitVec 24)
    (s : State) : Answer :=
  if we then writeAnswer (busError s)
  else readAnswer (illegalBytes size) (lowBytes (illegalBytes size) s.free) (busError s).nextDraw

end Sys2Proof.Machine
end

