-- ==== Sys2Proof/Machine/Dispatch.lean ====
section
/-! DEFINITION. The dispatch: one arm per row of spec/opcode_table.json. -/

namespace Sys2Proof.Machine

/-- The meaning of a command. -/
def exec (i : Instr) (s : State) : Host.Outcome State Fault Refusal :=
  match i with
  -- format B: protocol registers
  | .rdCtrl => Sys2Proof.Machine.execRdCtrl s
  | .wrCtrl wdata => Sys2Proof.Machine.execWrCtrl wdata s
  | .rdStatus => Sys2Proof.Machine.execRdStatus s
  | .wrStatus wdata => Sys2Proof.Machine.execWrStatus wdata s
  | .rdXferStatus => Sys2Proof.Machine.execRdXferStatus s
  | .wrXferStatus wdata => Sys2Proof.Machine.execWrXferStatus wdata s
  | .rdDataAmount => Sys2Proof.Machine.execRdDataAmount s
  | .wrDataAmount wdata => Sys2Proof.Machine.execWrDataAmount wdata s
  -- format B: user registers
  | .rdUser0 => Sys2Proof.Machine.execRdUser0 s
  | .rdUser1 => Sys2Proof.Machine.execRdUser1 s
  | .rdUser2 => Sys2Proof.Machine.execRdUser2 s
  | .rdUser3 => Sys2Proof.Machine.execRdUser3 s
  | .rdUser4 => Sys2Proof.Machine.execRdUser4 s
  | .rdUser5 => Sys2Proof.Machine.execRdUser5 s
  | .wrUser0 wdata => Sys2Proof.Machine.execWrUser0 wdata s
  | .wrUser1 wdata => Sys2Proof.Machine.execWrUser1 wdata s
  | .wrUser2 wdata => Sys2Proof.Machine.execWrUser2 wdata s
  | .wrUser3 wdata => Sys2Proof.Machine.execWrUser3 wdata s
  | .wrUser4 wdata => Sys2Proof.Machine.execWrUser4 wdata s
  | .wrUser5 wdata => Sys2Proof.Machine.execWrUser5 wdata s
  -- format B: buffer windows
  | .rdBufIn n j => Sys2Proof.Machine.execRdBufIn n j s
  | .wrBufIn n j wdata => Sys2Proof.Machine.execWrBufIn n j wdata s
  | .rdBufOut n j => Sys2Proof.Machine.execRdBufOut n j s
  | .wrBufOut n j wdata => Sys2Proof.Machine.execWrBufOut n j wdata s
  -- format B: every other word
  | .busIllegal we size rsv offset => Sys2Proof.Machine.execBusIllegal we size rsv offset s
  -- format C
  | .setUserReg index value => Sys2Proof.Machine.execSetUserReg index value s
  | .getUserReg index => Sys2Proof.Machine.execGetUserReg index s
  | .getFifoInEmpty => Sys2Proof.Machine.execGetFifoInEmpty s
  | .getFifoInFull => Sys2Proof.Machine.execGetFifoInFull s
  | .getFifoInCopying => Sys2Proof.Machine.execGetFifoInCopying s
  | .getFifoInCopiedAmount => Sys2Proof.Machine.execGetFifoInCopiedAmount s
  | .getFifoOutEmpty => Sys2Proof.Machine.execGetFifoOutEmpty s
  | .getFifoOutFull => Sys2Proof.Machine.execGetFifoOutFull s
  | .getFifoOutCopying => Sys2Proof.Machine.execGetFifoOutCopying s
  | .getFifoOutCopiedAmount => Sys2Proof.Machine.execGetFifoOutCopiedAmount s
  | .ctlUnknown op => Sys2Proof.Machine.execCtlUnknown op s
  -- format P
  | .devPopIn => Sys2Proof.Machine.execDevPopIn s
  | .devPushOut data => Sys2Proof.Machine.execDevPushOut data s

end Sys2Proof.Machine
end

