-- ==== Sys2Proof/Machine/Engines.lean ====
section
/-! DEFINITION. The steps of the two copy engines and of the echo coprocessor (41_copy_engines.md R110 to
R115, R119): operations without an encoding. -/

namespace Sys2Proof.Machine

/-! ### IN engine -/

/-- IN_COPY is enabled (R111). -/
def inCopyEnabled (s : State) : Bool :=
  s.inBusy && decide (s.inCopied.toNat < s.inTarget.toNat)
    && decide (s.fifoIn.length < s.cfg.fifoInDepth)

/-- IN_STOP_FULL is enabled: only under the `stop` policy (R112). -/
def inStopFullEnabled (s : State) : Bool :=
  s.inBusy && decide (s.inCopied.toNat < s.inTarget.toNat)
    && decide (s.fifoIn.length = s.cfg.fifoInDepth) && decide (s.cfg.inFullPolicy = .stop)

/-- IN_DONE is enabled (R113). -/
def inDoneEnabled (s : State) : Bool :=
  s.inBusy && decide (s.inCopied = s.inTarget)

/-- IN_COPY: word `in_copied` of the input window goes to the tail of the input FIFO (R111). -/
def inCopy (s : State) : State :=
  { pushIn (bufInValue 4 (4 * s.inCopied.toNat) s) s.nextDraw with inCopied := s.inCopied + 1 }

/-- IN_STOP_FULL: the engine ends short, the count stays (R112). -/
def inStopFull (s : State) : State := { s with inBusy := false }

/-- IN_DONE (R113). -/
def inDone (s : State) : State := { s with inBusy := false }

/-- The IN engine's turn: the one enabled step, or none (R110, log 9, log 28). -/
def inEngineTurn (s : State) : State :=
  if inCopyEnabled s then inCopy s
  else if inStopFullEnabled s then inStopFull s
  else if inDoneEnabled s then inDone s
  else s

/-! ### OUT engine -/

/-- OUT_COPY is enabled (R114). -/
def outCopyEnabled (s : State) : Bool :=
  s.outBusy && decide (0 < s.fifoOut.length) && decide (s.outCopied.toNat < s.cfg.bufOutWords)

/-- OUT_DONE is enabled (R115). -/
def outDoneEnabled (s : State) : Bool :=
  s.outBusy && (decide (s.fifoOut.length = 0) || decide (s.outCopied.toNat = s.cfg.bufOutWords))

/-- OUT_COPY: the word at the head of the output FIFO goes to word `out_copied` of the output window (R114). -/
def outCopy (s : State) : State :=
  { storeBufOut 4 (4 * s.outCopied.toNat) (s.fifoOut.headD 0) (dropOut s) with
    outCopied := s.outCopied + 1 }

/-- OUT_DONE (R115). -/
def outDone (s : State) : State := { s with outBusy := false }

/-- The OUT engine's turn: the one enabled step, or none (R110, log 9, log 28). -/
def outEngineTurn (s : State) : State :=
  if outCopyEnabled s then outCopy s
  else if outDoneEnabled s then outDone s
  else s

/-! ### The echo coprocessor -/

/-- The echo step is enabled (R119). -/
def echoEnabled (s : State) : Bool :=
  decide (0 < s.fifoIn.length) && decide (s.fifoOut.length < s.cfg.fifoOutDepth)

/-- The echo step: one word popped from `fifo_in` and pushed into `fifo_out`, as one step (R119). -/
def echo (s : State) : State := pushOut (s.fifoIn.headD 0) (dropIn s)

/-- The echo coprocessor's turn. -/
def echoTurn (s : State) : State :=
  if echoEnabled s then echo s else s

end Sys2Proof.Machine
end

