-- ==== Sys2Proof/Machine/Procedures.lean ====
section
/-! DEFINITION. The host procedures (44_host_procedures.md R165 to R174): which access a procedure makes
next, and where it goes with what the access returned. Each access is one step. -/

namespace Sys2Proof.Machine

/-- Where a procedure goes: on to an access, or to its end with a result or an error. -/
inductive ProcStep where
  | go (ph : Phase)
  | done (r : HostResp)
deriving DecidableEq, Repr

/-- The payload of a WRITE_TO_DEVICE. -/
def Proc.payload : Proc → List Byte
  | .writeToDevice payload _ => payload
  | _ => []

/-- The payload length rounded up to whole words, `padded_len` (R169). -/
def Proc.paddedLen (p : Proc) : Nat := roundUp4 p.payload.length

/-- The start of a procedure. WRITE_TO_DEVICE tests the size, then allocation, then the boundary copy,
all before any bus access (60_exceptions.md R201(d), 44_host_procedures.md R170). -/
def procStart (c : Cfg) (p : Proc) : ProcStep :=
  match p with
  | .trigIn => .go (.trigRead .toFifo)
  | .trigOut => .go (.trigRead .fromFifo)
  | .pollIn => .go (.poll .toFifo 0)
  | .pollOut => .go (.poll .fromFifo 0)
  | .writeToDevice payload ev =>
    if 4 * c.bufInWords < roundUp4 payload.length then .done (.error .invalidArgument)
    else if ev.allocFails then .done (.error .resourceExhausted)
    else if ev.copyFails then .done (.error .boundaryFault)
    else if roundUp4 payload.length = 0 then .go .setAmount
    else .go (.stage 0)
  | .readFromDevice _ ev =>
    if ev.allocFails then .done (.error .resourceExhausted)
    else .go (.trigRead .fromFifo)

/-- The bus word of a phase (R165 to R171). The window copy is by single bytes (log 25). -/
def procAccess (c : Cfg) (p : Proc) : Phase → BitVec 64
  | .stage j => wrWord .byte (c.dev.bufInOffset + j) ((stagedByte p.payload j).setWidth 32)
  | .setAmount => wrWord .word c.offAmount (amountOf c p.payload.length)
  | .trigRead _ => rdWord .word c.offCtrl
  | .trigClear a v => wrWord .word c.offCtrl (clearVal c a v)
  | .trigSet a v => wrWord .word c.offCtrl (setVal c a v)
  | .poll _ _ => rdWord .word c.offStatus
  | .readXfer _ => rdWord .word c.offXfer
  | .collect j _ _ => rdWord .byte (c.dev.bufOutOffset + j)

/-- The end of a READ_FROM_DEVICE: the bytes, or `BoundaryFault` if the copy to the caller fails, the
partial result discarded (R172(b)). -/
def collected (p : Proc) (bs : List Byte) : HostResp :=
  match p with
  | .readFromDevice _ ev => if ev.copyFails then .error .boundaryFault else .bytes bs
  | _ => .bytes bs

/-- After the set write of a trigger: TRIG ends, WRITE_TO_DEVICE and READ_FROM_DEVICE poll (R165, R169, R171). -/
def afterTrigger (p : Proc) (a : Action) : ProcStep :=
  match p with
  | .writeToDevice _ _ | .readFromDevice _ _ => .go (.poll a 0)
  | .trigIn | .trigOut | .pollIn | .pollOut => .done .done

/-- After the poll loop: POLL ends, WRITE_TO_DEVICE and READ_FROM_DEVICE read XFER_STATUS (R167, R169, R171). -/
def afterPoll (p : Proc) (a : Action) : ProcStep :=
  match p with
  | .writeToDevice _ _ | .readFromDevice _ _ => .go (.readXfer a)
  | .trigIn | .trigOut | .pollIn | .pollOut => .done .done

/-- `k` unsuccessful reads reach the bound `POLL_LIMIT` (R167). -/
def pollExpired (c : Cfg) (k : Nat) : Bool :=
  match c.pollLimit with
  | none => false
  | some limit => decide (limit ≤ k)

/-- The caller's `max_length` (R171). -/
def Proc.maxLength : Proc → Nat
  | .readFromDevice m _ => m
  | _ => 0

/-- After the XFER_STATUS read of a READ_FROM_DEVICE that found `avail` bytes (R171, R172(a)). -/
def afterAvailable (p : Proc) (avail : Nat) : ProcStep :=
  if p.maxLength < avail then .done (.error .invalidArgument)
  else if avail = 0 then .done (collected p [])
  else .go (.collect 0 avail [])

/-- Where a procedure goes from a phase whose access returned `v` (R165 to R172). -/
def procNext (c : Cfg) (p : Proc) (ph : Phase) (v : Word) : ProcStep :=
  match ph with
  | .stage j => if j + 1 < p.paddedLen then .go (.stage (j + 1)) else .go .setAmount
  | .setAmount => .go (.trigRead .toFifo)
  | .trigRead a => .go (.trigClear a v)
  | .trigClear a w => .go (.trigSet a w)
  | .trigSet a _ => afterTrigger p a
  | .poll a k =>
    if flagOf c (copyingSel a) v = 0 then afterPoll p a
    else if pollExpired c (k + 1) then .done (.error .timeout)
    else .go (.poll a (k + 1))
  | .readXfer .toFifo => .done (.count (4 * (countOf c .inCopied v).toNat))
  | .readXfer .fromFifo => afterAvailable p (4 * (countOf c .outCopied v).toNat)
  | .collect j avail acc =>
    if j + 1 < avail then .go (.collect (j + 1) avail (acc ++ [v.setWidth 8]))
    else .done (collected p (acc ++ [v.setWidth 8]))

/-- The value a bus read handed to the host; 0 where the last command was no read. -/
def readValue (s : State) : Word :=
  match s.hostResp with
  | .data _ v => v
  | _ => 0

/-- The host's place in its procedure, and the result at its end. -/
def advance (p : Proc) (st : ProcStep) (s : State) : State :=
  match st with
  | .go ph => { s with proc := some { proc := p, phase := ph } }
  | .done r => { s with proc := none, hostResp := r }

end Sys2Proof.Machine
end

