-- ==== Sys2Proof/Machine/Agents.lean ====
section
/-! DEFINITION. One turn of each agent (10_state.md R10): what the host, the engines and the coprocessor
do when the schedule gives them the next step. -/

namespace Sys2Proof.Machine

/-- One access of a procedure: the phase's bus command runs, and the procedure goes on with what it
returned (44_host_procedures.md; 20_memory.md R50: one access, one step). -/
def runPhase (p : Proc) (ph : Phase) (s : State) : Answer :=
  match exec (decodeBus s.cfg (procAccess s.cfg p ph)) s with
  | .next t => .next (advance p (procNext t.cfg p ph (readValue t)) t)
  | .fault r => .fault r
  | .refused r => .refused r

/-- The start of a procedure: an error ends it before any access, otherwise its first access is made in
this step (log 16). -/
def startProc (p : Proc) (s : State) : Answer :=
  match procStart s.cfg p with
  | .done r => .next (s.respond r)
  | .go ph => runPhase p ph s

/-- The host's turn: the next access of the procedure in progress, else the next command on its port, in
program order (20_memory.md R51); with neither, nothing happens (log 9). -/
def hostTurn (s : State) : Answer :=
  match s.proc with
  | some r => runPhase r.proc r.phase s
  | none =>
    match s.hostPort with
    | [] => .next s
    | .bus w :: rest => exec (decodeBus s.cfg w) { s with hostPort := rest }
    | .ctl w :: rest => exec (decodeCtl w) { s with hostPort := rest }
    | .proc p :: rest => startProc p { s with hostPort := rest }

/-- The coprocessor's turn: the next command on its port; a command that has no step stays there
(41_copy_engines.md R117, R118, log 10). -/
def devTurn (s : State) : Answer :=
  match s.devPort with
  | [] => .next s
  | w :: rest =>
    if devWaits (decodeDev w) s then exec (decodeDev w) s
    else exec (decodeDev w) { s with devPort := rest }

/-- One step of an agent (10_state.md R10). -/
def agentTurn (a : Agent) (s : State) : Answer :=
  match a with
  | .host => hostTurn s
  | .inEngine => .next (inEngineTurn s)
  | .outEngine => .next (outEngineTurn s)
  | .coprocessor => devTurn s
  | .echo => .next (echoTurn s)

/-- Place a command of the host first on its port, with no procedure in progress and the host's turn
first (log 20). -/
def placeHost (cmd : HostCmd) (s : State) : State :=
  { s with turns := .host :: s.turns, hostPort := cmd :: s.hostPort, proc := none }

/-- Place a command of the coprocessor first on its port, with its turn first (log 20). -/
def placeDev (w : BitVec 33) (s : State) : State :=
  { s with turns := .coprocessor :: s.turns, devPort := w :: s.devPort }

/-- Place a command word on the port of its format (30_encoding.md R68). -/
def place (cmd : Command) (s : State) : State :=
  match cmd with
  | .bus w => placeHost (.bus w) s
  | .ctl w => placeHost (.ctl w) s
  | .dev w => placeDev w s

end Sys2Proof.Machine
end

