-- ==== Sys2Proof/Machine/Step.lean ====
section
/-! DEFINITION. One step of the machine: the agent that the schedule names first takes its turn
(10_state.md R10, 20_memory.md R50, R51). -/

namespace Sys2Proof.Machine

/-- One step. A configuration that was never brought up has no state to step from (60_exceptions.md R191,
log 13); a schedule at its end names no agent (log 8). -/
def step (s : State) : Host.Outcome State Fault Refusal :=
  if cfgOk s.cfg = false then .refused .deviceNotReady
  else match s.turns with
    | [] => .fault .noTurn
    | a :: rest => agentTurn a { s with turns := rest }

/-- The state with a word of the opcode table placed so that the very next step runs it: on the port its
length names, that port's agent first in the schedule (log 20). -/
def State.withFetchWord (s : State) (nbits w : Nat) : State :=
  match commandOf nbits w with
  | .ok cmd => place cmd s
  | .error _ => s

end Sys2Proof.Machine
end

