-- ==== Sys2Proof/Safety.lean ====
section
/-! DEFINITION. The terms claims are stated in: what stays the same (frames), the invariant of
10_state.md R27, the end of a run (70_reset_and_hazards.md R219), executions and weak fairness
(20_memory.md R51), and a host that keeps the sequencing of 44_host_procedures.md R174. -/

namespace Sys2Proof.Machine

/-! ### Frames: one predicate per group of components of 10_state.md R11 -/

/-- The stored control bits are the same. -/
def SameCtrl (s t : State) : Prop := t.ctrlTo = s.ctrlTo ∧ t.ctrlFrom = s.ctrlFrom

/-- DATA_AMOUNT is the same. -/
def SameAmount (s t : State) : Prop := t.amount = s.amount

/-- Every user register, and which of them were written, is the same. -/
def SameUsers (s t : State) : Prop :=
  ∀ i : Fin 6, t.user[i] = s.user[i] ∧ t.userWritten[i] = s.userWritten[i]

/-- Both FIFOs are the same. -/
def SameFifos (s t : State) : Prop := t.fifoIn = s.fifoIn ∧ t.fifoOut = s.fifoOut

/-- The IN engine's state is the same. -/
def SameInEngine (s t : State) : Prop :=
  t.inBusy = s.inBusy ∧ t.inTarget = s.inTarget ∧ t.inCopied = s.inCopied

/-- The OUT engine's state is the same. -/
def SameOutEngine (s t : State) : Prop := t.outBusy = s.outBusy ∧ t.outCopied = s.outCopied

/-- Every byte of the input window reads as before. -/
def SameBufIn (s t : State) : Prop := ∀ a, Memory.get? t.bufIn a = Memory.get? s.bufIn a

/-- Every byte of the output window reads as before. -/
def SameBufOut (s t : State) : Prop := ∀ a, Memory.get? t.bufOut a = Memory.get? s.bufOut a

/-- The fault mark is the same. -/
def SameFault (s t : State) : Prop := t.fault = s.fault

/-- The configuration, the inputs (schedule and ports) and the host's place in a procedure are the same. -/
def SameInputs (s t : State) : Prop :=
  t.cfg = s.cfg ∧ t.turns = s.turns ∧ t.hostPort = s.hostPort ∧ t.devPort = s.devPort ∧ t.proc = s.proc

/-- All of 10_state.md R11 but the fault mark is the same. -/
def SameBlockButFault (s t : State) : Prop :=
  SameCtrl s t ∧ SameAmount s t ∧ SameUsers s t ∧ SameFifos s t ∧ SameInEngine s t ∧ SameOutEngine s t
    ∧ SameBufIn s t ∧ SameBufOut s t

/-- All of 10_state.md R11 is the same. -/
def SameBlock (s t : State) : Prop := SameBlockButFault s t ∧ SameFault s t

/-! ### Bytes of an access -/

/-- The byte of `v` that lies `k` bytes above the lowest address of an access of `n` bytes (20_memory.md
R43; the big-endian order is the model's reading, log 15). -/
def byteAt (o : ByteOrder) (n : Nat) (v : Word) (k : Nat) : Byte :=
  match o with
  | .little => v.extractLsb' (8 * k) 8
  | .big => v.extractLsb' (8 * (n - 1 - k)) 8

/-! ### The invariant (10_state.md R27) -/

/-- The invariants of 10_state.md R27, with the canonical form of the windows and the width of `amount`
(R17). It holds whatever the fault mark is. -/
structure State.Inv (s : State) : Prop where
  cfg_ok : cfgOk s.cfg = true
  amount_fits : s.amount.toNat < 2 ^ s.cfg.amountW
  fifoIn_fits : s.fifoIn.length ≤ s.cfg.fifoInDepth
  fifoOut_fits : s.fifoOut.length ≤ s.cfg.fifoOutDepth
  inCopied_le : s.inCopied.toNat ≤ s.inTarget.toNat
  inTarget_le : s.inTarget.toNat ≤ s.cfg.bufInWords
  outCopied_le : s.outCopied.toNat ≤ s.cfg.bufOutWords
  bufIn_wf : Memory.wf s.bufIn = true
  bufOut_wf : Memory.wf s.bufOut = true
  bufIn_below : Memory.below (4 * s.cfg.bufInWords) s.bufIn = true
  bufOut_below : Memory.below (4 * s.cfg.bufOutWords) s.bufOut = true

/-! ### Runs -/

/-- The end of a run: the host has no more commands, both engines are idle and no fault is marked
(70_reset_and_hazards.md R219, R208). -/
def RunEnded (s : State) : Prop :=
  s.hostPort = [] ∧ s.proc = none ∧ s.inBusy = false ∧ s.outBusy = false ∧ s.fault = none

/-- The IN engine has an enabled step (41_copy_engines.md R110). -/
def inEngineEnabled (s : State) : Bool :=
  inCopyEnabled s || inStopFullEnabled s || inDoneEnabled s

/-- The OUT engine has an enabled step (41_copy_engines.md R110). -/
def outEngineEnabled (s : State) : Bool :=
  outCopyEnabled s || outDoneEnabled s

/-- An infinite execution: agent `ag k` takes its turn in state `σ k` (20_memory.md R50). -/
def IsExecution (σ : Nat → State) (ag : Nat → Agent) : Prop :=
  ∀ k, agentTurn (ag k) (σ k) = .next (σ (k + 1))

/-- The turns of a list of agents, one after another. -/
def runTurns : List Agent → State → Answer
  | [], s => .next s
  | a :: as, s =>
    match agentTurn a s with
    | .next t => runTurns as t
    | .fault r => .fault r
    | .refused r => .refused r

/-- Weak fairness of the two engines: one that is enabled from some point on takes a step after it
(20_memory.md R51, log 21). -/
def WeaklyFair (σ : Nat → State) (ag : Nat → Agent) : Prop :=
  (∀ k, (∀ j, k ≤ j → inEngineEnabled (σ j) = true) → ∃ j, k ≤ j ∧ ag j = .inEngine)
    ∧ (∀ k, (∀ j, k ≤ j → outEngineEnabled (σ j) = true) → ∃ j, k ≤ j ∧ ag j = .outEngine)

/-! ### A host that keeps the sequencing (44_host_procedures.md R174, 70_reset_and_hazards.md R212) -/

/-- A command of a host that touches CTRL, DATA_AMOUNT and the windows only through whole procedures. -/
def HostCmd.disciplined : HostCmd → Bool
  | .bus _ => false
  | .ctl _ => true
  | .proc (.writeToDevice _ _) => true
  | .proc (.readFromDevice _ _) => true
  | .proc .pollIn => true
  | .proc .pollOut => true
  | .proc .trigIn => false
  | .proc .trigOut => false

/-- Both engines are idle. -/
def EnginesIdle (s : State) : Prop := s.inBusy = false ∧ s.outBusy = false

/-- The procedure carries out an action: a write the input transfer, a read the output transfer. -/
def Proc.carries (p : Proc) (a : Action) : Bool :=
  match p, a with
  | .writeToDevice _ _, .toFifo => true
  | .readFromDevice _ _, .fromFifo => true
  | _, _ => false

/-- The amount staged for an input transfer fits the window. -/
def AmountReady (s : State) (a : Action) : Prop :=
  a = .toFifo → s.amount.toNat ≤ s.cfg.bufInWords

/-- What holds of the block while a whole procedure makes the access of its phase. -/
def PhaseOk (s : State) (p : Proc) : Phase → Prop
  | .stage j =>
    p.carries .toFifo = true ∧ EnginesIdle s ∧ j < p.paddedLen ∧ p.paddedLen ≤ 4 * s.cfg.bufInWords
  | .setAmount => p.carries .toFifo = true ∧ EnginesIdle s ∧ p.paddedLen ≤ 4 * s.cfg.bufInWords
  | .trigRead a => p.carries a = true ∧ EnginesIdle s ∧ AmountReady s a
  | .trigClear a w => p.carries a = true ∧ EnginesIdle s ∧ AmountReady s a ∧ w = ctrlWord s
  | .trigSet .toFifo w =>
    p.carries .toFifo = true ∧ EnginesIdle s ∧ AmountReady s .toFifo
      ∧ s.ctrlTo = false ∧ s.ctrlFrom = w.getLsbD s.cfg.ctrlFromBit
  | .trigSet .fromFifo w =>
    p.carries .fromFifo = true ∧ EnginesIdle s
      ∧ s.ctrlFrom = false ∧ s.ctrlTo = w.getLsbD s.cfg.ctrlToBit
  | .poll .toFifo _ => (p.carries .toFifo = true ∨ p = .pollIn) ∧ s.outBusy = false
  | .poll .fromFifo _ => (p.carries .fromFifo = true ∨ p = .pollOut) ∧ s.inBusy = false
  | .readXfer a => p.carries a = true ∧ EnginesIdle s
  | .collect j avail _ =>
    p.carries .fromFifo = true ∧ EnginesIdle s ∧ j < avail ∧ avail ≤ 4 * s.cfg.bufOutWords

/-- A state of a run in which one host runs whole procedures one after another, with unbounded polling. -/
structure Disciplined (s : State) : Prop where
  inv : s.Inv
  no_fault : s.fault = none
  unbounded : s.cfg.pollLimit = none
  port : s.hostPort.all HostCmd.disciplined = true
  idle : s.proc = none → EnginesIdle s
  phase : ∀ r, s.proc = some r → PhaseOk s r.proc r.phase

end Sys2Proof.Machine
end

