-- ==== Sys2Proof/Certificates/Slice0/Obligations.lean ====
section
/-! DEFINITION. The statements for the provers. Every one is about all configurations that pass
`cfgOk`, unless it says otherwise; no statement rests on the value of a free value. -/

open Sys2Proof Sys2Proof.Machine

/-! ### Encoding and decoding -/

/-- A step runs the command its bytes decode to: the host's turn the first command of its port, the
coprocessor's turn the first command of its own, which leaves the port unless it has no step (30_encoding.md
R68; 41_copy_engines.md R117, R118; the port and schedule are the model's, log 8, log 10). -/
def Obligations.StepRunsDecodedCommand : Prop :=
  ∀ (s : State) (ts : List Agent), cfgOk s.cfg = true →
    (∀ w rest, s.turns = .host :: ts → s.proc = none → s.hostPort = .bus w :: rest →
      step s = exec (decode s.cfg (.bus w)) { s with turns := ts, hostPort := rest })
    ∧ (∀ w rest, s.turns = .host :: ts → s.proc = none → s.hostPort = .ctl w :: rest →
      step s = exec (decode s.cfg (.ctl w)) { s with turns := ts, hostPort := rest })
    ∧ (∀ w rest, s.turns = .coprocessor :: ts → s.devPort = w :: rest →
      (decode s.cfg (.dev w) = .devPopIn → s.fifoIn ≠ [] →
        step s = exec .devPopIn { s with turns := ts, devPort := rest })
      ∧ (∀ d, decode s.cfg (.dev w) = .devPushOut d → s.fifoOut.length < s.cfg.fifoOutDepth →
        step s = exec (.devPushOut d) { s with turns := ts, devPort := rest })
      ∧ (decode s.cfg (.dev w) = .devPopIn → s.fifoIn = [] →
        step s = .next { s with turns := ts, devResp := .waiting })
      ∧ (∀ d, decode s.cfg (.dev w) = .devPushOut d → s.cfg.fifoOutDepth ≤ s.fifoOut.length →
        step s = .next { s with turns := ts, devResp := .waiting }))

/-- A word placed for the next step is run by it, whatever was on the ports (log 20). -/
def Obligations.PlacedWordRunsNext : Prop :=
  ∀ (s : State) (w : Nat), cfgOk s.cfg = true →
    (∃ u, step (s.withFetchWord 64 w) = exec (decode s.cfg (.bus (BitVec.ofNat 64 w))) u ∧ SameBlock s u)
    ∧ (∃ u, step (s.withFetchWord 72 w) = exec (decode s.cfg (.ctl (BitVec.ofNat 72 w))) u ∧ SameBlock s u)
    ∧ (∃ u, step (s.withFetchWord 33 w) = exec (decode s.cfg (.dev (BitVec.ofNat 33 w))) u ∧ SameBlock s u)

/-- Decoding is right: words written out in the spec's rules and vectors (40_register_access.md,
42_status_control_mux.md, 41_copy_engines.md, 95_test_vectors.md), under TESTCFG. -/
def Obligations.SpecWordsDecode : Prop :=
  decode Cfg.test (.bus 0x4000000000000000#64) = .rdCtrl
  ∧ decode Cfg.test (.bus 0xC000000000000001#64) = .wrCtrl 1
  ∧ decode Cfg.test (.bus 0xC000001000000000#64) = .wrUser0 0
  ∧ decode Cfg.test (.bus 0xA00001020000BEEF#64) = .wrBufIn .half 2 0xBEEF
  ∧ decode Cfg.test (.bus 0x0000020300000000#64) = .rdBufOut .byte 3
  ∧ decode Cfg.test (.bus 0x400001FE00000000#64) = .busIllegal false 2 0 0x1FE
  ∧ decode Cfg.test (.ctl 0x0000000003DEADBEEF#72) = .setUserReg 3 0xDEADBEEF
  ∧ decode Cfg.test (.ctl 0xFF0000000300000001#72) = .ctlUnknown 0xFF
  ∧ decode Cfg.test (.dev 0x104030201#33) = .devPushOut 0x04030201

/-- Every word decodes to a command that exists (30_encoding.md R65, R66, R67). -/
def Obligations.DecodeGivesWellFormed : Prop :=
  ∀ (c : Cfg) (cmd : Command), cfgOk c = true → (decode c cmd).wf c = true

/-- Decode and encode agree, for every well-formed command, every operand at every value the encoding admits.
-/
def Obligations.DecodeOfEncode : Prop :=
  ∀ (c : Cfg) (i : Instr), cfgOk c = true → i.wf c = true → decode c (encode c i) = i

/-- The register rows of the bus format, both ways: the command is read from the top byte 0x40 or 0xC0 and the
offset, and from no other word (30_encoding.md R61, R65). -/
def Obligations.RegisterWordsDecodeExactly : Prop :=
  ∀ (c : Cfg) (w : BitVec 64) (v : Word), cfgOk c = true →
    let rd := fun off : Nat => w.extractLsb' 56 8 = 0x40#8 ∧ (w.extractLsb' 32 24).toNat = off
    let wr := fun off : Nat => w.extractLsb' 56 8 = 0xC0#8 ∧ (w.extractLsb' 32 24).toNat = off
      ∧ w.extractLsb' 0 32 = v
    (decodeBus c w = .rdCtrl ↔ rd c.offCtrl) ∧ (decodeBus c w = .wrCtrl v ↔ wr c.offCtrl)
    ∧ (decodeBus c w = .rdStatus ↔ rd c.offStatus) ∧ (decodeBus c w = .wrStatus v ↔ wr c.offStatus)
    ∧ (decodeBus c w = .rdXferStatus ↔ rd c.offXfer) ∧ (decodeBus c w = .wrXferStatus v ↔ wr c.offXfer)
    ∧ (decodeBus c w = .rdDataAmount ↔ rd c.offAmount) ∧ (decodeBus c w = .wrDataAmount v ↔ wr c.offAmount)
    ∧ (decodeBus c w = .rdUser0 ↔ rd c.offUser0) ∧ (decodeBus c w = .wrUser0 v ↔ wr c.offUser0)
    ∧ (decodeBus c w = .rdUser1 ↔ rd (c.offUser0 + 4)) ∧ (decodeBus c w = .wrUser1 v ↔ wr (c.offUser0 + 4))
    ∧ (decodeBus c w = .rdUser2 ↔ rd (c.offUser0 + 8)) ∧ (decodeBus c w = .wrUser2 v ↔ wr (c.offUser0 + 8))
    ∧ (decodeBus c w = .rdUser3 ↔ rd (c.offUser0 + 12)) ∧ (decodeBus c w = .wrUser3 v ↔ wr (c.offUser0 + 12))
    ∧ (decodeBus c w = .rdUser4 ↔ rd (c.offUser0 + 16)) ∧ (decodeBus c w = .wrUser4 v ↔ wr (c.offUser0 + 16))
    ∧ (decodeBus c w = .rdUser5 ↔ rd (c.offUser0 + 20)) ∧ (decodeBus c w = .wrUser5 v ↔ wr (c.offUser0 + 20))

/-- Misuse of the bus decodes to BUS_ILLEGAL, which marks `BusFault` and changes nothing else, a read
returning some `8n`-bit value: a narrow or misaligned register access, a window access misaligned for its size
or past the window's end, an offset outside the region or in no mapped range, a reserved size or rsv
(20_memory.md R41, R44, R45; 30_encoding.md R67). -/
def Obligations.BusMisuseIsIllegal : Prop :=
  ∀ (s : State) (we : Bool) (size : BitVec 2) (rsv : BitVec 5) (off : BitVec 24) (wdata : Word),
    let c := s.cfg
    cfgOk c = true →
    (rsv ≠ 0 ∨ size = 3
      ∨ (∃ n : Size, size = n.code ∧
          ((off.toNat < c.minRegSpace ∧ (n ≠ .word ∨ off.toNat % 4 ≠ 0))
          ∨ (c.dev.bufInOffset ≤ off.toNat ∧ off.toNat < c.dev.bufInOffset + 4 * c.bufInWords
              ∧ (off.toNat % n.bytes ≠ 0 ∨ c.dev.bufInOffset + 4 * c.bufInWords < off.toNat + n.bytes))
          ∨ (c.dev.bufOutOffset ≤ off.toNat ∧ off.toNat < c.dev.bufOutOffset + 4 * c.bufOutWords
              ∧ (off.toNat % n.bytes ≠ 0 ∨ c.dev.bufOutOffset + 4 * c.bufOutWords < off.toNat + n.bytes))
          ∨ c.dev.regionLength ≤ off.toNat
          ∨ (c.minRegSpace ≤ off.toNat
              ∧ ¬ (c.dev.bufInOffset ≤ off.toNat ∧ off.toNat < c.dev.bufInOffset + 4 * c.bufInWords)
              ∧ ¬ (c.dev.bufOutOffset ≤ off.toNat ∧ off.toNat < c.dev.bufOutOffset + 4 * c.bufOutWords))))) →
    decode c (.bus (busWord we size rsv off wdata)) = .busIllegal we size rsv off
    ∧ ∃ t, exec (.busIllegal we size rsv off) s = .next t ∧ t.fault = some (s.fault.getD .busFault)
      ∧ SameBlockButFault s t ∧ SameInputs s t
      ∧ (we = true → t.hostResp = .done)
      ∧ (we = false → ∀ n : Size, size = n.code →
          ∃ v, t.hostResp = .data n.bytes v ∧ v.toNat < 2 ^ (8 * n.bytes))

/-! ### Register accesses -/

/-- A read of a protocol or user register completes, returns 32 bits and changes no state of the block
(20_memory.md R48; the draw counter and the response are the model's, log 6, log 12). -/
def Obligations.RegisterReadsChangeNothing : Prop :=
  ∀ (s : State) (i : Instr),
    i ∈ [Instr.rdCtrl, .rdStatus, .rdXferStatus, .rdDataAmount, .rdUser0, .rdUser1, .rdUser2, .rdUser3,
      .rdUser4, .rdUser5] →
    ∃ t v, exec i s = .next t ∧ t.hostResp = .data 4 v ∧ SameBlock s t ∧ SameInputs s t
      ∧ t.devResp = s.devResp

/-- RD_CTRL: its word; it returns the stored bits at their positions, every other bit 0, and changes nothing
(40_register_access.md R81). -/
def Obligations.ReadCtrlReturnsStoredBits : Prop :=
  ∀ s : State,
    (cfgOk s.cfg = true → decodeBus s.cfg (rdWord .word s.cfg.offCtrl) = .rdCtrl)
    ∧ ∃ t v, exec .rdCtrl s = .next t ∧ t.hostResp = .data 4 v ∧ SameBlock s t ∧ SameInputs s t
      ∧ ∀ b, b < 32 → (v.getLsbD b = true ↔
          (b = s.cfg.ctrlToBit ∧ s.ctrlTo = true) ∨ (b = s.cfg.ctrlFromBit ∧ s.ctrlFrom = true))

/-- RD_STATUS: its word; it returns the six flags of the state at the moment of the read, every other bit 0,
and clears nothing (10_state.md R15, 40_register_access.md R84). -/
def Obligations.ReadStatusReturnsFlags : Prop :=
  ∀ s : State,
    (cfgOk s.cfg = true → decodeBus s.cfg (rdWord .word s.cfg.offStatus) = .rdStatus)
    ∧ ∃ t v, exec .rdStatus s = .next t ∧ t.hostResp = .data 4 v ∧ SameBlock s t ∧ SameInputs s t
      ∧ ∀ b, b < 32 → (v.getLsbD b = true ↔
          (b = s.cfg.stInEmptyBit ∧ s.fifoIn = [])
          ∨ (b = s.cfg.stInFullBit ∧ s.fifoIn.length = s.cfg.fifoInDepth)
          ∨ (b = s.cfg.stInCopyingBit ∧ s.inBusy = true)
          ∨ (b = s.cfg.stOutEmptyBit ∧ s.fifoOut = [])
          ∨ (b = s.cfg.stOutFullBit ∧ s.fifoOut.length = s.cfg.fifoOutDepth)
          ∨ (b = s.cfg.stOutCopyingBit ∧ s.outBusy = true))

/-- RD_XFER_STATUS: its word; it returns the two running counts at their positions and changes nothing
(40_register_access.md R86). -/
def Obligations.ReadXferStatusReturnsCounts : Prop :=
  ∀ s : State,
    (cfgOk s.cfg = true → decodeBus s.cfg (rdWord .word s.cfg.offXfer) = .rdXferStatus)
    ∧ ∃ t v, exec .rdXferStatus s = .next t ∧ t.hostResp = .data 4 v ∧ SameBlock s t ∧ SameInputs s t
      ∧ ∀ b, b < 32 → (v.getLsbD b = true ↔
          (s.cfg.xfInShift ≤ b ∧ s.inCopied.getLsbD (b - s.cfg.xfInShift) = true)
          ∨ (s.cfg.xfOutShift ≤ b ∧ s.outCopied.getLsbD (b - s.cfg.xfOutShift) = true))

/-- RD_USERi: its word; it returns the stored word of a register that was written, some word before the first
write, and changes nothing (40_register_access.md R88). -/
def Obligations.ReadUserReturnsStored : Prop :=
  ∀ (s : State) (k : Fin 6),
    let read := #v[Instr.rdUser0, .rdUser1, .rdUser2, .rdUser3, .rdUser4, .rdUser5][k]
    (cfgOk s.cfg = true → decodeBus s.cfg (rdWord .word (s.cfg.offUser0 + 4 * k.val)) = read)
    ∧ ∃ t v, exec read s = .next t ∧ t.hostResp = .data 4 v ∧ (s.userWritten[k] = true → v = s.user[k])
      ∧ SameBlock s t ∧ SameInputs s t

/-- WR_USERi: its word; it stores all 32 bits in its register, and no other state changes
(40_register_access.md R89). -/
def Obligations.WriteUserStoresWord : Prop :=
  ∀ (s : State) (k : Fin 6) (v : Word),
    let write := #v[Instr.wrUser0 v, .wrUser1 v, .wrUser2 v, .wrUser3 v, .wrUser4 v, .wrUser5 v][k]
    (cfgOk s.cfg = true → decodeBus s.cfg (wrWord .word (s.cfg.offUser0 + 4 * k.val) v) = write)
    ∧ ∃ t, exec write s = .next t
      ∧ t.user[k] = v ∧ t.userWritten[k] = true
      ∧ (∀ m : Fin 6, m ≠ k → t.user[m] = s.user[m] ∧ t.userWritten[m] = s.userWritten[m])
      ∧ SameCtrl s t ∧ SameAmount s t ∧ SameFifos s t ∧ SameInEngine s t ∧ SameOutEngine s t
      ∧ SameBufIn s t ∧ SameBufOut s t ∧ SameFault s t ∧ SameInputs s t ∧ t.hostResp = .done

/-- A user register written by WR_USERi or SET_USER_REG keeps its value through any turns of the other agents:
a later read, by bus or by GET_USER_REG, returns it (10_state.md R20). -/
def Obligations.UserKeepsValueUntilRead : Prop :=
  ∀ (s t u : State) (k : Fin 6) (v : Word) (as : List Agent), cfgOk s.cfg = true →
    (exec (.setUserReg (BitVec.ofNat 32 k.val) v) s = .next t
      ∨ exec #v[Instr.wrUser0 v, .wrUser1 v, .wrUser2 v, .wrUser3 v, .wrUser4 v, .wrUser5 v][k] s = .next t) →
    Agent.host ∉ as → runTurns as t = .next u →
    (∃ r, exec #v[Instr.rdUser0, .rdUser1, .rdUser2, .rdUser3, .rdUser4, .rdUser5][k] u = .next r
      ∧ r.hostResp = .data 4 v)
    ∧ ∃ r, exec (.getUserReg (BitVec.ofNat 32 k.val)) u = .next r ∧ r.hostResp = .value v

/-- WR_CTRL: its word; both bits are stored, each rising bit judged on its own, COPY_TO_FIFO first; the first
fault reason is kept; nothing else changes (40_register_access.md R82, R83; 60_exceptions.md R194, R196). -/
def Obligations.WriteCtrlTriggersOnEdges : Prop :=
  ∀ (s : State) (v : Word),
    let riseTo := s.ctrlTo = false ∧ v.getLsbD s.cfg.ctrlToBit = true
    let riseFrom := s.ctrlFrom = false ∧ v.getLsbD s.cfg.ctrlFromBit = true
    let startIn := riseTo ∧ s.inBusy = false ∧ s.amount.toNat ≤ s.cfg.bufInWords
    let startOut := riseFrom ∧ s.outBusy = false
    let retriggerIn := riseTo ∧ s.inBusy = true
    let overrun := riseTo ∧ s.inBusy = false ∧ s.cfg.bufInWords < s.amount.toNat
    let retriggerOut := riseFrom ∧ s.outBusy = true
    (cfgOk s.cfg = true → decodeBus s.cfg (wrWord .word s.cfg.offCtrl v) = .wrCtrl v)
    ∧ ∃ t, exec (.wrCtrl v) s = .next t
      ∧ t.ctrlTo = v.getLsbD s.cfg.ctrlToBit ∧ t.ctrlFrom = v.getLsbD s.cfg.ctrlFromBit
      ∧ (startIn → t.inBusy = true ∧ t.inTarget = s.amount ∧ t.inCopied = 0)
      ∧ (¬ startIn → SameInEngine s t)
      ∧ (startOut → t.outBusy = true ∧ t.outCopied = 0)
      ∧ (¬ startOut → SameOutEngine s t)
      ∧ (∀ r, s.fault = some r → t.fault = some r)
      ∧ (s.fault = none →
          (retriggerIn → t.fault = some .engineRetrigger)
          ∧ (overrun → t.fault = some .windowOverrun)
          ∧ (¬ retriggerIn → ¬ overrun → retriggerOut → t.fault = some .engineRetrigger)
          ∧ (¬ retriggerIn → ¬ overrun → ¬ retriggerOut → t.fault = none))
      ∧ SameAmount s t ∧ SameUsers s t ∧ SameFifos s t ∧ SameBufIn s t ∧ SameBufOut s t ∧ SameInputs s t
      ∧ t.hostResp = .done

/-- WR_STATUS and WR_XFER_STATUS: their words; they complete and change nothing (40_register_access.md R85,
R87). Ignoring the write is a choice, where 93_implementation_defined.md U17 allows a fault mark: log 27. -/
def Obligations.ReadOnlyWritesIgnored : Prop :=
  ∀ (s : State) (v : Word),
    (cfgOk s.cfg = true → decodeBus s.cfg (wrWord .word s.cfg.offStatus v) = .wrStatus v
      ∧ decodeBus s.cfg (wrWord .word s.cfg.offXfer v) = .wrXferStatus v)
    ∧ ∀ i ∈ [Instr.wrStatus v, .wrXferStatus v],
      ∃ t, exec i s = .next t ∧ t.hostResp = .done ∧ SameBlock s t ∧ SameInputs s t

/-- WR_DATA_AMOUNT: its word; it stores the low `AMOUNT_W` bits and changes nothing else, in particular not
the running transfer (40_register_access.md R94). -/
def Obligations.WriteAmountStoresLowBits : Prop :=
  ∀ (s : State) (v : Word), cfgOk s.cfg = true →
    decodeBus s.cfg (wrWord .word s.cfg.offAmount v) = .wrDataAmount v
    ∧ ∃ t, exec (.wrDataAmount v) s = .next t
      ∧ (∀ b, b < 16 → t.amount.getLsbD b = (decide (b < s.cfg.amountW) && v.getLsbD b))
      ∧ SameCtrl s t ∧ SameUsers s t ∧ SameFifos s t ∧ SameInEngine s t ∧ SameOutEngine s t
      ∧ SameBufIn s t ∧ SameBufOut s t ∧ SameFault s t ∧ SameInputs s t ∧ t.hostResp = .done

/-! ### Buffer windows -/

/-- WR_BUF_IN: its word; it stores the bytes of `wdata` at index `j`, the least significant at the lowest
address, and marks `WindowRace` exactly while the IN engine copies; nothing else changes
(40_register_access.md R91, 20_memory.md R43; for a big-endian configuration the bytes are in
`BigEndianMirrorsBytes`). -/
def Obligations.WriteBufInStoresBytes : Prop :=
  ∀ (s : State) (n : Size) (j : Nat) (v : Word),
    (cfgOk s.cfg = true → j % n.bytes = 0 → j + n.bytes ≤ 4 * s.cfg.bufInWords →
      decodeBus s.cfg (wrWord n (s.cfg.dev.bufInOffset + j) v) = .wrBufIn n j v)
    ∧ ∃ t, exec (.wrBufIn n j v) s = .next t
      ∧ (s.cfg.byteOrder = .little → ∀ k, k < n.bytes →
          Memory.get? t.bufIn (j + k) = some (v.extractLsb' (8 * k) 8))
      ∧ (∀ a, a < j ∨ j + n.bytes ≤ a → Memory.get? t.bufIn a = Memory.get? s.bufIn a)
      ∧ (s.inBusy = true → t.fault = some (s.fault.getD .windowRace)) ∧ (s.inBusy = false → SameFault s t)
      ∧ SameCtrl s t ∧ SameAmount s t ∧ SameUsers s t ∧ SameFifos s t ∧ SameInEngine s t ∧ SameOutEngine s t
      ∧ SameBufOut s t ∧ SameInputs s t ∧ t.hostResp = .done

/-- WR_BUF_OUT: its word, and the same with the output window and the OUT engine (40_register_access.md R93).
-/
def Obligations.WriteBufOutStoresBytes : Prop :=
  ∀ (s : State) (n : Size) (j : Nat) (v : Word),
    (cfgOk s.cfg = true → j % n.bytes = 0 → j + n.bytes ≤ 4 * s.cfg.bufOutWords →
      decodeBus s.cfg (wrWord n (s.cfg.dev.bufOutOffset + j) v) = .wrBufOut n j v)
    ∧ ∃ t, exec (.wrBufOut n j v) s = .next t
      ∧ (s.cfg.byteOrder = .little → ∀ k, k < n.bytes →
          Memory.get? t.bufOut (j + k) = some (v.extractLsb' (8 * k) 8))
      ∧ (∀ a, a < j ∨ j + n.bytes ≤ a → Memory.get? t.bufOut a = Memory.get? s.bufOut a)
      ∧ (s.outBusy = true → t.fault = some (s.fault.getD .windowRace)) ∧ (s.outBusy = false → SameFault s t)
      ∧ SameCtrl s t ∧ SameAmount s t ∧ SameUsers s t ∧ SameFifos s t ∧ SameInEngine s t ∧ SameOutEngine s t
      ∧ SameBufIn s t ∧ SameInputs s t ∧ t.hostResp = .done

/-- RD_BUF_IN and RD_BUF_OUT: their words; they return the written bytes, lowest address least significant in
the little-endian order, bits above the access 0, and mark `WindowRace` exactly while the window's engine
copies; nothing else changes (40_register_access.md R90, R92; an unwritten byte is a draw). The word's `wdata`
is ignored, whatever it is (30_encoding.md R61). -/
def Obligations.WindowReadsReturnBytes : Prop :=
  ∀ (s : State) (n : Size) (j : Nat) (wdata : Word),
    ((cfgOk s.cfg = true → j % n.bytes = 0 → j + n.bytes ≤ 4 * s.cfg.bufInWords →
      decodeBus s.cfg (busWord false n.code 0 (BitVec.ofNat 24 (s.cfg.dev.bufInOffset + j)) wdata)
        = .rdBufIn n j)
    ∧ ∃ t v, exec (.rdBufIn n j) s = .next t ∧ t.hostResp = .data n.bytes v
      ∧ (s.cfg.byteOrder = .little →
          ∀ k b, k < n.bytes → Memory.get? s.bufIn (j + k) = some b → v.extractLsb' (8 * k) 8 = b)
      ∧ v.toNat < 2 ^ (8 * n.bytes)
      ∧ (s.inBusy = true → t.fault = some (s.fault.getD .windowRace)) ∧ (s.inBusy = false → SameFault s t)
      ∧ SameBlockButFault s t ∧ SameInputs s t)
    ∧ ((cfgOk s.cfg = true → j % n.bytes = 0 → j + n.bytes ≤ 4 * s.cfg.bufOutWords →
      decodeBus s.cfg (busWord false n.code 0 (BitVec.ofNat 24 (s.cfg.dev.bufOutOffset + j)) wdata)
        = .rdBufOut n j)
    ∧ ∃ t v, exec (.rdBufOut n j) s = .next t ∧ t.hostResp = .data n.bytes v
      ∧ (s.cfg.byteOrder = .little →
          ∀ k b, k < n.bytes → Memory.get? s.bufOut (j + k) = some b → v.extractLsb' (8 * k) 8 = b)
      ∧ v.toNat < 2 ^ (8 * n.bytes)
      ∧ (s.outBusy = true → t.fault = some (s.fault.getD .windowRace)) ∧ (s.outBusy = false → SameFault s t)
      ∧ SameBlockButFault s t ∧ SameInputs s t)

/-- Under a big-endian configuration the most significant byte lies lowest, for reads and writes of both
windows: the model's reading, DEDUCED, log 15 (20_memory.md R43 allows `BYTE_ORDER` as a field of `Cfg`). -/
def Obligations.BigEndianMirrorsBytes : Prop :=
  ∀ (s : State) (n : Size) (j : Nat) (v : Word), s.cfg.byteOrder = .big →
    (∃ t, exec (.wrBufIn n j v) s = .next t ∧ ∀ k, k < n.bytes →
      Memory.get? t.bufIn (j + k) = some (v.extractLsb' (8 * (n.bytes - 1 - k)) 8))
    ∧ (∃ t, exec (.wrBufOut n j v) s = .next t ∧ ∀ k, k < n.bytes →
      Memory.get? t.bufOut (j + k) = some (v.extractLsb' (8 * (n.bytes - 1 - k)) 8))
    ∧ (∃ t x, exec (.rdBufIn n j) s = .next t ∧ t.hostResp = .data n.bytes x ∧ ∀ k b, k < n.bytes →
      Memory.get? s.bufIn (j + k) = some b → x.extractLsb' (8 * (n.bytes - 1 - k)) 8 = b)
    ∧ (∃ t x, exec (.rdBufOut n j) s = .next t ∧ t.hostResp = .data n.bytes x ∧ ∀ k b, k < n.bytes →
      Memory.get? s.bufOut (j + k) = some b → x.extractLsb' (8 * (n.bytes - 1 - k)) 8 = b)

/-- A window read returns what a write of the same bytes stored, in either byte order (20_memory.md R43). -/
def Obligations.WindowReadAfterWrite : Prop :=
  ∀ (s : State) (n : Size) (j : Nat) (v : Word),
    (∃ t r, exec (.wrBufIn n j v) s = .next t ∧ exec (.rdBufIn n j) t = .next r
      ∧ ∃ x, r.hostResp = .data n.bytes x ∧ x.toNat = v.toNat % 2 ^ (8 * n.bytes))
    ∧ (∃ t r, exec (.wrBufOut n j v) s = .next t ∧ exec (.rdBufOut n j) t = .next r
      ∧ ∃ x, r.hostResp = .data n.bytes x ∧ x.toNat = v.toNat % 2 ^ (8 * n.bytes))

/-- BUS_ILLEGAL marks `BusFault` and changes nothing else; a read returns some `8n`-bit value
(40_register_access.md R96, R97; for the reserved size code the width 4 is the model's, log 7). -/
def Obligations.IllegalAccessMarksBusFault : Prop :=
  ∀ (s : State) (we : Bool) (size : BitVec 2) (rsv : BitVec 5) (off : BitVec 24),
    ∃ t, exec (.busIllegal we size rsv off) s = .next t
      ∧ t.fault = some (s.fault.getD .busFault) ∧ SameBlockButFault s t ∧ SameInputs s t
      ∧ (we = true → t.hostResp = .done)
      ∧ (we = false → ∃ v, t.hostResp = .data (illegalBytes size) v ∧ v.toNat < 2 ^ (8 * illegalBytes size))
      ∧ (∀ n : Size, size = n.code → illegalBytes size = n.bytes)

/-! ### Control operations and the multiplexer -/

/-- SET_USER_REG: its word; with a valid index it stores the value in that register and returns 0, and nothing
else changes; with any other index it returns `AccessDenied` and nothing changes (42_status_control_mux.md
R136). -/
def Obligations.SetUserRegStores : Prop :=
  (∀ (index v : Word), decodeCtl (ctlWord 0x00 index v) = .setUserReg index v)
  ∧ (∀ (s : State) (index v : Word), index.toInt < 0 ∨ 5 < index.toInt →
    ∃ t, exec (.setUserReg index v) s = .next t ∧ t.hostResp = .error .accessDenied ∧ SameBlock s t
      ∧ SameInputs s t)
  ∧ ∀ (s : State) (k : Fin 6) (v : Word), cfgOk s.cfg = true →
    ∃ t, exec (.setUserReg (BitVec.ofNat 32 k.val) v) s = .next t ∧ t.hostResp = .value 0
      ∧ t.user[k] = v ∧ t.userWritten[k] = true
      ∧ (∀ m : Fin 6, m ≠ k → t.user[m] = s.user[m] ∧ t.userWritten[m] = s.userWritten[m])
      ∧ SameCtrl s t ∧ SameAmount s t ∧ SameFifos s t ∧ SameInEngine s t ∧ SameOutEngine s t
      ∧ SameBufIn s t ∧ SameBufOut s t ∧ SameFault s t ∧ SameInputs s t

/-- GET_USER_REG: its word, `value` ignored; with a valid index it returns the register's word if it was
written, some word otherwise; with any other index it returns `AccessDenied`; it changes nothing
(42_status_control_mux.md R137). -/
def Obligations.GetUserRegReads : Prop :=
  (∀ (index v : Word), decodeCtl (ctlWord 0x01 index v) = .getUserReg index)
  ∧ (∀ (s : State) (index : Word), index.toInt < 0 ∨ 5 < index.toInt →
    ∃ t, exec (.getUserReg index) s = .next t ∧ t.hostResp = .error .accessDenied ∧ SameBlock s t
      ∧ SameInputs s t)
  ∧ ∀ (s : State) (k : Fin 6), cfgOk s.cfg = true →
    ∃ t v, exec (.getUserReg (BitVec.ofNat 32 k.val)) s = .next t ∧ t.hostResp = .value v
      ∧ (s.userWritten[k] = true → v = s.user[k]) ∧ SameBlock s t ∧ SameInputs s t

/-- The six flag queries: their words, `index` and `value` ignored; each returns 1 or 0 for its flag and
changes nothing (42_status_control_mux.md R138 to R140, R142 to R144). -/
def Obligations.FlagQueriesReturnFlags : Prop :=
  (∀ index v : Word,
    decodeCtl (ctlWord 0x02 index v) = .getFifoInEmpty ∧ decodeCtl (ctlWord 0x03 index v) = .getFifoInFull
    ∧ decodeCtl (ctlWord 0x04 index v) = .getFifoInCopying ∧ decodeCtl (ctlWord 0x06 index v) = .getFifoOutEmpty
    ∧ decodeCtl (ctlWord 0x07 index v) = .getFifoOutFull
    ∧ decodeCtl (ctlWord 0x08 index v) = .getFifoOutCopying)
  ∧ ∀ s : State, cfgOk s.cfg = true →
    let answers := fun (i : Instr) (P : Prop) => ∃ t v, exec i s = .next t ∧ t.hostResp = .value v
      ∧ (P → v = 1) ∧ (¬ P → v = 0) ∧ SameBlock s t ∧ SameInputs s t
    answers .getFifoInEmpty (s.fifoIn = []) ∧ answers .getFifoInFull (s.fifoIn.length = s.cfg.fifoInDepth)
    ∧ answers .getFifoInCopying (s.inBusy = true) ∧ answers .getFifoOutEmpty (s.fifoOut = [])
    ∧ answers .getFifoOutFull (s.fifoOut.length = s.cfg.fifoOutDepth)
    ∧ answers .getFifoOutCopying (s.outBusy = true)

/-- The two amount queries: their words; each returns its count in words and changes nothing; the fields do
not spill into each other (42_status_control_mux.md R141, R145; 10_state.md R27 bounds the counts). -/
def Obligations.AmountQueriesReturnCounts : Prop :=
  (∀ index v : Word, decodeCtl (ctlWord 0x05 index v) = .getFifoInCopiedAmount
    ∧ decodeCtl (ctlWord 0x09 index v) = .getFifoOutCopiedAmount)
  ∧ ∀ s : State, s.Inv →
    (∃ t, exec .getFifoInCopiedAmount s = .next t ∧ t.hostResp = .value (s.inCopied.setWidth 32)
      ∧ SameBlock s t ∧ SameInputs s t)
    ∧ (∃ t, exec .getFifoOutCopiedAmount s = .next t ∧ t.hostResp = .value (s.outCopied.setWidth 32)
      ∧ SameBlock s t ∧ SameInputs s t)

/-- An unknown operation returns `InvalidArgument` and changes nothing, whatever its index
(42_status_control_mux.md R146). -/
def Obligations.UnknownControlIsInvalidArgument : Prop :=
  ∀ (s : State) (w : BitVec 72), 0x0A ≤ (w.extractLsb' 64 8).toNat →
    decodeCtl w = .ctlUnknown (w.extractLsb' 64 8)
    ∧ ∃ t, exec (decodeCtl w) s = .next t ∧ t.hostResp = .error .invalidArgument
      ∧ SameBlock s t ∧ SameInputs s t

/-- Each flag decode depends on its own bit only, for any raw value (42_status_control_mux.md R132). -/
def Obligations.FlagDecodeReadsOneBit : Prop :=
  ∀ (c : Cfg) (f : FlagSel) (raw : Word),
    (flagOf c f raw = 1 ↔ raw.getLsbD (flagBit c f) = true) ∧ (flagOf c f raw = 0 ↔ raw.getLsbD (flagBit c f) = false)

/-! ### Coprocessor port -/

/-- DEV_POP_IN: its word; it hands over the word at the head of the input FIFO and removes it; nothing else
changes (41_copy_engines.md R117). On an empty FIFO it has no step: nothing of the block changes (log 10). -/
def Obligations.PopTakesHead : Prop :=
  (∀ d : Word, decodeDev (devWord false d) = .devPopIn)
  ∧ ∀ s : State,
    (∀ w rest, s.fifoIn = w :: rest →
      ∃ t, exec .devPopIn s = .next t ∧ t.devResp = .popped w ∧ t.fifoIn = rest ∧ t.fifoOut = s.fifoOut
        ∧ SameCtrl s t ∧ SameAmount s t ∧ SameUsers s t ∧ SameInEngine s t ∧ SameOutEngine s t
        ∧ SameBufIn s t ∧ SameBufOut s t ∧ SameFault s t ∧ SameInputs s t ∧ t.hostResp = s.hostResp)
    ∧ (s.fifoIn = [] → ∃ t, exec .devPopIn s = .next t ∧ t.devResp = .waiting ∧ SameBlock s t ∧ SameInputs s t)

/-- DEV_PUSH_OUT: its word; it appends the word at the tail of the output FIFO while it is not full; nothing
else changes (41_copy_engines.md R118). On a full FIFO it has no step (log 10). -/
def Obligations.PushAppendsAtTail : Prop :=
  ∀ (s : State) (d : Word), decodeDev (devWord true d) = .devPushOut d ∧
    (s.fifoOut.length < s.cfg.fifoOutDepth →
      ∃ t, exec (.devPushOut d) s = .next t ∧ t.devResp = .pushed ∧ t.fifoOut = s.fifoOut ++ [d]
        ∧ t.fifoIn = s.fifoIn
        ∧ SameCtrl s t ∧ SameAmount s t ∧ SameUsers s t ∧ SameInEngine s t ∧ SameOutEngine s t
        ∧ SameBufIn s t ∧ SameBufOut s t ∧ SameFault s t ∧ SameInputs s t ∧ t.hostResp = s.hostResp)
    ∧ (s.cfg.fifoOutDepth ≤ s.fifoOut.length →
      ∃ t, exec (.devPushOut d) s = .next t ∧ t.devResp = .waiting ∧ SameBlock s t ∧ SameInputs s t)

/-! ### Copy engines -/

/-- IN_COPY: the word pushed has the bytes of window word `in_copied`, the count goes up by one, nothing else
changes (41_copy_engines.md R111; an unwritten byte is a draw). -/
def Obligations.InCopyPushesWindowWord : Prop :=
  ∀ s : State, s.Inv → s.inBusy = true → s.inCopied.toNat < s.inTarget.toNat →
    s.fifoIn.length < s.cfg.fifoInDepth →
    ∃ t w, agentTurn .inEngine s = .next t ∧ t.fifoIn = s.fifoIn ++ [w]
      ∧ (s.cfg.byteOrder = .little → ∀ k b, k < 4 →
          Memory.get? s.bufIn (4 * s.inCopied.toNat + k) = some b → w.extractLsb' (8 * k) 8 = b)
      ∧ t.inCopied.toNat = s.inCopied.toNat + 1 ∧ t.inBusy = true ∧ t.inTarget = s.inTarget
      ∧ t.fifoOut = s.fifoOut ∧ SameCtrl s t ∧ SameAmount s t ∧ SameUsers s t ∧ SameOutEngine s t
      ∧ SameBufIn s t ∧ SameBufOut s t ∧ SameFault s t ∧ SameInputs s t

/-- IN_STOP_FULL and IN_DONE only clear the busy bit; under the `stall` policy a full FIFO leaves the busy
engine without a step (41_copy_engines.md R112, R113). That a turn given to the stalled engine changes nothing is
the model's choice, log 9. -/
def Obligations.InEngineStops : Prop :=
  ∀ s : State, s.inBusy = true →
    (s.inCopied = s.inTarget ∨ (s.inCopied.toNat < s.inTarget.toNat ∧ s.fifoIn.length = s.cfg.fifoInDepth
        ∧ s.cfg.inFullPolicy = .stop) →
      agentTurn .inEngine s = .next { s with inBusy := false })
    ∧ (s.inCopied.toNat < s.inTarget.toNat → s.fifoIn.length = s.cfg.fifoInDepth → s.cfg.inFullPolicy = .stall →
      inEngineEnabled s = false ∧ agentTurn .inEngine s = .next s)

/-- A busy engine has exactly one step enabled, but for the IN engine stalled on a full FIFO
(41_copy_engines.md R110). -/
def Obligations.BusyEngineHasOneStep : Prop :=
  ∀ s : State, s.Inv →
    (s.inBusy = true → ¬ (s.cfg.inFullPolicy = .stall ∧ s.inCopied.toNat < s.inTarget.toNat
        ∧ s.fifoIn.length = s.cfg.fifoInDepth) →
      [inCopyEnabled s, inStopFullEnabled s, inDoneEnabled s].count true = 1)
    ∧ (s.outBusy = true → [outCopyEnabled s, outDoneEnabled s].count true = 1)
    ∧ (s.inBusy = false → inEngineEnabled s = false) ∧ (s.outBusy = false → outEngineEnabled s = false)

/-- OUT_COPY stores the head of the output FIFO at window word `out_copied` and removes it, the count goes up
by one, nothing else changes; OUT_DONE only clears the busy bit (41_copy_engines.md R114, R115). -/
def Obligations.OutEngineTurn : Prop :=
  ∀ s : State, s.Inv → s.outBusy = true →
    (∀ w rest, s.fifoOut = w :: rest → s.outCopied.toNat < s.cfg.bufOutWords →
      ∃ t, agentTurn .outEngine s = .next t ∧ t.fifoOut = rest
        ∧ (s.cfg.byteOrder = .little → ∀ k, k < 4 →
            Memory.get? t.bufOut (4 * s.outCopied.toNat + k) = some (w.extractLsb' (8 * k) 8))
        ∧ (∀ a, a < 4 * s.outCopied.toNat ∨ 4 * s.outCopied.toNat + 4 ≤ a →
            Memory.get? t.bufOut a = Memory.get? s.bufOut a)
        ∧ t.outCopied.toNat = s.outCopied.toNat + 1 ∧ t.outBusy = true ∧ t.fifoIn = s.fifoIn
        ∧ SameCtrl s t ∧ SameAmount s t ∧ SameUsers s t ∧ SameInEngine s t ∧ SameBufIn s t ∧ SameFault s t
        ∧ SameInputs s t)
    ∧ (s.fifoOut = [] ∨ s.outCopied.toNat = s.cfg.bufOutWords →
      agentTurn .outEngine s = .next { s with outBusy := false })

/-- The echo step moves one word from the input to the output FIFO, as one step, and only when it can
(41_copy_engines.md R119). That the echo coprocessor is an agent of its own is the model's choice, log 26, and so
is that its turn changes nothing while the step is not enabled, log 9. -/
def Obligations.EchoMovesOneWord : Prop :=
  ∀ s : State,
    (∀ w rest, s.fifoIn = w :: rest → s.fifoOut.length < s.cfg.fifoOutDepth →
      agentTurn .echo s = .next { s with fifoIn := rest, fifoOut := s.fifoOut ++ [w] })
    ∧ (s.fifoIn = [] ∨ s.cfg.fifoOutDepth ≤ s.fifoOut.length → agentTurn .echo s = .next s)

/-- A whole input transfer: left alone with room in the FIFO, the IN engine takes `in_target - in_copied + 1`
turns, appends exactly the remaining window words in ascending order, and stops with the full count
(41_copy_engines.md R111, R113, R116; in either byte order, the big-endian one being log 15). -/
def Obligations.InTransferCopiesWholeWindow : Prop :=
  ∀ (s : State) (words : List Word), s.Inv → s.inBusy = true →
    words.length = s.inTarget.toNat - s.inCopied.toNat →
    s.fifoIn.length + words.length ≤ s.cfg.fifoInDepth →
    (∀ i w, words[i]? = some w → ∀ k, k < 4 →
      Memory.get? s.bufIn (4 * (s.inCopied.toNat + i) + k) = some (byteAt s.cfg.byteOrder 4 w k)) →
    ∃ t, runTurns (List.replicate (words.length + 1) .inEngine) s = .next t
      ∧ t.fifoIn = s.fifoIn ++ words ∧ t.inBusy = false ∧ t.inCopied = s.inTarget ∧ t.inTarget = s.inTarget
      ∧ t.fifoOut = s.fifoOut ∧ SameCtrl s t ∧ SameAmount s t ∧ SameUsers s t ∧ SameOutEngine s t
      ∧ SameBufIn s t ∧ SameBufOut s t ∧ SameFault s t ∧ SameInputs s t

/-- A whole output transfer: left alone with room in the window, the OUT engine empties the FIFO into the
window in FIFO order and stops with the count (41_copy_engines.md R114, R115, R116; in either byte order, the
big-endian one being log 15). -/
def Obligations.OutTransferDrainsFifo : Prop :=
  ∀ s : State, s.Inv → s.outBusy = true →
    s.outCopied.toNat + s.fifoOut.length ≤ s.cfg.bufOutWords →
    ∃ t, runTurns (List.replicate (s.fifoOut.length + 1) .outEngine) s = .next t
      ∧ t.fifoOut = [] ∧ t.outBusy = false ∧ t.outCopied.toNat = s.outCopied.toNat + s.fifoOut.length
      ∧ (∀ i w, s.fifoOut[i]? = some w → ∀ k, k < 4 →
          Memory.get? t.bufOut (4 * (s.outCopied.toNat + i) + k) = some (byteAt s.cfg.byteOrder 4 w k))
      ∧ (∀ a, a < 4 * s.outCopied.toNat ∨ 4 * (s.outCopied.toNat + s.fifoOut.length) ≤ a →
          Memory.get? t.bufOut a = Memory.get? s.bufOut a)
      ∧ t.fifoIn = s.fifoIn ∧ SameCtrl s t ∧ SameAmount s t ∧ SameUsers s t ∧ SameInEngine s t
      ∧ SameBufIn s t ∧ SameFault s t ∧ SameInputs s t

/-- Termination: in every weakly fair execution a busy OUT engine stops, and so does a busy IN engine under
the `stop` policy, whatever the coprocessor and the host do (41_copy_engines.md R116, R110; weak fairness is the
premise `WeaklyFair`, a form the model chose, log 21). -/
def Obligations.FairEnginesStop : Prop :=
  ∀ (σ : Nat → State) (ag : Nat → Agent), IsExecution σ ag → WeaklyFair σ ag → (σ 0).Inv →
    ((σ 0).cfg.inFullPolicy = .stop → ∃ k, (σ k).inBusy = false) ∧ ∃ k, (σ k).outBusy = false

/-- An echoed word: bytes copied in, echoed and copied out come back as they were, in either byte order
(20_memory.md R43, 41_copy_engines.md R119). -/
def Obligations.EchoReturnsTheBytes : Prop :=
  ∀ s : State, s.Inv → s.inBusy = true → s.inCopied.toNat < s.inTarget.toNat → s.fifoIn = [] → s.fifoOut = [] →
    s.outBusy = true → s.outCopied.toNat < s.cfg.bufOutWords →
    ∃ t, runTurns [.inEngine, .echo, .outEngine] s = .next t
      ∧ ∀ k b, k < 4 → Memory.get? s.bufIn (4 * s.inCopied.toNat + k) = some b →
          Memory.get? t.bufOut (4 * s.outCopied.toNat + k) = some b

/-! ### Host procedures -/

/-- TRIG.IN and TRIG.OUT, with the engine idle: three accesses, after which the engine has started, the stored
bit of the action is 1, the other stored bit is as before, and no fault is marked (44_host_procedures.md R165,
R166; 42_status_control_mux.md R131). -/
def Obligations.TriggerProceduresStartEngine : Prop :=
  ∀ (s : State) (rest : List HostCmd), cfgOk s.cfg = true → s.proc = none → s.fault = none →
    (s.hostPort = .proc .trigIn :: rest → s.inBusy = false → s.amount.toNat ≤ s.cfg.bufInWords →
      ∃ t, runTurns [.host, .host, .host] s = .next t ∧ t.inBusy = true ∧ t.inTarget = s.amount ∧ t.inCopied = 0
        ∧ t.ctrlTo = true ∧ t.ctrlFrom = s.ctrlFrom ∧ SameOutEngine s t ∧ t.fault = none ∧ t.proc = none
        ∧ t.hostPort = rest)
    ∧ (s.hostPort = .proc .trigOut :: rest → s.outBusy = false →
      ∃ t, runTurns [.host, .host, .host] s = .next t ∧ t.outBusy = true ∧ t.outCopied = 0
        ∧ t.ctrlFrom = true ∧ t.ctrlTo = s.ctrlTo ∧ SameInEngine s t ∧ t.fault = none ∧ t.proc = none
        ∧ t.hostPort = rest)

/-- WRITE_TO_DEVICE's refusals come before any access, the size first, then allocation, then the boundary copy
(44_host_procedures.md R170, 60_exceptions.md R201). -/
def Obligations.WriteRefusalsTouchNothing : Prop :=
  ∀ (s : State) (ts : List Agent) (rest : List HostCmd) (payload : List Byte) (ev : HostEvents),
    cfgOk s.cfg = true → s.proc = none → s.turns = .host :: ts →
    s.hostPort = .proc (.writeToDevice payload ev) :: rest →
    let tooLong := 4 * s.cfg.bufInWords < payload.length
    tooLong ∨ ev.allocFails = true ∨ ev.copyFails = true →
    ∃ t, step s = .next t ∧ SameBlock s t ∧ t.proc = none ∧ t.hostPort = rest
      ∧ (tooLong → t.hostResp = .error .invalidArgument)
      ∧ (¬ tooLong → ev.allocFails = true → t.hostResp = .error .resourceExhausted)
      ∧ (¬ tooLong → ev.allocFails = false → t.hostResp = .error .boundaryFault)

/-- Staging writes payload byte `j` at byte `j` of the input window, and zero padding after the payload
(44_host_procedures.md R169 step 2; that every host copies by bytes is the model's choice, log 25). -/
def Obligations.StagingWritesPaddedPayload : Prop :=
  ∀ (s : State) (ts : List Agent) (payload : List Byte) (ev : HostEvents) (j : Nat),
    cfgOk s.cfg = true → s.turns = .host :: ts →
    s.proc = some { proc := .writeToDevice payload ev, phase := .stage j } →
    j < roundUp4 payload.length → roundUp4 payload.length ≤ 4 * s.cfg.bufInWords →
    ∃ t, step s = .next t
      ∧ (∀ h : j < payload.length, Memory.get? t.bufIn j = some payload[j])
      ∧ (payload.length ≤ j → Memory.get? t.bufIn j = some 0)
      ∧ (∀ a, a ≠ j → Memory.get? t.bufIn a = Memory.get? s.bufIn a)
      ∧ t.proc = some ⟨.writeToDevice payload ev,
          if j + 1 < roundUp4 payload.length then .stage (j + 1) else .setAmount⟩

/-- The poll loop is never left while the flag is 1, but by `Timeout` under `POLL_LIMIT`
(44_host_procedures.md R167, R168; 70_reset_and_hazards.md R214). -/
def Obligations.PollWaitsForFlag : Prop :=
  ∀ (s : State) (ts : List Agent) (p : Proc) (a : Action) (k : Nat),
    cfgOk s.cfg = true → s.turns = .host :: ts → s.proc = some { proc := p, phase := .poll a k } →
    (a = .toFifo → s.inBusy = true) → (a = .fromFifo → s.outBusy = true) →
    ∃ t, step s = .next t ∧ SameBlock s t
      ∧ (s.cfg.pollLimit = none → t.proc = some { proc := p, phase := .poll a (k + 1) })
      ∧ (∀ l, s.cfg.pollLimit = some l →
          (k + 1 < l → t.proc = some { proc := p, phase := .poll a (k + 1) })
          ∧ (l ≤ k + 1 → t.proc = none ∧ t.hostResp = .error .timeout))

/-- The results of the two procedures. At the XFER_STATUS read, WRITE_TO_DEVICE returns 4 times the confirmed
count; READ_FROM_DEVICE returns `InvalidArgument` if more bytes are available than asked for, the empty string
for none, or `BoundaryFault` if its copy to the caller fails, and goes on to collect them otherwise. Collecting
reads byte `j` of the output window (an unwritten byte is a draw), and the last byte ends the procedure with the
bytes, or with `BoundaryFault` and the partial result discarded (44_host_procedures.md R169, R171, R172; one byte
a step: log 16, log 25; whether the copy fails is a flag of the command: log 17). -/
def Obligations.ProcedureResultsAreConfirmedCounts : Prop :=
  ∀ (s : State) (ts : List Agent), s.Inv → s.turns = .host :: ts →
    (∀ payload ev, s.proc = some { proc := .writeToDevice payload ev, phase := .readXfer .toFifo } →
      ∃ t, step s = .next t ∧ t.hostResp = .count (4 * s.inCopied.toNat) ∧ t.proc = none ∧ SameBlock s t)
    ∧ (∀ max ev, s.proc = some { proc := .readFromDevice max ev, phase := .readXfer .fromFifo } →
      ∃ t, step s = .next t ∧ SameBlock s t
        ∧ (max < 4 * s.outCopied.toNat → t.hostResp = .error .invalidArgument ∧ t.proc = none)
        ∧ (s.outCopied.toNat = 0 → ev.copyFails = false → t.hostResp = .bytes [] ∧ t.proc = none)
        ∧ (s.outCopied.toNat = 0 → ev.copyFails = true → t.hostResp = .error .boundaryFault ∧ t.proc = none)
        ∧ (0 < s.outCopied.toNat → 4 * s.outCopied.toNat ≤ max →
            t.proc = some { proc := .readFromDevice max ev, phase := .collect 0 (4 * s.outCopied.toNat) [] }))
    ∧ (∀ max ev j avail acc, s.proc = some { proc := .readFromDevice max ev, phase := .collect j avail acc } →
      j < avail → avail ≤ 4 * s.cfg.bufOutWords →
      ∃ t b, step s = .next t ∧ SameBlockButFault s t
        ∧ (∀ x, Memory.get? s.bufOut j = some x → b = x)
        ∧ (s.outBusy = true → t.fault = some (s.fault.getD .windowRace)) ∧ (s.outBusy = false → SameFault s t)
        ∧ (j + 1 < avail →
            t.proc = some { proc := .readFromDevice max ev, phase := .collect (j + 1) avail (acc ++ [b]) })
        ∧ (avail ≤ j + 1 → t.proc = none
            ∧ (ev.copyFails = false → t.hostResp = .bytes (acc ++ [b]))
            ∧ (ev.copyFails = true → t.hostResp = .error .boundaryFault)))

/-- One host that runs whole procedures one after another never marks a fault, for every interleaving with the
engines and the coprocessor (44_host_procedures.md R174, 70_reset_and_hazards.md R212). -/
def Obligations.DisciplinedHostNeverFaults : Prop :=
  ∀ s t : State, Disciplined s → step s = .next t → Disciplined t

/-! ### Whole-machine rules -/

/-- After reset the engines are idle, the FIFOs empty, STATUS shows the two EMPTY flags alone, XFER_STATUS and
CTRL read 0, no user register or window byte has been written, and no fault is marked (10_state.md R31, whose
values are the spec's own choices: log 23). -/
def Obligations.ResetReadsIdleAndEmpty : Prop :=
  ∀ c : Cfg, cfgOk c = true →
    let s := State.resetWith c
    s.ctrlTo = false ∧ s.ctrlFrom = false ∧ s.amount = 0 ∧ s.inBusy = false ∧ s.outBusy = false
    ∧ s.inTarget = 0 ∧ s.inCopied = 0 ∧ s.outCopied = 0 ∧ s.fifoIn = [] ∧ s.fifoOut = [] ∧ s.fault = none
    ∧ (∀ k : Fin 6, s.userWritten[k] = false)
    ∧ (∀ a, Memory.get? s.bufIn a = none ∧ Memory.get? s.bufOut a = none)
    ∧ (∃ t v, exec .rdStatus s = .next t ∧ t.hostResp = .data 4 v
        ∧ ∀ b, b < 32 → (v.getLsbD b = true ↔ b = c.stInEmptyBit ∨ b = c.stOutEmptyBit))
    ∧ (∃ t, exec .rdXferStatus s = .next t ∧ t.hostResp = .data 4 0)
    ∧ (∃ t, exec .rdCtrl s = .next t ∧ t.hostResp = .data 4 0)

/-- The invariant holds after reset, under every configuration that was brought up. -/
def Obligations.ResetMeetsInvariant : Prop :=
  ∀ c : Cfg, cfgOk c = true → (State.resetWith c).Inv

/-- The invariant of 10_state.md R27 is kept by every step of every agent. -/
def Obligations.StepKeepsInvariant : Prop :=
  ∀ s t : State, s.Inv → step s = .next t → t.Inv

/-- IN_EMPTY and IN_FULL are never both 1, likewise OUT_EMPTY and OUT_FULL, and the counts a read shows never
exceed the windows (10_state.md R27). -/
def Obligations.FlagsAndCountsConsistent : Prop :=
  ∀ s : State, s.Inv →
    ¬ (inEmpty s = true ∧ inFull s = true) ∧ ¬ (outEmpty s = true ∧ outFull s = true)
    ∧ (countOf s.cfg .inCopied (xferWord s)).toNat ≤ s.cfg.bufInWords
    ∧ (countOf s.cfg .outCopied (xferWord s)).toNat ≤ s.cfg.bufOutWords

/-- The configuration is never written, and the fault mark, once set, keeps its reason (10_state.md R11, R30).
-/
def Obligations.ConfigFixedAndFaultSticky : Prop :=
  ∀ s t : State, step s = .next t → t.cfg = s.cfg ∧ ∀ r, s.fault = some r → t.fault = some r

/-- An engine starts only on a 0 to 1 transition of its stored bit, with a fresh count (10_state.md R12, R13,
R28). -/
def Obligations.EnginesStartOnlyOnEdges : Prop :=
  ∀ s t : State, step s = .next t →
    (s.inBusy = false → t.inBusy = true →
      s.ctrlTo = false ∧ t.ctrlTo = true ∧ t.inTarget = s.amount ∧ t.inCopied = 0
        ∧ s.amount.toNat ≤ s.cfg.bufInWords ∧ s.turns.head? = some .host)
    ∧ (s.outBusy = false → t.outBusy = true →
      s.ctrlFrom = false ∧ t.ctrlFrom = true ∧ t.outCopied = 0 ∧ s.turns.head? = some .host)

/-- There is no way to cancel a transfer: a busy engine is stopped by its own step only, and while it runs no
other agent changes its count or target (70_reset_and_hazards.md R214, 40_register_access.md R82). -/
def Obligations.OnlyTheEngineStopsItself : Prop :=
  ∀ s t : State, step s = .next t →
    (s.inBusy = true → s.turns.head? ≠ some .inEngine → SameInEngine s t)
    ∧ (s.outBusy = true → s.turns.head? ≠ some .outEngine → SameOutEngine s t)

/-- Which commands write which state; everything not listed is unchanged (40_register_access.md R98; the
control operations and the coprocessor's commands are taken in). -/
def Obligations.CommandsWriteOnlyTheirState : Prop :=
  ∀ (s t : State) (i : Instr), cfgOk s.cfg = true → exec i s = .next t →
    let isWrUser := ∃ v, i ∈ [Instr.wrUser0 v, .wrUser1 v, .wrUser2 v, .wrUser3 v, .wrUser4 v, .wrUser5 v]
    let isWrBufIn := ∃ n j v, i = .wrBufIn n j v
    let isWrBufOut := ∃ n j v, i = .wrBufOut n j v
    ((∀ v, i ≠ .wrCtrl v) → SameCtrl s t ∧ SameInEngine s t ∧ SameOutEngine s t)
    ∧ ((∀ v, i ≠ .wrDataAmount v) → SameAmount s t)
    ∧ (¬ isWrUser → (∀ x v, i ≠ .setUserReg x v) → SameUsers s t)
    ∧ (∀ (k : Fin 6) (v : Word),
        i = #v[Instr.wrUser0 v, .wrUser1 v, .wrUser2 v, .wrUser3 v, .wrUser4 v, .wrUser5 v][k] →
        ∀ m : Fin 6, m ≠ k → t.user[m] = s.user[m] ∧ t.userWritten[m] = s.userWritten[m])
    ∧ (¬ isWrBufIn → SameBufIn s t) ∧ (¬ isWrBufOut → SameBufOut s t)
    ∧ ((∀ v, i ≠ .wrCtrl v) → ¬ isWrBufIn → ¬ isWrBufOut → (∀ n j, i ≠ .rdBufIn n j ∧ i ≠ .rdBufOut n j) →
        (∀ we size rsv off, i ≠ .busIllegal we size rsv off) → SameFault s t)
    ∧ (i ≠ .devPopIn → t.fifoIn = s.fifoIn) ∧ ((∀ d, i ≠ .devPushOut d) → t.fifoOut = s.fifoOut)
    ∧ t.cfg = s.cfg

/-- Who writes what (10_state.md R11, R20 to R25): control bits, amount, user registers, the input window and the
fault mark are written by the host's turns only; the output window by the host's and the OUT engine's; an engine's
own state by the host's turns and its own; the input FIFO by the IN engine (which only appends) and the coprocessor
(which only removes at the head); the output FIFO by the coprocessor (which only appends) and the OUT engine
(which only removes at the head). The echo coprocessor (an agent of its own: log 26) does both for one word or
leaves the FIFOs alone. -/
def Obligations.StateHasItsOwners : Prop :=
  ∀ s t : State, step s = .next t →
    (s.turns.head? ≠ some .host → SameCtrl s t ∧ SameAmount s t ∧ SameUsers s t ∧ SameBufIn s t ∧ SameFault s t)
    ∧ (s.turns.head? ≠ some .host → s.turns.head? ≠ some .outEngine → SameBufOut s t ∧ SameOutEngine s t)
    ∧ (s.turns.head? ≠ some .host → s.turns.head? ≠ some .inEngine → SameInEngine s t)
    ∧ (s.turns.head? = some .host → SameFifos s t)
    ∧ (s.turns.head? = some .inEngine → t.fifoOut = s.fifoOut ∧ ∃ ws, t.fifoIn = s.fifoIn ++ ws)
    ∧ (s.turns.head? = some .outEngine → t.fifoIn = s.fifoIn ∧ ∃ ws, s.fifoOut = ws ++ t.fifoOut)
    ∧ (s.turns.head? = some .coprocessor →
        (∃ ws, s.fifoIn = ws ++ t.fifoIn) ∧ ∃ ws, t.fifoOut = s.fifoOut ++ ws)
    ∧ (s.turns.head? = some .echo →
        SameFifos s t ∨ ∃ w, s.fifoIn = w :: t.fifoIn ∧ t.fifoOut = s.fifoOut ++ [w])

/-! ### Initialisation and arithmetic -/

/-- `Validate` accepts exactly the platform values that pass every check of 43_offset_validation.md R150 to
R154, on natural numbers, and every failure is `DeviceNotReady` (R155). -/
def Obligations.ValidateAcceptsExactly : Prop :=
  ∀ (p : Params) (len bi bo : Option Nat),
    (validate p len bi bo = none ↔ ∃ l i o, len = some l ∧ bi = some i ∧ bo = some o
      ∧ l ≤ 2 ^ 24 ∧ p.minRegSpace ≤ l ∧ i % 4 = 0 ∧ o % 4 = 0
      ∧ p.minRegSpace ≤ i ∧ i + 4 * p.bufInWords ≤ l ∧ p.minRegSpace ≤ o ∧ o + 4 * p.bufOutWords ≤ l
      ∧ (i + 4 * p.bufInWords ≤ o ∨ o + 4 * p.bufOutWords ≤ i))
    ∧ (validate p len bi bo = none ∨ validate p len bi bo = some .deviceNotReady)

/-- Bring-up gives the reset state of the platform's values when the base is supplied and `Validate` accepts the
rest, and `DeviceNotReady` in every other case; the block so brought up can take steps and meets the invariant,
and under a configuration that was not brought up no step is taken (43_offset_validation.md R151, R155;
60_exceptions.md R191; the refusal is the model's form of it, log 13). -/
def Obligations.BringUpOrDeviceNotReady : Prop :=
  (∀ (p : Params) (base l i o : Nat), validate p (some l) (some i) (some o) = none →
    bringUp p ⟨some base, some l, some i, some o⟩ = .ok (State.resetWith { p with dev := ⟨base, l, i, o⟩ }))
  ∧ (∀ (p : Params) (plat : Platform),
      plat.registerBase = none ∨ validate p plat.regionLength plat.bufInOffset plat.bufOutOffset ≠ none →
      bringUp p plat = .error .deviceNotReady)
  ∧ (∀ (p : Params) (plat : Platform),
      plat.regionLength = none ∨ plat.bufInOffset = none ∨ plat.bufOutOffset = none →
      bringUp p plat = .error .deviceNotReady)
  ∧ (∀ (p : Params) (plat : Platform) (s : State), paramsOk p = true → bringUp p plat = .ok s →
      cfgOk s.cfg = true ∧ s.Inv)
  ∧ (∀ s : State, cfgOk s.cfg = false → step s = .refused .deviceNotReady)

/-- The index check: valid exactly when `0 <= i <= 5` as a signed number, which is the same answer on the
unsigned one; SET_USER_REG and GET_USER_REG answer `AccessDenied` exactly on the other indices, and then no
state changes (43_offset_validation.md R156, 60_exceptions.md R189). -/
def Obligations.IndexCheckSignedOrUnsigned : Prop :=
  ∀ index : Word,
    (userIndexValid index = true ↔ 0 ≤ index.toInt ∧ index.toInt ≤ 5)
    ∧ (userIndexValid index = true ↔ index.toNat ≤ 5)
    ∧ ∀ (s : State) (v : Word), cfgOk s.cfg = true → ∀ i ∈ [Instr.setUserReg index v, .getUserReg index],
      ∃ t, exec i s = .next t ∧ (t.hostResp = .error .accessDenied ↔ userIndexValid index = false)
        ∧ (userIndexValid index = false → SameBlock s t ∧ SameInputs s t)

/-- `RoundUp4(L)` is the least multiple of 4 not below `L`, and under a window that holds it the word count is
not changed by the mask (44_host_procedures.md R173). -/
def Obligations.RoundUpAndMask : Prop :=
  ∀ (c : Cfg) (len : Nat), cfgOk c = true →
    (roundUp4 len % 4 = 0 ∧ len ≤ roundUp4 len ∧ roundUp4 len < len + 4)
    ∧ (roundUp4 len ≤ 4 * c.bufInWords → (amountOf c len).toNat = roundUp4 len / 4)

/-- READ_FROM_DEVICE as a whole. It ends with `ResourceExhausted` before any access if the allocation fails. Once
its transfer has stopped with a count that `max_length` covers, and no other agent steps, it returns exactly the
window's first `4 * out_copied` bytes in order, or `BoundaryFault` with none of them if the copy to the caller
fails, and changes nothing of the block (44_host_procedures.md R171, R172; one access a step: log 16, log 25;
whether allocation and copy fail are flags of the command: log 17). -/
def Obligations.ReadFromDeviceReturnsWindow : Prop :=
  (∀ (s : State) (ts : List Agent) (rest : List HostCmd) (max : Nat) (ev : HostEvents),
    cfgOk s.cfg = true → s.proc = none → s.turns = .host :: ts →
    s.hostPort = .proc (.readFromDevice max ev) :: rest → ev.allocFails = true →
    ∃ t, step s = .next t ∧ SameBlock s t ∧ t.proc = none ∧ t.hostPort = rest
      ∧ t.hostResp = .error .resourceExhausted)
  ∧ (∀ (s : State) (max : Nat) (ev : HostEvents) (bs : List Byte), s.Inv → s.outBusy = false →
    s.proc = some { proc := .readFromDevice max ev, phase := .readXfer .fromFifo } →
    bs.length = 4 * s.outCopied.toNat → 4 * s.outCopied.toNat ≤ max →
    (∀ j b, bs[j]? = some b → Memory.get? s.bufOut j = some b) →
    ∃ t, runTurns (List.replicate (bs.length + 1) .host) s = .next t ∧ t.proc = none ∧ SameBlock s t
      ∧ t.hostPort = s.hostPort
      ∧ (ev.copyFails = false → t.hostResp = .bytes bs)
      ∧ (ev.copyFails = true → t.hostResp = .error .boundaryFault))
end

