-- ==== Sys2Proof/Laws/Config.lean ====
section
/-! SUPPORT. What a configuration under which the block was brought up satisfies, as plain facts. -/

namespace Sys2Proof.Machine

/-- The layout facts of a configuration that passes `cfgOk` (00_scope.md R5, 43_offset_validation.md R155). -/
structure LayoutFacts (c : Cfg) : Prop where
  ctrl_aligned : c.offCtrl % 4 = 0
  status_aligned : c.offStatus % 4 = 0
  xfer_aligned : c.offXfer % 4 = 0
  amount_aligned : c.offAmount % 4 = 0
  user_aligned : c.offUser0 % 4 = 0
  ctrl_status : c.offCtrl ≠ c.offStatus
  ctrl_xfer : c.offCtrl ≠ c.offXfer
  ctrl_amount : c.offCtrl ≠ c.offAmount
  status_xfer : c.offStatus ≠ c.offXfer
  status_amount : c.offStatus ≠ c.offAmount
  xfer_amount : c.offXfer ≠ c.offAmount
  ctrl_user : ∀ i, i < 6 → c.offUser0 + 4 * i ≠ c.offCtrl
  status_user : ∀ i, i < 6 → c.offUser0 + 4 * i ≠ c.offStatus
  xfer_user : ∀ i, i < 6 → c.offUser0 + 4 * i ≠ c.offXfer
  amount_user : ∀ i, i < 6 → c.offUser0 + 4 * i ≠ c.offAmount
  ctrl_end : c.offCtrl + 4 ≤ c.minRegSpace
  status_end : c.offStatus + 4 ≤ c.minRegSpace
  xfer_end : c.offXfer + 4 ≤ c.minRegSpace
  amount_end : c.offAmount + 4 ≤ c.minRegSpace
  user_end : c.offUser0 + 24 ≤ c.minRegSpace
  region_min : c.minRegSpace ≤ c.dev.regionLength
  region_max : c.dev.regionLength ≤ 2 ^ 24
  bufIn_aligned : c.dev.bufInOffset % 4 = 0
  bufOut_aligned : c.dev.bufOutOffset % 4 = 0
  bufIn_min : c.minRegSpace ≤ c.dev.bufInOffset
  bufOut_min : c.minRegSpace ≤ c.dev.bufOutOffset
  bufIn_end : c.dev.bufInOffset + 4 * c.bufInWords ≤ c.dev.regionLength
  bufOut_end : c.dev.bufOutOffset + 4 * c.bufOutWords ≤ c.dev.regionLength
  disjoint : c.dev.bufInOffset + 4 * c.bufInWords ≤ c.dev.bufOutOffset
    ∨ c.dev.bufOutOffset + 4 * c.bufOutWords ≤ c.dev.bufInOffset

/-- The widths and sizes of a configuration that passes `cfgOk` (00_scope.md R5). -/
structure SizeFacts (c : Cfg) : Prop where
  amountW_le : c.amountW ≤ 16
  fifoIn_pos : 1 ≤ c.fifoInDepth
  fifoOut_pos : 1 ≤ c.fifoOutDepth
  bufIn_pos : 1 ≤ c.bufInWords
  bufIn_max : c.bufInWords ≤ 2 ^ c.amountW - 1
  bufOut_pos : 1 ≤ c.bufOutWords
  bufOut_max : c.bufOutWords ≤ 2 ^ c.amountW - 1
  bufIn_lt : c.bufInWords < 65536
  bufOut_lt : c.bufOutWords < 65536

/-- The bit positions of a configuration that passes `cfgOk` (00_scope.md R5). -/
structure BitFacts (c : Cfg) : Prop where
  ctrl_distinct : c.ctrlToBit ≠ c.ctrlFromBit
  ctrlTo_lt : c.ctrlToBit < 32
  ctrlFrom_lt : c.ctrlFromBit < 32
  status_distinct : distinct (statusBits c.toParams) = true
  status_lt : ∀ b ∈ statusBits c.toParams, b < 32
  fields_disjoint : (c.xfInMask <<< c.xfInShift) &&& (c.xfOutMask <<< c.xfOutShift) = 0#32
  in_passes : c.xfInMask &&& BitVec.ofNat 32 (2 ^ c.amountW - 1) = BitVec.ofNat 32 (2 ^ c.amountW - 1)
  out_passes : c.xfOutMask &&& BitVec.ofNat 32 (2 ^ c.amountW - 1) = BitVec.ofNat 32 (2 ^ c.amountW - 1)
  in_end : c.xfInShift + c.amountW ≤ 32
  out_end : c.xfOutShift + c.amountW ≤ 32

theorem cfgOk_parts {c : Cfg} (h : cfgOk c = true) :
    offsetsOk c.toParams = true ∧ bitsOk c.toParams = true ∧ sizesOk c.toParams = true
      ∧ c.dev.regionLength ≤ 2 ^ 24 ∧ lenOk c.toParams c.dev.regionLength = true
      ∧ alignOk c.dev.bufInOffset c.dev.bufOutOffset = true
      ∧ rangeOk c.toParams c.dev.regionLength c.dev.bufInOffset c.dev.bufOutOffset = true
      ∧ disjointOk c.toParams c.dev.bufInOffset c.dev.bufOutOffset = true := by
  simp only [cfgOk, paramsOk, Bool.and_eq_true] at h
  obtain ⟨⟨⟨h1, h2⟩, h3⟩, hv⟩ := h
  refine ⟨h1, h2, h3, ?_⟩
  simp only [validate] at hv
  split at hv
  · simp at hv
  · split at hv
    · simp at hv
    · split at hv
      · simp at hv
      · split at hv
        · simp at hv
        · split at hv
          · simp at hv
          · simp_all

theorem le_foldl_max (l : List Nat) (m o : Nat) :
    (o ∈ l → o + 4 ≤ l.foldl (fun m o => max m (o + 4)) m) ∧ m ≤ l.foldl (fun m o => max m (o + 4)) m := by
  induction l generalizing m with
  | nil => simp
  | cons x xs ih =>
    simp only [List.foldl_cons, List.mem_cons]
    have h := ih (max m (x + 4))
    refine ⟨?_, by omega⟩
    rintro (rfl | hm)
    · omega
    · exact h.1 hm

theorem offsets_end {p : Params} (h : offsetsOk p = true) {o : Nat} (ho : o ∈ registerOffsets p) :
    o + 4 ≤ p.minRegSpace := by
  simp only [offsetsOk, Bool.and_eq_true, beq_iff_eq] at h
  rw [h.2]
  exact (le_foldl_max _ 0 o).1 ho

theorem offsets_aligned {p : Params} (h : offsetsOk p = true) {o : Nat} (ho : o ∈ registerOffsets p) :
    o % 4 = 0 := by
  simp only [offsetsOk, Bool.and_eq_true] at h
  simpa using List.all_eq_true.mp h.1.1 o ho

theorem cfgOk_layout {c : Cfg} (h : cfgOk c = true) : LayoutFacts c := by
  obtain ⟨ho, -, -, hmax, hl, ha, hr, hd⟩ := cfgOk_parts h
  have hdis : distinct (registerOffsets c.toParams) = true := by
    simp only [offsetsOk, Bool.and_eq_true] at ho; exact ho.1.2
  simp only [registerOffsets, distinct, List.all_cons, List.all_nil, Bool.and_eq_true, Bool.and_true,
    bne_iff_ne] at hdis
  obtain ⟨⟨c1, c2, c3, u1, u2, u3, u4, u5, u6⟩, ⟨s1, s2, v1, v2, v3, v4, v5, v6⟩,
    ⟨x1, w1, w2, w3, w4, w5, w6⟩, ⟨y1, y2, y3, y4, y5, y6⟩, -⟩ := hdis
  simp only [lenOk, alignOk, rangeOk, disjointOk, Bool.and_eq_true, Bool.or_eq_true,
    decide_eq_true_eq] at hl ha hr hd
  have last := offsets_end ho (o := c.offUser0 + 20) (by simp [registerOffsets])
  exact {
    ctrl_aligned := offsets_aligned ho (by simp [registerOffsets])
    status_aligned := offsets_aligned ho (by simp [registerOffsets])
    xfer_aligned := offsets_aligned ho (by simp [registerOffsets])
    amount_aligned := offsets_aligned ho (by simp [registerOffsets])
    user_aligned := offsets_aligned ho (by simp [registerOffsets])
    ctrl_status := c1, ctrl_xfer := c2, ctrl_amount := c3
    status_xfer := s1, status_amount := s2, xfer_amount := x1
    ctrl_user := fun i hi => by interval_cases i <;> first | exact u1.symm | exact Ne.symm ‹_›
    status_user := fun i hi => by interval_cases i <;> first | exact v1.symm | exact Ne.symm ‹_›
    xfer_user := fun i hi => by interval_cases i <;> first | exact w1.symm | exact Ne.symm ‹_›
    amount_user := fun i hi => by interval_cases i <;> first | exact y1.symm | exact Ne.symm ‹_›
    ctrl_end := offsets_end ho (by simp [registerOffsets])
    status_end := offsets_end ho (by simp [registerOffsets])
    xfer_end := offsets_end ho (by simp [registerOffsets])
    amount_end := offsets_end ho (by simp [registerOffsets])
    user_end := by omega
    region_min := hl, region_max := hmax
    bufIn_aligned := ha.1, bufOut_aligned := ha.2
    bufIn_min := hr.1.1.1, bufIn_end := hr.1.1.2, bufOut_min := hr.1.2, bufOut_end := hr.2
    disjoint := hd }

theorem cfgOk_sizes {c : Cfg} (h : cfgOk c = true) : SizeFacts c := by
  obtain ⟨-, -, hs, -⟩ := cfgOk_parts h
  simp only [sizesOk, Bool.and_eq_true, decide_eq_true_eq] at hs
  obtain ⟨⟨⟨⟨⟨⟨h1, h2⟩, h3⟩, h4⟩, h5⟩, h6⟩, h7⟩ := hs
  have : 2 ^ c.amountW ≤ 2 ^ 16 := Nat.pow_le_pow_right (by omega) h1
  have : 0 < 2 ^ c.amountW := Nat.two_pow_pos _
  exact ⟨h1, h2, h3, h4, h5, h6, h7, by omega, by omega⟩

theorem cfgOk_bits {c : Cfg} (h : cfgOk c = true) : BitFacts c := by
  obtain ⟨-, hb, -⟩ := cfgOk_parts h
  simp only [bitsOk, fieldFits, Bool.and_eq_true, decide_eq_true_eq, beq_iff_eq] at hb
  obtain ⟨⟨⟨⟨⟨⟨⟨h1, h2⟩, h3⟩, h4⟩, h5⟩, h6⟩, h7⟩, h8⟩ := hb
  refine ⟨?_, h2, h3, h4, ?_, h6, h7.1, h8.1, h7.2, h8.2⟩
  · simpa [distinct] using h1
  · intro b hb; simpa using List.all_eq_true.mp h5 b hb

/-! ### The decode of a register offset (40_register_access.md R80) -/

theorem decodeTarget_ctrl {c : Cfg} (h : cfgOk c = true) : decodeTarget c c.offCtrl 4 = .ctrl := by
  have L := cfgOk_layout h
  have := L.ctrl_end; have := L.region_min; have := L.ctrl_aligned
  have h1 : ¬ (c.dev.regionLength ≤ c.offCtrl ∨ c.dev.regionLength < c.offCtrl + 4) := by omega
  have h2 : c.offCtrl < c.minRegSpace := by omega
  simp [decodeTarget, registerAt, h1, h2, L.ctrl_aligned]

theorem decodeTarget_status {c : Cfg} (h : cfgOk c = true) : decodeTarget c c.offStatus 4 = .status := by
  have L := cfgOk_layout h
  have := L.status_end; have := L.region_min
  have h1 : ¬ (c.dev.regionLength ≤ c.offStatus ∨ c.dev.regionLength < c.offStatus + 4) := by omega
  have h2 : c.offStatus < c.minRegSpace := by omega
  simp [decodeTarget, registerAt, h1, h2, L.status_aligned, L.ctrl_status.symm]

theorem decodeTarget_xfer {c : Cfg} (h : cfgOk c = true) : decodeTarget c c.offXfer 4 = .xferStatus := by
  have L := cfgOk_layout h
  have := L.xfer_end; have := L.region_min
  have h1 : ¬ (c.dev.regionLength ≤ c.offXfer ∨ c.dev.regionLength < c.offXfer + 4) := by omega
  have h2 : c.offXfer < c.minRegSpace := by omega
  simp [decodeTarget, registerAt, h1, h2, L.xfer_aligned, L.ctrl_xfer.symm, L.status_xfer.symm]

theorem decodeTarget_amount {c : Cfg} (h : cfgOk c = true) : decodeTarget c c.offAmount 4 = .dataAmount := by
  have L := cfgOk_layout h
  have := L.amount_end; have := L.region_min
  have h1 : ¬ (c.dev.regionLength ≤ c.offAmount ∨ c.dev.regionLength < c.offAmount + 4) := by omega
  have h2 : c.offAmount < c.minRegSpace := by omega
  simp [decodeTarget, registerAt, h1, h2, L.amount_aligned, L.ctrl_amount.symm, L.status_amount.symm,
    L.xfer_amount.symm]

theorem userAt?_offset (c : Cfg) (i : Fin 6) : userAt? c (c.offUser0 + 4 * i.val) = some i := by
  fin_cases i <;> simp [userAt?]

theorem decodeTarget_user {c : Cfg} (h : cfgOk c = true) (i : Fin 6) :
    decodeTarget c (c.offUser0 + 4 * i.val) 4 = .user i := by
  have L := cfgOk_layout h
  have hi := i.isLt
  have := L.user_end; have := L.region_min; have := L.user_aligned
  have h1 : ¬ (c.dev.regionLength ≤ c.offUser0 + 4 * i.val
    ∨ c.dev.regionLength < c.offUser0 + 4 * i.val + 4) := by omega
  have h2 : c.offUser0 + 4 * i.val < c.minRegSpace := by omega
  have h3 : (c.offUser0 + 4 * i.val) % 4 = 0 := by omega
  simp [decodeTarget, registerAt, h1, h2, h3, L.ctrl_user i hi, L.status_user i hi, L.xfer_user i hi,
    L.amount_user i hi, userAt?_offset]

/-! ### What a decoded target says of the access -/

/-- A target inside the input window: the byte index and its bounds. -/
theorem decodeTarget_bufIn {c : Cfg} {off n j : Nat} (h : decodeTarget c off n = .bufIn j) :
    c.dev.bufInOffset ≤ off ∧ off = c.dev.bufInOffset + j ∧ j + n ≤ 4 * c.bufInWords ∧ off % n = 0
      ∧ c.minRegSpace ≤ off ∧ off + n ≤ c.dev.regionLength := by
  unfold decodeTarget registerAt at h
  repeat' split at h
  all_goals first
    | (simp at h; done)
    | (simp only [Target.bufIn.injEq] at h; omega)

/-- A target inside the output window: the byte index and its bounds. -/
theorem decodeTarget_bufOut {c : Cfg} {off n j : Nat} (h : decodeTarget c off n = .bufOut j) :
    c.dev.bufOutOffset ≤ off ∧ off = c.dev.bufOutOffset + j ∧ j + n ≤ 4 * c.bufOutWords ∧ off % n = 0
      ∧ c.minRegSpace ≤ off ∧ off + n ≤ c.dev.regionLength := by
  unfold decodeTarget registerAt at h
  repeat' split at h
  all_goals first
    | (simp at h; done)
    | (simp only [Target.bufOut.injEq] at h; omega)

/-- An aligned access that lies in the input window. -/
theorem decodeTarget_bufIn_access {c : Cfg} (h : cfgOk c = true) (n : Size) (j : Nat) (ha : j % n.bytes = 0)
    (hj : j + n.bytes ≤ 4 * c.bufInWords) : decodeTarget c (c.dev.bufInOffset + j) n.bytes = .bufIn j := by
  have L := cfgOk_layout h
  have := L.bufIn_min; have := L.bufIn_end; have := L.bufIn_aligned
  have hn : 0 < n.bytes := by cases n <;> decide
  have h1 : ¬ (c.dev.regionLength ≤ c.dev.bufInOffset + j
    ∨ c.dev.regionLength < c.dev.bufInOffset + j + n.bytes) := by omega
  have h2 : ¬ c.dev.bufInOffset + j < c.minRegSpace := by omega
  have h3 : c.dev.bufInOffset ≤ c.dev.bufInOffset + j
    ∧ c.dev.bufInOffset + j + n.bytes ≤ c.dev.bufInOffset + 4 * c.bufInWords := by omega
  have h4 : (c.dev.bufInOffset + j) % n.bytes = 0 := by cases n <;> simp only [Size.bytes] at * <;> omega
  rw [decodeTarget, if_neg h1, if_neg h2, if_pos h3, if_neg (by omega)]
  congr 1; omega

/-- An aligned access that lies in the output window. -/
theorem decodeTarget_bufOut_access {c : Cfg} (h : cfgOk c = true) (n : Size) (j : Nat) (ha : j % n.bytes = 0)
    (hj : j + n.bytes ≤ 4 * c.bufOutWords) : decodeTarget c (c.dev.bufOutOffset + j) n.bytes = .bufOut j := by
  have L := cfgOk_layout h
  have := L.bufOut_min; have := L.bufOut_end; have := L.bufOut_aligned
  have hn : 0 < n.bytes := by cases n <;> decide
  have h1 : ¬ (c.dev.regionLength ≤ c.dev.bufOutOffset + j
    ∨ c.dev.regionLength < c.dev.bufOutOffset + j + n.bytes) := by omega
  have h2 : ¬ c.dev.bufOutOffset + j < c.minRegSpace := by omega
  have h3 : ¬ (c.dev.bufInOffset ≤ c.dev.bufOutOffset + j
    ∧ c.dev.bufOutOffset + j + n.bytes ≤ c.dev.bufInOffset + 4 * c.bufInWords) := by
    have := L.disjoint; omega
  have h4 : c.dev.bufOutOffset ≤ c.dev.bufOutOffset + j
    ∧ c.dev.bufOutOffset + j + n.bytes ≤ c.dev.bufOutOffset + 4 * c.bufOutWords := by omega
  have h5 : (c.dev.bufOutOffset + j) % n.bytes = 0 := by cases n <;> simp only [Size.bytes] at * <;> omega
  rw [decodeTarget, if_neg h1, if_neg h2, if_neg h3, if_pos h4, if_neg (by omega)]
  congr 1; omega

/-! ### The bus primitives at the registers -/

theorem memRead_ctrl {s : State} (h : cfgOk s.cfg = true) :
    memRead s.cfg.offCtrl 4 s = (ctrlWord s, s) := by
  simp [memRead, decodeTarget_ctrl h]

theorem memRead_status {s : State} (h : cfgOk s.cfg = true) :
    memRead s.cfg.offStatus 4 s = (statusWord s, s) := by
  simp [memRead, decodeTarget_status h]

theorem memRead_xfer {s : State} (h : cfgOk s.cfg = true) :
    memRead s.cfg.offXfer 4 s = (xferWord s, s) := by
  simp [memRead, decodeTarget_xfer h]

theorem memRead_user {s : State} (h : cfgOk s.cfg = true) (i : Fin 6) :
    memRead (s.cfg.offUser0 + 4 * i.val) 4 s = (userValue i s, s.nextDraw) := by
  simp [memRead, decodeTarget_user h]

theorem memWrite_user {s : State} (h : cfgOk s.cfg = true) (i : Fin 6) (v : Word) :
    memWrite (s.cfg.offUser0 + 4 * i.val) 4 v s = writeUser i v s := by
  simp [memWrite, decodeTarget_user h]

end Sys2Proof.Machine
end

