-- ==== Sys2Proof/Laws/Decode.lean ====
section
/-! SUPPORT. The fields of the command words, and what the decoder makes of a word built from fields. -/

namespace Sys2Proof

/-! ### Fields of a format B word (30_encoding.md R61) -/

theorem busWord_we (we : Bool) (size : BitVec 2) (rsv : BitVec 5) (off : BitVec 24) (wdata : Word) :
    (busWord we size rsv off wdata).getLsbD 63 = we := by
  simp only [busWord, BitVec.getLsbD_append]
  rw [if_neg (by omega), if_neg (by omega), if_neg (by omega), if_neg (by omega)]
  cases we <;> rfl

theorem busWord_size (we : Bool) (size : BitVec 2) (rsv : BitVec 5) (off : BitVec 24) (wdata : Word) :
    (busWord we size rsv off wdata).extractLsb' 61 2 = size := by
  ext k hk
  have h : k < 2 := hk
  simp only [BitVec.getElem_extractLsb', busWord, BitVec.getLsbD_append]
  rw [if_neg (by omega), if_neg (by omega), if_neg (by omega), if_pos (by omega), ← BitVec.getLsbD_eq_getElem]
  congr 1; omega

theorem busWord_rsv (we : Bool) (size : BitVec 2) (rsv : BitVec 5) (off : BitVec 24) (wdata : Word) :
    (busWord we size rsv off wdata).extractLsb' 56 5 = rsv := by
  ext k hk
  have h : k < 5 := hk
  simp only [BitVec.getElem_extractLsb', busWord, BitVec.getLsbD_append]
  rw [if_neg (by omega), if_neg (by omega), if_pos (by omega), ← BitVec.getLsbD_eq_getElem]
  congr 1; omega

theorem busWord_off (we : Bool) (size : BitVec 2) (rsv : BitVec 5) (off : BitVec 24) (wdata : Word) :
    (busWord we size rsv off wdata).extractLsb' 32 24 = off := by
  ext k hk
  have h : k < 24 := hk
  simp only [BitVec.getElem_extractLsb', busWord, BitVec.getLsbD_append]
  rw [if_neg (by omega), if_pos (by omega), ← BitVec.getLsbD_eq_getElem]
  congr 1; omega

theorem busWord_wdata (we : Bool) (size : BitVec 2) (rsv : BitVec 5) (off : BitVec 24) (wdata : Word) :
    (busWord we size rsv off wdata).extractLsb' 0 32 = wdata := by
  ext k hk
  have h : k < 32 := hk
  simp only [BitVec.getElem_extractLsb', busWord, BitVec.getLsbD_append]
  rw [if_pos (by omega), ← BitVec.getLsbD_eq_getElem]
  congr 1; omega

/-- A word built from fields decodes by its fields. -/
theorem decodeBus_busWord (c : Cfg) (we : Bool) (size : BitVec 2) (rsv : BitVec 5) (off : BitVec 24)
    (wdata : Word) :
    decodeBus c (busWord we size rsv off wdata) = busFields c we size rsv off wdata := by
  simp only [decodeBus, busWord_we, busWord_size, busWord_rsv, busWord_off, busWord_wdata]

@[simp] theorem sizeOf?_code (n : Size) : sizeOf? n.code = some n := by cases n <;> rfl

theorem off_toNat {off : Nat} (h : off < 2 ^ 24) : (BitVec.ofNat 24 off).toNat = off := by
  rw [BitVec.toNat_ofNat, Nat.mod_eq_of_lt h]

/-- A read word decodes to the read of its target, whatever its ignored `wdata` is (30_encoding.md R61). -/
theorem decodeBus_readWord (c : Cfg) (n : Size) (off : Nat) (wdata : Word) (h : off < 2 ^ 24) :
    decodeBus c (busWord false n.code 0 (BitVec.ofNat 24 off) wdata) =
      readInstr (.busIllegal false n.code 0 (BitVec.ofNat 24 off)) n (decodeTarget c off n.bytes) := by
  simp only [decodeBus_busWord, busFields, sizeOf?_code, off_toNat h]
  simp

theorem decodeBus_rdWord (c : Cfg) (n : Size) (off : Nat) (h : off < 2 ^ 24) :
    decodeBus c (rdWord n off) =
      readInstr (.busIllegal false n.code 0 (BitVec.ofNat 24 off)) n (decodeTarget c off n.bytes) :=
  decodeBus_readWord c n off 0 h

/-- A write word decodes to the write of its target. -/
theorem decodeBus_wrWord (c : Cfg) (n : Size) (off : Nat) (wdata : Word) (h : off < 2 ^ 24) :
    decodeBus c (wrWord n off wdata) =
      writeInstr (.busIllegal true n.code 0 (BitVec.ofNat 24 off)) n wdata
        (decodeTarget c off n.bytes) := by
  simp only [wrWord, decodeBus_busWord, busFields, sizeOf?_code, off_toNat h]
  simp

/-! ### Fields of format C and P words (30_encoding.md R62, R63) -/

theorem decodeCtl_ctlWord (op : BitVec 8) (index value : Word) :
    decodeCtl (ctlWord op index value) = ctlFields op index value := by
  have h1 : (ctlWord op index value).extractLsb' 64 8 = op := by
    ext k hk
    have h : k < 8 := hk
    simp only [BitVec.getElem_extractLsb', ctlWord, BitVec.getLsbD_append]
    rw [if_neg (by omega), if_neg (by omega), ← BitVec.getLsbD_eq_getElem]
    congr 1; omega
  have h2 : (ctlWord op index value).extractLsb' 32 32 = index := by
    ext k hk
    have h : k < 32 := hk
    simp only [BitVec.getElem_extractLsb', ctlWord, BitVec.getLsbD_append]
    rw [if_neg (by omega), if_pos (by omega), ← BitVec.getLsbD_eq_getElem]
    congr 1; omega
  have h3 : (ctlWord op index value).extractLsb' 0 32 = value := by
    ext k hk
    have h : k < 32 := hk
    simp only [BitVec.getElem_extractLsb', ctlWord, BitVec.getLsbD_append]
    rw [if_pos (by omega), ← BitVec.getLsbD_eq_getElem]
    congr 1; omega
  simp only [decodeCtl, h1, h2, h3]

theorem decodeDev_devWord (dir : Bool) (data : Word) :
    decodeDev (devWord dir data) = if dir then .devPushOut data else .devPopIn := by
  have h1 : (devWord dir data).getLsbD 32 = dir := by
    simp only [devWord, BitVec.getLsbD_append]
    rw [if_neg (by omega)]
    cases dir <;> rfl
  have h2 : (devWord dir data).extractLsb' 0 32 = data := by
    ext k hk
    have h : k < 32 := hk
    simp only [BitVec.getElem_extractLsb', devWord, BitVec.getLsbD_append]
    rw [if_pos (by omega), ← BitVec.getLsbD_eq_getElem]
    congr 1; omega
  simp only [decodeDev, h1, h2]

/-! ### The register offsets fit the 24-bit field (20_memory.md R40) -/

namespace Machine

theorem regOff_lt {c : Cfg} (h : cfgOk c = true) {off : Nat} (ho : off + 4 ≤ c.minRegSpace) :
    off < 2 ^ 24 := by
  have L := cfgOk_layout h
  have := L.region_min; have := L.region_max
  omega

/-- The five kinds of word a host procedure issues decode to the commands they name
(44_host_procedures.md R165 to R171). -/
theorem decodeBus_rdCtrl {c : Cfg} (h : cfgOk c = true) :
    decodeBus c (rdWord .word c.offCtrl) = .rdCtrl := by
  rw [decodeBus_rdWord c _ _ (regOff_lt h (cfgOk_layout h).ctrl_end)]
  simp [Size.bytes, decodeTarget_ctrl h, readInstr]

theorem decodeBus_wrCtrl {c : Cfg} (h : cfgOk c = true) (v : Word) :
    decodeBus c (wrWord .word c.offCtrl v) = .wrCtrl v := by
  rw [decodeBus_wrWord c _ _ _ (regOff_lt h (cfgOk_layout h).ctrl_end)]
  simp [Size.bytes, decodeTarget_ctrl h, writeInstr]

theorem decodeBus_rdStatus {c : Cfg} (h : cfgOk c = true) :
    decodeBus c (rdWord .word c.offStatus) = .rdStatus := by
  rw [decodeBus_rdWord c _ _ (regOff_lt h (cfgOk_layout h).status_end)]
  simp [Size.bytes, decodeTarget_status h, readInstr]

theorem decodeBus_rdXfer {c : Cfg} (h : cfgOk c = true) :
    decodeBus c (rdWord .word c.offXfer) = .rdXferStatus := by
  rw [decodeBus_rdWord c _ _ (regOff_lt h (cfgOk_layout h).xfer_end)]
  simp [Size.bytes, decodeTarget_xfer h, readInstr]

theorem decodeBus_wrAmount {c : Cfg} (h : cfgOk c = true) (v : Word) :
    decodeBus c (wrWord .word c.offAmount v) = .wrDataAmount v := by
  rw [decodeBus_wrWord c _ _ _ (regOff_lt h (cfgOk_layout h).amount_end)]
  simp [Size.bytes, decodeTarget_amount h, writeInstr]

/-- A read of the input window, at every size, index and ignored `wdata`. -/
theorem decodeBus_rdBufIn {c : Cfg} (h : cfgOk c = true) (n : Size) (j : Nat) (wdata : Word)
    (ha : j % n.bytes = 0) (hj : j + n.bytes ≤ 4 * c.bufInWords) :
    decodeBus c (busWord false n.code 0 (BitVec.ofNat 24 (c.dev.bufInOffset + j)) wdata) = .rdBufIn n j := by
  have L := cfgOk_layout h
  have := L.bufIn_end; have := L.region_max
  have hn : 0 < n.bytes := by cases n <;> decide
  rw [decodeBus_readWord c _ _ _ (by omega), decodeTarget_bufIn_access h n j ha hj]
  rfl

/-- A write of the input window, at every size and index. -/
theorem decodeBus_wrBufIn {c : Cfg} (h : cfgOk c = true) (n : Size) (j : Nat) (wdata : Word)
    (ha : j % n.bytes = 0) (hj : j + n.bytes ≤ 4 * c.bufInWords) :
    decodeBus c (wrWord n (c.dev.bufInOffset + j) wdata) = .wrBufIn n j wdata := by
  have L := cfgOk_layout h
  have := L.bufIn_end; have := L.region_max
  have hn : 0 < n.bytes := by cases n <;> decide
  rw [decodeBus_wrWord c _ _ _ (by omega), decodeTarget_bufIn_access h n j ha hj]
  rfl

/-- A read of the output window, at every size, index and ignored `wdata`. -/
theorem decodeBus_rdBufOut {c : Cfg} (h : cfgOk c = true) (n : Size) (j : Nat) (wdata : Word)
    (ha : j % n.bytes = 0) (hj : j + n.bytes ≤ 4 * c.bufOutWords) :
    decodeBus c (busWord false n.code 0 (BitVec.ofNat 24 (c.dev.bufOutOffset + j)) wdata) = .rdBufOut n j := by
  have L := cfgOk_layout h
  have := L.bufOut_end; have := L.region_max
  have hn : 0 < n.bytes := by cases n <;> decide
  rw [decodeBus_readWord c _ _ _ (by omega), decodeTarget_bufOut_access h n j ha hj]
  rfl

/-- A write of the output window, at every size and index. -/
theorem decodeBus_wrBufOut {c : Cfg} (h : cfgOk c = true) (n : Size) (j : Nat) (wdata : Word)
    (ha : j % n.bytes = 0) (hj : j + n.bytes ≤ 4 * c.bufOutWords) :
    decodeBus c (wrWord n (c.dev.bufOutOffset + j) wdata) = .wrBufOut n j wdata := by
  have L := cfgOk_layout h
  have := L.bufOut_end; have := L.region_max
  have hn : 0 < n.bytes := by cases n <;> decide
  rw [decodeBus_wrWord c _ _ _ (by omega), decodeTarget_bufOut_access h n j ha hj]
  rfl

end Machine

end Sys2Proof
end

