-- ==== Sys2Proof/Laws/Memory.lean ====
section
/-! SUPPORT. The laws of the window bytes: read after write, the canonical form, the bounds, and the
bytes of an access. -/

namespace Sys2Proof.Machine

/-! ### One byte -/

@[simp] theorem Memory.get?_nil (a : Nat) : Memory.get? [] a = none := rfl

/-- Read after write: the byte at the stored index, every other as before. -/
theorem Memory.get?_set (m : Memory) (a x : Nat) (b : Byte) :
    Memory.get? (Memory.set m a b) x = if a = x then some b else Memory.get? m x := by
  induction m with
  | nil => simp [Memory.set, Memory.get?]
  | cons e m ih =>
    obtain ⟨k, v⟩ := e
    simp only [Memory.set]
    split
    · simp [Memory.get?]
    · split
      · rename_i h; subst h
        by_cases hx : a = x <;> simp [Memory.get?, hx]
      · simp only [Memory.get?, ih]
        by_cases hk : k = x
        · subst hk; simp [*]
        · simp [hk]

theorem Memory.all_set (p : Host.Cell → Bool) (m : Memory) (a : Nat) (b : Byte)
    (hm : m.all p = true) (hp : p (a, b) = true) : (Memory.set m a b).all p = true := by
  induction m with
  | nil => simp [Memory.set, hp]
  | cons e m ih =>
    obtain ⟨k, v⟩ := e
    simp only [List.all_cons, Bool.and_eq_true] at hm
    simp only [Memory.set]
    split
    · simp [hp, hm.1, hm.2]
    · split
      · simp [hp, hm.2]
      · simp [hm.1, ih hm.2]

/-- A store keeps the canonical form. -/
theorem Memory.wf_set (m : Memory) (a : Nat) (b : Byte) (h : Memory.wf m = true) :
    Memory.wf (Memory.set m a b) = true := by
  induction m with
  | nil => rfl
  | cons e m ih =>
    obtain ⟨k, v⟩ := e
    simp only [Memory.wf, Bool.and_eq_true] at h
    simp only [Memory.set]
    split
    · rename_i hlt
      simp only [Memory.wf, Bool.and_eq_true, List.all_cons, decide_eq_true_eq]
      refine ⟨⟨hlt, ?_⟩, h⟩
      refine List.all_eq_true.mpr fun e he => ?_
      have := List.all_eq_true.mp h.1 e he
      simp only [decide_eq_true_eq] at this ⊢
      omega
    · split
      · rename_i hne heq; subst heq
        simpa [Memory.wf] using h
      · rename_i hne hneq
        simp only [Memory.wf, Bool.and_eq_true]
        refine ⟨Memory.all_set _ _ _ _ h.1 ?_, ih h.2⟩
        simp only [decide_eq_true_eq]; omega

/-- A store below `n` keeps every index below `n`. -/
theorem Memory.below_set (n : Nat) (m : Memory) (a : Nat) (b : Byte) (ha : a < n)
    (h : Memory.below n m = true) : Memory.below n (Memory.set m a b) = true :=
  Memory.all_set _ _ _ _ h (by simpa using ha)

/-! ### Consecutive bytes -/

theorem Memory.wf_setBytes (bs : List Byte) (m : Memory) (j : Nat) (h : Memory.wf m = true) :
    Memory.wf (Memory.setBytes m j bs) = true := by
  induction bs generalizing m j with
  | nil => exact h
  | cons b bs ih => exact ih _ _ (Memory.wf_set m j b h)

theorem Memory.below_setBytes (n : Nat) (bs : List Byte) (m : Memory) (j : Nat)
    (hj : j + bs.length ≤ n) (h : Memory.below n m = true) :
    Memory.below n (Memory.setBytes m j bs) = true := by
  induction bs generalizing m j with
  | nil => exact h
  | cons b bs ih =>
    simp only [List.length_cons] at hj
    exact ih _ _ (by omega) (Memory.below_set n m j b (by omega) h)

/-- Every byte outside the stored ones reads as before; a stored one reads as stored. -/
theorem Memory.get?_setBytes (bs : List Byte) (m : Memory) (j x : Nat) :
    Memory.get? (Memory.setBytes m j bs) x =
      if j ≤ x ∧ x < j + bs.length then bs[x - j]? else Memory.get? m x := by
  induction bs generalizing m j with
  | nil => simp [Memory.setBytes]
  | cons b bs ih =>
    simp only [Memory.setBytes, ih, Memory.get?_set, List.length_cons]
    by_cases h1 : j = x
    · subst h1
      simp
    · by_cases h2 : j + 1 ≤ x ∧ x < j + 1 + bs.length
      · have h3 : j ≤ x ∧ x < j + (bs.length + 1) := by omega
        have h4 : x - j = (x - (j + 1)) + 1 := by omega
        simp [h2, h3, h4]
      · have h3 : ¬ (j ≤ x ∧ x < j + (bs.length + 1)) := by omega
        rw [if_neg h2, if_neg h1, if_neg h3]

/-! ### The bytes of a word -/

@[simp] theorem bytesLE_length (n : Nat) (v : Word) : (bytesLE n v).length = n := by
  induction n generalizing v with
  | zero => rfl
  | succ n ih => simp [bytesLE, ih]

@[simp] theorem toBytes_length (o : ByteOrder) (n : Nat) (v : Word) : (toBytes o n v).length = n := by
  cases o <;> simp [toBytes]

/-- Byte `t` of a word, as the little-endian list has it (20_memory.md R43). -/
theorem bytesLE_getElem? (n t : Nat) (v : Word) (ht : t < n) :
    (bytesLE n v)[t]? = some (byteOf v t) := by
  induction n generalizing t v with
  | zero => omega
  | succ n ih =>
    cases t with
    | zero =>
      simp only [bytesLE, List.getElem?_cons_zero, byteOf, Option.some.injEq]
      ext k hk; simp [BitVec.getElem_extractLsb', BitVec.getElem_setWidth]
    | succ t =>
      simp only [bytesLE, List.getElem?_cons_succ]
      rw [ih _ _ (by omega)]
      simp only [byteOf, Option.some.injEq]
      ext k hk
      simp only [BitVec.getElem_extractLsb', BitVec.getLsbD_ushiftRight]
      congr 1; omega

/-- A store keeps the canonical form of a window. -/
theorem Memory.wf_store (m : Memory) (o : ByteOrder) (j n : Nat) (v : Word) (h : Memory.wf m = true) :
    Memory.wf (Memory.store m o j n v) = true := Memory.wf_setBytes _ _ _ h

/-- A store inside the window keeps every index inside it. -/
theorem Memory.below_store (k : Nat) (m : Memory) (o : ByteOrder) (j n : Nat) (v : Word)
    (hj : j + n ≤ k) (h : Memory.below k m = true) :
    Memory.below k (Memory.store m o j n v) = true :=
  Memory.below_setBytes k _ m j (by simpa using hj) h

/-- What a store of `n` bytes leaves at every index. -/
theorem Memory.get?_store (m : Memory) (o : ByteOrder) (j n x : Nat) (v : Word) :
    Memory.get? (Memory.store m o j n v) x =
      if j ≤ x ∧ x < j + n then (toBytes o n v)[x - j]? else Memory.get? m x := by
  simp [Memory.store, Memory.get?_setBytes]

/-- Byte `t` of what an access of `n` bytes stores, in either order (20_memory.md R43, log 15). -/
theorem toBytes_getElem? (o : ByteOrder) (n t : Nat) (v : Word) (ht : t < n) :
    (toBytes o n v)[t]? =
      some (match o with | .little => byteOf v t | .big => byteOf v (n - 1 - t)) := by
  cases o with
  | little => exact bytesLE_getElem? n t v ht
  | big =>
    simp only [toBytes]
    rw [List.getElem?_reverse (by simpa using ht), bytesLE_length]
    exact bytesLE_getElem? n _ v (by omega)

/-- A bit of the word of a little-endian byte list. -/
theorem wordLE_getLsbD (bs : List Byte) (b : Nat) :
    (wordLE bs).getLsbD b = (decide (b < 32) && (bs.getD (b / 8) 0).getLsbD (b % 8)) := by
  induction bs generalizing b with
  | nil => simp [wordLE]
  | cons x xs ih =>
    simp only [wordLE, BitVec.getLsbD_or, BitVec.getLsbD_setWidth, BitVec.getLsbD_shiftLeft, ih]
    by_cases h32 : b < 32
    · by_cases h8 : b < 8
      · simp [h32, h8, Nat.div_eq_of_lt h8, Nat.mod_eq_of_lt h8]
      · obtain ⟨c, rfl⟩ : ∃ c, b = c + 8 := ⟨b - 8, by omega⟩
        have h1 : (c + 8) / 8 = c / 8 + 1 := by omega
        have h2 : (c + 8) % 8 = c % 8 := by omega
        have h3 : c < 32 := by omega
        simp [h32, h1, h2, h3]
    · simp [h32]

@[simp] theorem Memory.getBytes_length (m : Memory) (free : Word) (j n : Nat) :
    (Memory.getBytes m free j n).length = n := by simp [Memory.getBytes]

theorem Memory.getBytes_getElem? (m : Memory) (free : Word) (j n t : Nat) (ht : t < n) :
    (Memory.getBytes m free j n)[t]? = some ((Memory.get? m (j + t)).getD (byteOf free t)) := by
  simp [Memory.getBytes, ht]

end Sys2Proof.Machine
end

