-- ==== Sys2Proof/Laws/State.lean ====
section
/-! SUPPORT. What each named update of the state leaves in each field: one lemma per field per update,
so that no later proof unfolds a record update. -/

namespace Sys2Proof.Machine

/-! ### State.nextDraw -/

@[simp] theorem State.nextDraw_ctrlTo (s : State) : s.nextDraw.ctrlTo = s.ctrlTo := rfl
@[simp] theorem State.nextDraw_ctrlFrom (s : State) : s.nextDraw.ctrlFrom = s.ctrlFrom := rfl
@[simp] theorem State.nextDraw_amount (s : State) : s.nextDraw.amount = s.amount := rfl
@[simp] theorem State.nextDraw_user (s : State) : s.nextDraw.user = s.user := rfl
@[simp] theorem State.nextDraw_userWritten (s : State) : s.nextDraw.userWritten = s.userWritten := rfl
@[simp] theorem State.nextDraw_fifoIn (s : State) : s.nextDraw.fifoIn = s.fifoIn := rfl
@[simp] theorem State.nextDraw_fifoOut (s : State) : s.nextDraw.fifoOut = s.fifoOut := rfl
@[simp] theorem State.nextDraw_bufIn (s : State) : s.nextDraw.bufIn = s.bufIn := rfl
@[simp] theorem State.nextDraw_bufOut (s : State) : s.nextDraw.bufOut = s.bufOut := rfl
@[simp] theorem State.nextDraw_inBusy (s : State) : s.nextDraw.inBusy = s.inBusy := rfl
@[simp] theorem State.nextDraw_inTarget (s : State) : s.nextDraw.inTarget = s.inTarget := rfl
@[simp] theorem State.nextDraw_inCopied (s : State) : s.nextDraw.inCopied = s.inCopied := rfl
@[simp] theorem State.nextDraw_outBusy (s : State) : s.nextDraw.outBusy = s.outBusy := rfl
@[simp] theorem State.nextDraw_outCopied (s : State) : s.nextDraw.outCopied = s.outCopied := rfl
@[simp] theorem State.nextDraw_fault (s : State) : s.nextDraw.fault = s.fault := rfl
@[simp] theorem State.nextDraw_cfg (s : State) : s.nextDraw.cfg = s.cfg := rfl
@[simp] theorem State.nextDraw_draws (s : State) : s.nextDraw.draws = s.draws + 1 := rfl
@[simp] theorem State.nextDraw_turns (s : State) : s.nextDraw.turns = s.turns := rfl
@[simp] theorem State.nextDraw_hostPort (s : State) : s.nextDraw.hostPort = s.hostPort := rfl
@[simp] theorem State.nextDraw_devPort (s : State) : s.nextDraw.devPort = s.devPort := rfl
@[simp] theorem State.nextDraw_proc (s : State) : s.nextDraw.proc = s.proc := rfl
@[simp] theorem State.nextDraw_hostResp (s : State) : s.nextDraw.hostResp = s.hostResp := rfl
@[simp] theorem State.nextDraw_devResp (s : State) : s.nextDraw.devResp = s.devResp := rfl

/-! ### State.mark -/

@[simp] theorem State.mark_ctrlTo (r : FaultMark) (s : State) : (s.mark r).ctrlTo = s.ctrlTo := rfl
@[simp] theorem State.mark_ctrlFrom (r : FaultMark) (s : State) : (s.mark r).ctrlFrom = s.ctrlFrom := rfl
@[simp] theorem State.mark_amount (r : FaultMark) (s : State) : (s.mark r).amount = s.amount := rfl
@[simp] theorem State.mark_user (r : FaultMark) (s : State) : (s.mark r).user = s.user := rfl
@[simp] theorem State.mark_userWritten (r : FaultMark) (s : State) : (s.mark r).userWritten = s.userWritten := rfl
@[simp] theorem State.mark_fifoIn (r : FaultMark) (s : State) : (s.mark r).fifoIn = s.fifoIn := rfl
@[simp] theorem State.mark_fifoOut (r : FaultMark) (s : State) : (s.mark r).fifoOut = s.fifoOut := rfl
@[simp] theorem State.mark_bufIn (r : FaultMark) (s : State) : (s.mark r).bufIn = s.bufIn := rfl
@[simp] theorem State.mark_bufOut (r : FaultMark) (s : State) : (s.mark r).bufOut = s.bufOut := rfl
@[simp] theorem State.mark_inBusy (r : FaultMark) (s : State) : (s.mark r).inBusy = s.inBusy := rfl
@[simp] theorem State.mark_inTarget (r : FaultMark) (s : State) : (s.mark r).inTarget = s.inTarget := rfl
@[simp] theorem State.mark_inCopied (r : FaultMark) (s : State) : (s.mark r).inCopied = s.inCopied := rfl
@[simp] theorem State.mark_outBusy (r : FaultMark) (s : State) : (s.mark r).outBusy = s.outBusy := rfl
@[simp] theorem State.mark_outCopied (r : FaultMark) (s : State) : (s.mark r).outCopied = s.outCopied := rfl
@[simp] theorem State.mark_fault (r : FaultMark) (s : State) : (s.mark r).fault = some (s.fault.getD r) := rfl
@[simp] theorem State.mark_cfg (r : FaultMark) (s : State) : (s.mark r).cfg = s.cfg := rfl
@[simp] theorem State.mark_draws (r : FaultMark) (s : State) : (s.mark r).draws = s.draws := rfl
@[simp] theorem State.mark_turns (r : FaultMark) (s : State) : (s.mark r).turns = s.turns := rfl
@[simp] theorem State.mark_hostPort (r : FaultMark) (s : State) : (s.mark r).hostPort = s.hostPort := rfl
@[simp] theorem State.mark_devPort (r : FaultMark) (s : State) : (s.mark r).devPort = s.devPort := rfl
@[simp] theorem State.mark_proc (r : FaultMark) (s : State) : (s.mark r).proc = s.proc := rfl
@[simp] theorem State.mark_hostResp (r : FaultMark) (s : State) : (s.mark r).hostResp = s.hostResp := rfl
@[simp] theorem State.mark_devResp (r : FaultMark) (s : State) : (s.mark r).devResp = s.devResp := rfl

/-! ### State.respond -/

@[simp] theorem State.respond_ctrlTo (r : HostResp) (s : State) : (s.respond r).ctrlTo = s.ctrlTo := rfl
@[simp] theorem State.respond_ctrlFrom (r : HostResp) (s : State) : (s.respond r).ctrlFrom = s.ctrlFrom := rfl
@[simp] theorem State.respond_amount (r : HostResp) (s : State) : (s.respond r).amount = s.amount := rfl
@[simp] theorem State.respond_user (r : HostResp) (s : State) : (s.respond r).user = s.user := rfl
@[simp] theorem State.respond_userWritten (r : HostResp) (s : State) : (s.respond r).userWritten = s.userWritten := rfl
@[simp] theorem State.respond_fifoIn (r : HostResp) (s : State) : (s.respond r).fifoIn = s.fifoIn := rfl
@[simp] theorem State.respond_fifoOut (r : HostResp) (s : State) : (s.respond r).fifoOut = s.fifoOut := rfl
@[simp] theorem State.respond_bufIn (r : HostResp) (s : State) : (s.respond r).bufIn = s.bufIn := rfl
@[simp] theorem State.respond_bufOut (r : HostResp) (s : State) : (s.respond r).bufOut = s.bufOut := rfl
@[simp] theorem State.respond_inBusy (r : HostResp) (s : State) : (s.respond r).inBusy = s.inBusy := rfl
@[simp] theorem State.respond_inTarget (r : HostResp) (s : State) : (s.respond r).inTarget = s.inTarget := rfl
@[simp] theorem State.respond_inCopied (r : HostResp) (s : State) : (s.respond r).inCopied = s.inCopied := rfl
@[simp] theorem State.respond_outBusy (r : HostResp) (s : State) : (s.respond r).outBusy = s.outBusy := rfl
@[simp] theorem State.respond_outCopied (r : HostResp) (s : State) : (s.respond r).outCopied = s.outCopied := rfl
@[simp] theorem State.respond_fault (r : HostResp) (s : State) : (s.respond r).fault = s.fault := rfl
@[simp] theorem State.respond_cfg (r : HostResp) (s : State) : (s.respond r).cfg = s.cfg := rfl
@[simp] theorem State.respond_draws (r : HostResp) (s : State) : (s.respond r).draws = s.draws := rfl
@[simp] theorem State.respond_turns (r : HostResp) (s : State) : (s.respond r).turns = s.turns := rfl
@[simp] theorem State.respond_hostPort (r : HostResp) (s : State) : (s.respond r).hostPort = s.hostPort := rfl
@[simp] theorem State.respond_devPort (r : HostResp) (s : State) : (s.respond r).devPort = s.devPort := rfl
@[simp] theorem State.respond_proc (r : HostResp) (s : State) : (s.respond r).proc = s.proc := rfl
@[simp] theorem State.respond_hostResp (r : HostResp) (s : State) : (s.respond r).hostResp = r := rfl
@[simp] theorem State.respond_devResp (r : HostResp) (s : State) : (s.respond r).devResp = s.devResp := rfl

/-! ### State.respondDev -/

@[simp] theorem State.respondDev_ctrlTo (r : DevResp) (s : State) : (s.respondDev r).ctrlTo = s.ctrlTo := rfl
@[simp] theorem State.respondDev_ctrlFrom (r : DevResp) (s : State) : (s.respondDev r).ctrlFrom = s.ctrlFrom := rfl
@[simp] theorem State.respondDev_amount (r : DevResp) (s : State) : (s.respondDev r).amount = s.amount := rfl
@[simp] theorem State.respondDev_user (r : DevResp) (s : State) : (s.respondDev r).user = s.user := rfl
@[simp] theorem State.respondDev_userWritten (r : DevResp) (s : State) : (s.respondDev r).userWritten = s.userWritten := rfl
@[simp] theorem State.respondDev_fifoIn (r : DevResp) (s : State) : (s.respondDev r).fifoIn = s.fifoIn := rfl
@[simp] theorem State.respondDev_fifoOut (r : DevResp) (s : State) : (s.respondDev r).fifoOut = s.fifoOut := rfl
@[simp] theorem State.respondDev_bufIn (r : DevResp) (s : State) : (s.respondDev r).bufIn = s.bufIn := rfl
@[simp] theorem State.respondDev_bufOut (r : DevResp) (s : State) : (s.respondDev r).bufOut = s.bufOut := rfl
@[simp] theorem State.respondDev_inBusy (r : DevResp) (s : State) : (s.respondDev r).inBusy = s.inBusy := rfl
@[simp] theorem State.respondDev_inTarget (r : DevResp) (s : State) : (s.respondDev r).inTarget = s.inTarget := rfl
@[simp] theorem State.respondDev_inCopied (r : DevResp) (s : State) : (s.respondDev r).inCopied = s.inCopied := rfl
@[simp] theorem State.respondDev_outBusy (r : DevResp) (s : State) : (s.respondDev r).outBusy = s.outBusy := rfl
@[simp] theorem State.respondDev_outCopied (r : DevResp) (s : State) : (s.respondDev r).outCopied = s.outCopied := rfl
@[simp] theorem State.respondDev_fault (r : DevResp) (s : State) : (s.respondDev r).fault = s.fault := rfl
@[simp] theorem State.respondDev_cfg (r : DevResp) (s : State) : (s.respondDev r).cfg = s.cfg := rfl
@[simp] theorem State.respondDev_draws (r : DevResp) (s : State) : (s.respondDev r).draws = s.draws := rfl
@[simp] theorem State.respondDev_turns (r : DevResp) (s : State) : (s.respondDev r).turns = s.turns := rfl
@[simp] theorem State.respondDev_hostPort (r : DevResp) (s : State) : (s.respondDev r).hostPort = s.hostPort := rfl
@[simp] theorem State.respondDev_devPort (r : DevResp) (s : State) : (s.respondDev r).devPort = s.devPort := rfl
@[simp] theorem State.respondDev_proc (r : DevResp) (s : State) : (s.respondDev r).proc = s.proc := rfl
@[simp] theorem State.respondDev_hostResp (r : DevResp) (s : State) : (s.respondDev r).hostResp = s.hostResp := rfl
@[simp] theorem State.respondDev_devResp (r : DevResp) (s : State) : (s.respondDev r).devResp = r := rfl

/-! ### writeUser -/

@[simp] theorem writeUser_ctrlTo (i : Fin 6) (v : Word) (s : State) : (writeUser i v s).ctrlTo = s.ctrlTo := rfl
@[simp] theorem writeUser_ctrlFrom (i : Fin 6) (v : Word) (s : State) : (writeUser i v s).ctrlFrom = s.ctrlFrom := rfl
@[simp] theorem writeUser_amount (i : Fin 6) (v : Word) (s : State) : (writeUser i v s).amount = s.amount := rfl
@[simp] theorem writeUser_user (i : Fin 6) (v : Word) (s : State) : (writeUser i v s).user = s.user.set i v := rfl
@[simp] theorem writeUser_userWritten (i : Fin 6) (v : Word) (s : State) : (writeUser i v s).userWritten = s.userWritten.set i true := rfl
@[simp] theorem writeUser_fifoIn (i : Fin 6) (v : Word) (s : State) : (writeUser i v s).fifoIn = s.fifoIn := rfl
@[simp] theorem writeUser_fifoOut (i : Fin 6) (v : Word) (s : State) : (writeUser i v s).fifoOut = s.fifoOut := rfl
@[simp] theorem writeUser_bufIn (i : Fin 6) (v : Word) (s : State) : (writeUser i v s).bufIn = s.bufIn := rfl
@[simp] theorem writeUser_bufOut (i : Fin 6) (v : Word) (s : State) : (writeUser i v s).bufOut = s.bufOut := rfl
@[simp] theorem writeUser_inBusy (i : Fin 6) (v : Word) (s : State) : (writeUser i v s).inBusy = s.inBusy := rfl
@[simp] theorem writeUser_inTarget (i : Fin 6) (v : Word) (s : State) : (writeUser i v s).inTarget = s.inTarget := rfl
@[simp] theorem writeUser_inCopied (i : Fin 6) (v : Word) (s : State) : (writeUser i v s).inCopied = s.inCopied := rfl
@[simp] theorem writeUser_outBusy (i : Fin 6) (v : Word) (s : State) : (writeUser i v s).outBusy = s.outBusy := rfl
@[simp] theorem writeUser_outCopied (i : Fin 6) (v : Word) (s : State) : (writeUser i v s).outCopied = s.outCopied := rfl
@[simp] theorem writeUser_fault (i : Fin 6) (v : Word) (s : State) : (writeUser i v s).fault = s.fault := rfl
@[simp] theorem writeUser_cfg (i : Fin 6) (v : Word) (s : State) : (writeUser i v s).cfg = s.cfg := rfl
@[simp] theorem writeUser_draws (i : Fin 6) (v : Word) (s : State) : (writeUser i v s).draws = s.draws := rfl
@[simp] theorem writeUser_turns (i : Fin 6) (v : Word) (s : State) : (writeUser i v s).turns = s.turns := rfl
@[simp] theorem writeUser_hostPort (i : Fin 6) (v : Word) (s : State) : (writeUser i v s).hostPort = s.hostPort := rfl
@[simp] theorem writeUser_devPort (i : Fin 6) (v : Word) (s : State) : (writeUser i v s).devPort = s.devPort := rfl
@[simp] theorem writeUser_proc (i : Fin 6) (v : Word) (s : State) : (writeUser i v s).proc = s.proc := rfl
@[simp] theorem writeUser_hostResp (i : Fin 6) (v : Word) (s : State) : (writeUser i v s).hostResp = s.hostResp := rfl
@[simp] theorem writeUser_devResp (i : Fin 6) (v : Word) (s : State) : (writeUser i v s).devResp = s.devResp := rfl

/-! ### writeAmount -/

@[simp] theorem writeAmount_ctrlTo (v : Word) (s : State) : (writeAmount v s).ctrlTo = s.ctrlTo := rfl
@[simp] theorem writeAmount_ctrlFrom (v : Word) (s : State) : (writeAmount v s).ctrlFrom = s.ctrlFrom := rfl
@[simp] theorem writeAmount_amount (v : Word) (s : State) : (writeAmount v s).amount = BitVec.ofNat 16 (v.toNat % 2 ^ s.cfg.amountW) := rfl
@[simp] theorem writeAmount_user (v : Word) (s : State) : (writeAmount v s).user = s.user := rfl
@[simp] theorem writeAmount_userWritten (v : Word) (s : State) : (writeAmount v s).userWritten = s.userWritten := rfl
@[simp] theorem writeAmount_fifoIn (v : Word) (s : State) : (writeAmount v s).fifoIn = s.fifoIn := rfl
@[simp] theorem writeAmount_fifoOut (v : Word) (s : State) : (writeAmount v s).fifoOut = s.fifoOut := rfl
@[simp] theorem writeAmount_bufIn (v : Word) (s : State) : (writeAmount v s).bufIn = s.bufIn := rfl
@[simp] theorem writeAmount_bufOut (v : Word) (s : State) : (writeAmount v s).bufOut = s.bufOut := rfl
@[simp] theorem writeAmount_inBusy (v : Word) (s : State) : (writeAmount v s).inBusy = s.inBusy := rfl
@[simp] theorem writeAmount_inTarget (v : Word) (s : State) : (writeAmount v s).inTarget = s.inTarget := rfl
@[simp] theorem writeAmount_inCopied (v : Word) (s : State) : (writeAmount v s).inCopied = s.inCopied := rfl
@[simp] theorem writeAmount_outBusy (v : Word) (s : State) : (writeAmount v s).outBusy = s.outBusy := rfl
@[simp] theorem writeAmount_outCopied (v : Word) (s : State) : (writeAmount v s).outCopied = s.outCopied := rfl
@[simp] theorem writeAmount_fault (v : Word) (s : State) : (writeAmount v s).fault = s.fault := rfl
@[simp] theorem writeAmount_cfg (v : Word) (s : State) : (writeAmount v s).cfg = s.cfg := rfl
@[simp] theorem writeAmount_draws (v : Word) (s : State) : (writeAmount v s).draws = s.draws := rfl
@[simp] theorem writeAmount_turns (v : Word) (s : State) : (writeAmount v s).turns = s.turns := rfl
@[simp] theorem writeAmount_hostPort (v : Word) (s : State) : (writeAmount v s).hostPort = s.hostPort := rfl
@[simp] theorem writeAmount_devPort (v : Word) (s : State) : (writeAmount v s).devPort = s.devPort := rfl
@[simp] theorem writeAmount_proc (v : Word) (s : State) : (writeAmount v s).proc = s.proc := rfl
@[simp] theorem writeAmount_hostResp (v : Word) (s : State) : (writeAmount v s).hostResp = s.hostResp := rfl
@[simp] theorem writeAmount_devResp (v : Word) (s : State) : (writeAmount v s).devResp = s.devResp := rfl

/-! ### storeCtrl -/

@[simp] theorem storeCtrl_ctrlTo (v : Word) (s : State) : (storeCtrl v s).ctrlTo = v.getLsbD s.cfg.ctrlToBit := rfl
@[simp] theorem storeCtrl_ctrlFrom (v : Word) (s : State) : (storeCtrl v s).ctrlFrom = v.getLsbD s.cfg.ctrlFromBit := rfl
@[simp] theorem storeCtrl_amount (v : Word) (s : State) : (storeCtrl v s).amount = s.amount := rfl
@[simp] theorem storeCtrl_user (v : Word) (s : State) : (storeCtrl v s).user = s.user := rfl
@[simp] theorem storeCtrl_userWritten (v : Word) (s : State) : (storeCtrl v s).userWritten = s.userWritten := rfl
@[simp] theorem storeCtrl_fifoIn (v : Word) (s : State) : (storeCtrl v s).fifoIn = s.fifoIn := rfl
@[simp] theorem storeCtrl_fifoOut (v : Word) (s : State) : (storeCtrl v s).fifoOut = s.fifoOut := rfl
@[simp] theorem storeCtrl_bufIn (v : Word) (s : State) : (storeCtrl v s).bufIn = s.bufIn := rfl
@[simp] theorem storeCtrl_bufOut (v : Word) (s : State) : (storeCtrl v s).bufOut = s.bufOut := rfl
@[simp] theorem storeCtrl_inBusy (v : Word) (s : State) : (storeCtrl v s).inBusy = s.inBusy := rfl
@[simp] theorem storeCtrl_inTarget (v : Word) (s : State) : (storeCtrl v s).inTarget = s.inTarget := rfl
@[simp] theorem storeCtrl_inCopied (v : Word) (s : State) : (storeCtrl v s).inCopied = s.inCopied := rfl
@[simp] theorem storeCtrl_outBusy (v : Word) (s : State) : (storeCtrl v s).outBusy = s.outBusy := rfl
@[simp] theorem storeCtrl_outCopied (v : Word) (s : State) : (storeCtrl v s).outCopied = s.outCopied := rfl
@[simp] theorem storeCtrl_fault (v : Word) (s : State) : (storeCtrl v s).fault = s.fault := rfl
@[simp] theorem storeCtrl_cfg (v : Word) (s : State) : (storeCtrl v s).cfg = s.cfg := rfl
@[simp] theorem storeCtrl_draws (v : Word) (s : State) : (storeCtrl v s).draws = s.draws := rfl
@[simp] theorem storeCtrl_turns (v : Word) (s : State) : (storeCtrl v s).turns = s.turns := rfl
@[simp] theorem storeCtrl_hostPort (v : Word) (s : State) : (storeCtrl v s).hostPort = s.hostPort := rfl
@[simp] theorem storeCtrl_devPort (v : Word) (s : State) : (storeCtrl v s).devPort = s.devPort := rfl
@[simp] theorem storeCtrl_proc (v : Word) (s : State) : (storeCtrl v s).proc = s.proc := rfl
@[simp] theorem storeCtrl_hostResp (v : Word) (s : State) : (storeCtrl v s).hostResp = s.hostResp := rfl
@[simp] theorem storeCtrl_devResp (v : Word) (s : State) : (storeCtrl v s).devResp = s.devResp := rfl

/-! ### storeBufIn -/

@[simp] theorem storeBufIn_ctrlTo (n j : Nat) (v : Word) (s : State) : (storeBufIn n j v s).ctrlTo = s.ctrlTo := rfl
@[simp] theorem storeBufIn_ctrlFrom (n j : Nat) (v : Word) (s : State) : (storeBufIn n j v s).ctrlFrom = s.ctrlFrom := rfl
@[simp] theorem storeBufIn_amount (n j : Nat) (v : Word) (s : State) : (storeBufIn n j v s).amount = s.amount := rfl
@[simp] theorem storeBufIn_user (n j : Nat) (v : Word) (s : State) : (storeBufIn n j v s).user = s.user := rfl
@[simp] theorem storeBufIn_userWritten (n j : Nat) (v : Word) (s : State) : (storeBufIn n j v s).userWritten = s.userWritten := rfl
@[simp] theorem storeBufIn_fifoIn (n j : Nat) (v : Word) (s : State) : (storeBufIn n j v s).fifoIn = s.fifoIn := rfl
@[simp] theorem storeBufIn_fifoOut (n j : Nat) (v : Word) (s : State) : (storeBufIn n j v s).fifoOut = s.fifoOut := rfl
@[simp] theorem storeBufIn_bufIn (n j : Nat) (v : Word) (s : State) : (storeBufIn n j v s).bufIn = Memory.store s.bufIn s.cfg.byteOrder j n v := rfl
@[simp] theorem storeBufIn_bufOut (n j : Nat) (v : Word) (s : State) : (storeBufIn n j v s).bufOut = s.bufOut := rfl
@[simp] theorem storeBufIn_inBusy (n j : Nat) (v : Word) (s : State) : (storeBufIn n j v s).inBusy = s.inBusy := rfl
@[simp] theorem storeBufIn_inTarget (n j : Nat) (v : Word) (s : State) : (storeBufIn n j v s).inTarget = s.inTarget := rfl
@[simp] theorem storeBufIn_inCopied (n j : Nat) (v : Word) (s : State) : (storeBufIn n j v s).inCopied = s.inCopied := rfl
@[simp] theorem storeBufIn_outBusy (n j : Nat) (v : Word) (s : State) : (storeBufIn n j v s).outBusy = s.outBusy := rfl
@[simp] theorem storeBufIn_outCopied (n j : Nat) (v : Word) (s : State) : (storeBufIn n j v s).outCopied = s.outCopied := rfl
@[simp] theorem storeBufIn_fault (n j : Nat) (v : Word) (s : State) : (storeBufIn n j v s).fault = s.fault := rfl
@[simp] theorem storeBufIn_cfg (n j : Nat) (v : Word) (s : State) : (storeBufIn n j v s).cfg = s.cfg := rfl
@[simp] theorem storeBufIn_draws (n j : Nat) (v : Word) (s : State) : (storeBufIn n j v s).draws = s.draws := rfl
@[simp] theorem storeBufIn_turns (n j : Nat) (v : Word) (s : State) : (storeBufIn n j v s).turns = s.turns := rfl
@[simp] theorem storeBufIn_hostPort (n j : Nat) (v : Word) (s : State) : (storeBufIn n j v s).hostPort = s.hostPort := rfl
@[simp] theorem storeBufIn_devPort (n j : Nat) (v : Word) (s : State) : (storeBufIn n j v s).devPort = s.devPort := rfl
@[simp] theorem storeBufIn_proc (n j : Nat) (v : Word) (s : State) : (storeBufIn n j v s).proc = s.proc := rfl
@[simp] theorem storeBufIn_hostResp (n j : Nat) (v : Word) (s : State) : (storeBufIn n j v s).hostResp = s.hostResp := rfl
@[simp] theorem storeBufIn_devResp (n j : Nat) (v : Word) (s : State) : (storeBufIn n j v s).devResp = s.devResp := rfl

/-! ### storeBufOut -/

@[simp] theorem storeBufOut_ctrlTo (n j : Nat) (v : Word) (s : State) : (storeBufOut n j v s).ctrlTo = s.ctrlTo := rfl
@[simp] theorem storeBufOut_ctrlFrom (n j : Nat) (v : Word) (s : State) : (storeBufOut n j v s).ctrlFrom = s.ctrlFrom := rfl
@[simp] theorem storeBufOut_amount (n j : Nat) (v : Word) (s : State) : (storeBufOut n j v s).amount = s.amount := rfl
@[simp] theorem storeBufOut_user (n j : Nat) (v : Word) (s : State) : (storeBufOut n j v s).user = s.user := rfl
@[simp] theorem storeBufOut_userWritten (n j : Nat) (v : Word) (s : State) : (storeBufOut n j v s).userWritten = s.userWritten := rfl
@[simp] theorem storeBufOut_fifoIn (n j : Nat) (v : Word) (s : State) : (storeBufOut n j v s).fifoIn = s.fifoIn := rfl
@[simp] theorem storeBufOut_fifoOut (n j : Nat) (v : Word) (s : State) : (storeBufOut n j v s).fifoOut = s.fifoOut := rfl
@[simp] theorem storeBufOut_bufIn (n j : Nat) (v : Word) (s : State) : (storeBufOut n j v s).bufIn = s.bufIn := rfl
@[simp] theorem storeBufOut_bufOut (n j : Nat) (v : Word) (s : State) : (storeBufOut n j v s).bufOut = Memory.store s.bufOut s.cfg.byteOrder j n v := rfl
@[simp] theorem storeBufOut_inBusy (n j : Nat) (v : Word) (s : State) : (storeBufOut n j v s).inBusy = s.inBusy := rfl
@[simp] theorem storeBufOut_inTarget (n j : Nat) (v : Word) (s : State) : (storeBufOut n j v s).inTarget = s.inTarget := rfl
@[simp] theorem storeBufOut_inCopied (n j : Nat) (v : Word) (s : State) : (storeBufOut n j v s).inCopied = s.inCopied := rfl
@[simp] theorem storeBufOut_outBusy (n j : Nat) (v : Word) (s : State) : (storeBufOut n j v s).outBusy = s.outBusy := rfl
@[simp] theorem storeBufOut_outCopied (n j : Nat) (v : Word) (s : State) : (storeBufOut n j v s).outCopied = s.outCopied := rfl
@[simp] theorem storeBufOut_fault (n j : Nat) (v : Word) (s : State) : (storeBufOut n j v s).fault = s.fault := rfl
@[simp] theorem storeBufOut_cfg (n j : Nat) (v : Word) (s : State) : (storeBufOut n j v s).cfg = s.cfg := rfl
@[simp] theorem storeBufOut_draws (n j : Nat) (v : Word) (s : State) : (storeBufOut n j v s).draws = s.draws := rfl
@[simp] theorem storeBufOut_turns (n j : Nat) (v : Word) (s : State) : (storeBufOut n j v s).turns = s.turns := rfl
@[simp] theorem storeBufOut_hostPort (n j : Nat) (v : Word) (s : State) : (storeBufOut n j v s).hostPort = s.hostPort := rfl
@[simp] theorem storeBufOut_devPort (n j : Nat) (v : Word) (s : State) : (storeBufOut n j v s).devPort = s.devPort := rfl
@[simp] theorem storeBufOut_proc (n j : Nat) (v : Word) (s : State) : (storeBufOut n j v s).proc = s.proc := rfl
@[simp] theorem storeBufOut_hostResp (n j : Nat) (v : Word) (s : State) : (storeBufOut n j v s).hostResp = s.hostResp := rfl
@[simp] theorem storeBufOut_devResp (n j : Nat) (v : Word) (s : State) : (storeBufOut n j v s).devResp = s.devResp := rfl

/-! ### pushIn -/

@[simp] theorem pushIn_ctrlTo (w : Word) (s : State) : (pushIn w s).ctrlTo = s.ctrlTo := rfl
@[simp] theorem pushIn_ctrlFrom (w : Word) (s : State) : (pushIn w s).ctrlFrom = s.ctrlFrom := rfl
@[simp] theorem pushIn_amount (w : Word) (s : State) : (pushIn w s).amount = s.amount := rfl
@[simp] theorem pushIn_user (w : Word) (s : State) : (pushIn w s).user = s.user := rfl
@[simp] theorem pushIn_userWritten (w : Word) (s : State) : (pushIn w s).userWritten = s.userWritten := rfl
@[simp] theorem pushIn_fifoIn (w : Word) (s : State) : (pushIn w s).fifoIn = s.fifoIn ++ [w] := rfl
@[simp] theorem pushIn_fifoOut (w : Word) (s : State) : (pushIn w s).fifoOut = s.fifoOut := rfl
@[simp] theorem pushIn_bufIn (w : Word) (s : State) : (pushIn w s).bufIn = s.bufIn := rfl
@[simp] theorem pushIn_bufOut (w : Word) (s : State) : (pushIn w s).bufOut = s.bufOut := rfl
@[simp] theorem pushIn_inBusy (w : Word) (s : State) : (pushIn w s).inBusy = s.inBusy := rfl
@[simp] theorem pushIn_inTarget (w : Word) (s : State) : (pushIn w s).inTarget = s.inTarget := rfl
@[simp] theorem pushIn_inCopied (w : Word) (s : State) : (pushIn w s).inCopied = s.inCopied := rfl
@[simp] theorem pushIn_outBusy (w : Word) (s : State) : (pushIn w s).outBusy = s.outBusy := rfl
@[simp] theorem pushIn_outCopied (w : Word) (s : State) : (pushIn w s).outCopied = s.outCopied := rfl
@[simp] theorem pushIn_fault (w : Word) (s : State) : (pushIn w s).fault = s.fault := rfl
@[simp] theorem pushIn_cfg (w : Word) (s : State) : (pushIn w s).cfg = s.cfg := rfl
@[simp] theorem pushIn_draws (w : Word) (s : State) : (pushIn w s).draws = s.draws := rfl
@[simp] theorem pushIn_turns (w : Word) (s : State) : (pushIn w s).turns = s.turns := rfl
@[simp] theorem pushIn_hostPort (w : Word) (s : State) : (pushIn w s).hostPort = s.hostPort := rfl
@[simp] theorem pushIn_devPort (w : Word) (s : State) : (pushIn w s).devPort = s.devPort := rfl
@[simp] theorem pushIn_proc (w : Word) (s : State) : (pushIn w s).proc = s.proc := rfl
@[simp] theorem pushIn_hostResp (w : Word) (s : State) : (pushIn w s).hostResp = s.hostResp := rfl
@[simp] theorem pushIn_devResp (w : Word) (s : State) : (pushIn w s).devResp = s.devResp := rfl

/-! ### pushOut -/

@[simp] theorem pushOut_ctrlTo (w : Word) (s : State) : (pushOut w s).ctrlTo = s.ctrlTo := rfl
@[simp] theorem pushOut_ctrlFrom (w : Word) (s : State) : (pushOut w s).ctrlFrom = s.ctrlFrom := rfl
@[simp] theorem pushOut_amount (w : Word) (s : State) : (pushOut w s).amount = s.amount := rfl
@[simp] theorem pushOut_user (w : Word) (s : State) : (pushOut w s).user = s.user := rfl
@[simp] theorem pushOut_userWritten (w : Word) (s : State) : (pushOut w s).userWritten = s.userWritten := rfl
@[simp] theorem pushOut_fifoIn (w : Word) (s : State) : (pushOut w s).fifoIn = s.fifoIn := rfl
@[simp] theorem pushOut_fifoOut (w : Word) (s : State) : (pushOut w s).fifoOut = s.fifoOut ++ [w] := rfl
@[simp] theorem pushOut_bufIn (w : Word) (s : State) : (pushOut w s).bufIn = s.bufIn := rfl
@[simp] theorem pushOut_bufOut (w : Word) (s : State) : (pushOut w s).bufOut = s.bufOut := rfl
@[simp] theorem pushOut_inBusy (w : Word) (s : State) : (pushOut w s).inBusy = s.inBusy := rfl
@[simp] theorem pushOut_inTarget (w : Word) (s : State) : (pushOut w s).inTarget = s.inTarget := rfl
@[simp] theorem pushOut_inCopied (w : Word) (s : State) : (pushOut w s).inCopied = s.inCopied := rfl
@[simp] theorem pushOut_outBusy (w : Word) (s : State) : (pushOut w s).outBusy = s.outBusy := rfl
@[simp] theorem pushOut_outCopied (w : Word) (s : State) : (pushOut w s).outCopied = s.outCopied := rfl
@[simp] theorem pushOut_fault (w : Word) (s : State) : (pushOut w s).fault = s.fault := rfl
@[simp] theorem pushOut_cfg (w : Word) (s : State) : (pushOut w s).cfg = s.cfg := rfl
@[simp] theorem pushOut_draws (w : Word) (s : State) : (pushOut w s).draws = s.draws := rfl
@[simp] theorem pushOut_turns (w : Word) (s : State) : (pushOut w s).turns = s.turns := rfl
@[simp] theorem pushOut_hostPort (w : Word) (s : State) : (pushOut w s).hostPort = s.hostPort := rfl
@[simp] theorem pushOut_devPort (w : Word) (s : State) : (pushOut w s).devPort = s.devPort := rfl
@[simp] theorem pushOut_proc (w : Word) (s : State) : (pushOut w s).proc = s.proc := rfl
@[simp] theorem pushOut_hostResp (w : Word) (s : State) : (pushOut w s).hostResp = s.hostResp := rfl
@[simp] theorem pushOut_devResp (w : Word) (s : State) : (pushOut w s).devResp = s.devResp := rfl

/-! ### dropIn -/

@[simp] theorem dropIn_ctrlTo (s : State) : (dropIn s).ctrlTo = s.ctrlTo := rfl
@[simp] theorem dropIn_ctrlFrom (s : State) : (dropIn s).ctrlFrom = s.ctrlFrom := rfl
@[simp] theorem dropIn_amount (s : State) : (dropIn s).amount = s.amount := rfl
@[simp] theorem dropIn_user (s : State) : (dropIn s).user = s.user := rfl
@[simp] theorem dropIn_userWritten (s : State) : (dropIn s).userWritten = s.userWritten := rfl
@[simp] theorem dropIn_fifoIn (s : State) : (dropIn s).fifoIn = s.fifoIn.tail := rfl
@[simp] theorem dropIn_fifoOut (s : State) : (dropIn s).fifoOut = s.fifoOut := rfl
@[simp] theorem dropIn_bufIn (s : State) : (dropIn s).bufIn = s.bufIn := rfl
@[simp] theorem dropIn_bufOut (s : State) : (dropIn s).bufOut = s.bufOut := rfl
@[simp] theorem dropIn_inBusy (s : State) : (dropIn s).inBusy = s.inBusy := rfl
@[simp] theorem dropIn_inTarget (s : State) : (dropIn s).inTarget = s.inTarget := rfl
@[simp] theorem dropIn_inCopied (s : State) : (dropIn s).inCopied = s.inCopied := rfl
@[simp] theorem dropIn_outBusy (s : State) : (dropIn s).outBusy = s.outBusy := rfl
@[simp] theorem dropIn_outCopied (s : State) : (dropIn s).outCopied = s.outCopied := rfl
@[simp] theorem dropIn_fault (s : State) : (dropIn s).fault = s.fault := rfl
@[simp] theorem dropIn_cfg (s : State) : (dropIn s).cfg = s.cfg := rfl
@[simp] theorem dropIn_draws (s : State) : (dropIn s).draws = s.draws := rfl
@[simp] theorem dropIn_turns (s : State) : (dropIn s).turns = s.turns := rfl
@[simp] theorem dropIn_hostPort (s : State) : (dropIn s).hostPort = s.hostPort := rfl
@[simp] theorem dropIn_devPort (s : State) : (dropIn s).devPort = s.devPort := rfl
@[simp] theorem dropIn_proc (s : State) : (dropIn s).proc = s.proc := rfl
@[simp] theorem dropIn_hostResp (s : State) : (dropIn s).hostResp = s.hostResp := rfl
@[simp] theorem dropIn_devResp (s : State) : (dropIn s).devResp = s.devResp := rfl

/-! ### dropOut -/

@[simp] theorem dropOut_ctrlTo (s : State) : (dropOut s).ctrlTo = s.ctrlTo := rfl
@[simp] theorem dropOut_ctrlFrom (s : State) : (dropOut s).ctrlFrom = s.ctrlFrom := rfl
@[simp] theorem dropOut_amount (s : State) : (dropOut s).amount = s.amount := rfl
@[simp] theorem dropOut_user (s : State) : (dropOut s).user = s.user := rfl
@[simp] theorem dropOut_userWritten (s : State) : (dropOut s).userWritten = s.userWritten := rfl
@[simp] theorem dropOut_fifoIn (s : State) : (dropOut s).fifoIn = s.fifoIn := rfl
@[simp] theorem dropOut_fifoOut (s : State) : (dropOut s).fifoOut = s.fifoOut.tail := rfl
@[simp] theorem dropOut_bufIn (s : State) : (dropOut s).bufIn = s.bufIn := rfl
@[simp] theorem dropOut_bufOut (s : State) : (dropOut s).bufOut = s.bufOut := rfl
@[simp] theorem dropOut_inBusy (s : State) : (dropOut s).inBusy = s.inBusy := rfl
@[simp] theorem dropOut_inTarget (s : State) : (dropOut s).inTarget = s.inTarget := rfl
@[simp] theorem dropOut_inCopied (s : State) : (dropOut s).inCopied = s.inCopied := rfl
@[simp] theorem dropOut_outBusy (s : State) : (dropOut s).outBusy = s.outBusy := rfl
@[simp] theorem dropOut_outCopied (s : State) : (dropOut s).outCopied = s.outCopied := rfl
@[simp] theorem dropOut_fault (s : State) : (dropOut s).fault = s.fault := rfl
@[simp] theorem dropOut_cfg (s : State) : (dropOut s).cfg = s.cfg := rfl
@[simp] theorem dropOut_draws (s : State) : (dropOut s).draws = s.draws := rfl
@[simp] theorem dropOut_turns (s : State) : (dropOut s).turns = s.turns := rfl
@[simp] theorem dropOut_hostPort (s : State) : (dropOut s).hostPort = s.hostPort := rfl
@[simp] theorem dropOut_devPort (s : State) : (dropOut s).devPort = s.devPort := rfl
@[simp] theorem dropOut_proc (s : State) : (dropOut s).proc = s.proc := rfl
@[simp] theorem dropOut_hostResp (s : State) : (dropOut s).hostResp = s.hostResp := rfl
@[simp] theorem dropOut_devResp (s : State) : (dropOut s).devResp = s.devResp := rfl

/-! ### raceIf: the fields it never writes -/

@[simp] theorem raceIf_ctrlTo (b : Bool) (s : State) : (raceIf b s).ctrlTo = s.ctrlTo := by
  unfold raceIf; repeat' split
  all_goals rfl
@[simp] theorem raceIf_ctrlFrom (b : Bool) (s : State) : (raceIf b s).ctrlFrom = s.ctrlFrom := by
  unfold raceIf; repeat' split
  all_goals rfl
@[simp] theorem raceIf_amount (b : Bool) (s : State) : (raceIf b s).amount = s.amount := by
  unfold raceIf; repeat' split
  all_goals rfl
@[simp] theorem raceIf_user (b : Bool) (s : State) : (raceIf b s).user = s.user := by
  unfold raceIf; repeat' split
  all_goals rfl
@[simp] theorem raceIf_userWritten (b : Bool) (s : State) : (raceIf b s).userWritten = s.userWritten := by
  unfold raceIf; repeat' split
  all_goals rfl
@[simp] theorem raceIf_fifoIn (b : Bool) (s : State) : (raceIf b s).fifoIn = s.fifoIn := by
  unfold raceIf; repeat' split
  all_goals rfl
@[simp] theorem raceIf_fifoOut (b : Bool) (s : State) : (raceIf b s).fifoOut = s.fifoOut := by
  unfold raceIf; repeat' split
  all_goals rfl
@[simp] theorem raceIf_bufIn (b : Bool) (s : State) : (raceIf b s).bufIn = s.bufIn := by
  unfold raceIf; repeat' split
  all_goals rfl
@[simp] theorem raceIf_bufOut (b : Bool) (s : State) : (raceIf b s).bufOut = s.bufOut := by
  unfold raceIf; repeat' split
  all_goals rfl
@[simp] theorem raceIf_inBusy (b : Bool) (s : State) : (raceIf b s).inBusy = s.inBusy := by
  unfold raceIf; repeat' split
  all_goals rfl
@[simp] theorem raceIf_inTarget (b : Bool) (s : State) : (raceIf b s).inTarget = s.inTarget := by
  unfold raceIf; repeat' split
  all_goals rfl
@[simp] theorem raceIf_inCopied (b : Bool) (s : State) : (raceIf b s).inCopied = s.inCopied := by
  unfold raceIf; repeat' split
  all_goals rfl
@[simp] theorem raceIf_outBusy (b : Bool) (s : State) : (raceIf b s).outBusy = s.outBusy := by
  unfold raceIf; repeat' split
  all_goals rfl
@[simp] theorem raceIf_outCopied (b : Bool) (s : State) : (raceIf b s).outCopied = s.outCopied := by
  unfold raceIf; repeat' split
  all_goals rfl
@[simp] theorem raceIf_cfg (b : Bool) (s : State) : (raceIf b s).cfg = s.cfg := by
  unfold raceIf; repeat' split
  all_goals rfl
@[simp] theorem raceIf_draws (b : Bool) (s : State) : (raceIf b s).draws = s.draws := by
  unfold raceIf; repeat' split
  all_goals rfl
@[simp] theorem raceIf_turns (b : Bool) (s : State) : (raceIf b s).turns = s.turns := by
  unfold raceIf; repeat' split
  all_goals rfl
@[simp] theorem raceIf_hostPort (b : Bool) (s : State) : (raceIf b s).hostPort = s.hostPort := by
  unfold raceIf; repeat' split
  all_goals rfl
@[simp] theorem raceIf_devPort (b : Bool) (s : State) : (raceIf b s).devPort = s.devPort := by
  unfold raceIf; repeat' split
  all_goals rfl
@[simp] theorem raceIf_proc (b : Bool) (s : State) : (raceIf b s).proc = s.proc := by
  unfold raceIf; repeat' split
  all_goals rfl
@[simp] theorem raceIf_hostResp (b : Bool) (s : State) : (raceIf b s).hostResp = s.hostResp := by
  unfold raceIf; repeat' split
  all_goals rfl
@[simp] theorem raceIf_devResp (b : Bool) (s : State) : (raceIf b s).devResp = s.devResp := by
  unfold raceIf; repeat' split
  all_goals rfl

/-! ### triggerIn: the fields it never writes -/

@[simp] theorem triggerIn_ctrlTo (s : State) : (triggerIn s).ctrlTo = s.ctrlTo := by
  unfold triggerIn; repeat' split
  all_goals rfl
@[simp] theorem triggerIn_ctrlFrom (s : State) : (triggerIn s).ctrlFrom = s.ctrlFrom := by
  unfold triggerIn; repeat' split
  all_goals rfl
@[simp] theorem triggerIn_amount (s : State) : (triggerIn s).amount = s.amount := by
  unfold triggerIn; repeat' split
  all_goals rfl
@[simp] theorem triggerIn_user (s : State) : (triggerIn s).user = s.user := by
  unfold triggerIn; repeat' split
  all_goals rfl
@[simp] theorem triggerIn_userWritten (s : State) : (triggerIn s).userWritten = s.userWritten := by
  unfold triggerIn; repeat' split
  all_goals rfl
@[simp] theorem triggerIn_fifoIn (s : State) : (triggerIn s).fifoIn = s.fifoIn := by
  unfold triggerIn; repeat' split
  all_goals rfl
@[simp] theorem triggerIn_fifoOut (s : State) : (triggerIn s).fifoOut = s.fifoOut := by
  unfold triggerIn; repeat' split
  all_goals rfl
@[simp] theorem triggerIn_bufIn (s : State) : (triggerIn s).bufIn = s.bufIn := by
  unfold triggerIn; repeat' split
  all_goals rfl
@[simp] theorem triggerIn_bufOut (s : State) : (triggerIn s).bufOut = s.bufOut := by
  unfold triggerIn; repeat' split
  all_goals rfl
@[simp] theorem triggerIn_outBusy (s : State) : (triggerIn s).outBusy = s.outBusy := by
  unfold triggerIn; repeat' split
  all_goals rfl
@[simp] theorem triggerIn_outCopied (s : State) : (triggerIn s).outCopied = s.outCopied := by
  unfold triggerIn; repeat' split
  all_goals rfl
@[simp] theorem triggerIn_cfg (s : State) : (triggerIn s).cfg = s.cfg := by
  unfold triggerIn; repeat' split
  all_goals rfl
@[simp] theorem triggerIn_draws (s : State) : (triggerIn s).draws = s.draws := by
  unfold triggerIn; repeat' split
  all_goals rfl
@[simp] theorem triggerIn_turns (s : State) : (triggerIn s).turns = s.turns := by
  unfold triggerIn; repeat' split
  all_goals rfl
@[simp] theorem triggerIn_hostPort (s : State) : (triggerIn s).hostPort = s.hostPort := by
  unfold triggerIn; repeat' split
  all_goals rfl
@[simp] theorem triggerIn_devPort (s : State) : (triggerIn s).devPort = s.devPort := by
  unfold triggerIn; repeat' split
  all_goals rfl
@[simp] theorem triggerIn_proc (s : State) : (triggerIn s).proc = s.proc := by
  unfold triggerIn; repeat' split
  all_goals rfl
@[simp] theorem triggerIn_hostResp (s : State) : (triggerIn s).hostResp = s.hostResp := by
  unfold triggerIn; repeat' split
  all_goals rfl
@[simp] theorem triggerIn_devResp (s : State) : (triggerIn s).devResp = s.devResp := by
  unfold triggerIn; repeat' split
  all_goals rfl

/-! ### triggerOut: the fields it never writes -/

@[simp] theorem triggerOut_ctrlTo (s : State) : (triggerOut s).ctrlTo = s.ctrlTo := by
  unfold triggerOut; repeat' split
  all_goals rfl
@[simp] theorem triggerOut_ctrlFrom (s : State) : (triggerOut s).ctrlFrom = s.ctrlFrom := by
  unfold triggerOut; repeat' split
  all_goals rfl
@[simp] theorem triggerOut_amount (s : State) : (triggerOut s).amount = s.amount := by
  unfold triggerOut; repeat' split
  all_goals rfl
@[simp] theorem triggerOut_user (s : State) : (triggerOut s).user = s.user := by
  unfold triggerOut; repeat' split
  all_goals rfl
@[simp] theorem triggerOut_userWritten (s : State) : (triggerOut s).userWritten = s.userWritten := by
  unfold triggerOut; repeat' split
  all_goals rfl
@[simp] theorem triggerOut_fifoIn (s : State) : (triggerOut s).fifoIn = s.fifoIn := by
  unfold triggerOut; repeat' split
  all_goals rfl
@[simp] theorem triggerOut_fifoOut (s : State) : (triggerOut s).fifoOut = s.fifoOut := by
  unfold triggerOut; repeat' split
  all_goals rfl
@[simp] theorem triggerOut_bufIn (s : State) : (triggerOut s).bufIn = s.bufIn := by
  unfold triggerOut; repeat' split
  all_goals rfl
@[simp] theorem triggerOut_bufOut (s : State) : (triggerOut s).bufOut = s.bufOut := by
  unfold triggerOut; repeat' split
  all_goals rfl
@[simp] theorem triggerOut_inBusy (s : State) : (triggerOut s).inBusy = s.inBusy := by
  unfold triggerOut; repeat' split
  all_goals rfl
@[simp] theorem triggerOut_inTarget (s : State) : (triggerOut s).inTarget = s.inTarget := by
  unfold triggerOut; repeat' split
  all_goals rfl
@[simp] theorem triggerOut_inCopied (s : State) : (triggerOut s).inCopied = s.inCopied := by
  unfold triggerOut; repeat' split
  all_goals rfl
@[simp] theorem triggerOut_cfg (s : State) : (triggerOut s).cfg = s.cfg := by
  unfold triggerOut; repeat' split
  all_goals rfl
@[simp] theorem triggerOut_draws (s : State) : (triggerOut s).draws = s.draws := by
  unfold triggerOut; repeat' split
  all_goals rfl
@[simp] theorem triggerOut_turns (s : State) : (triggerOut s).turns = s.turns := by
  unfold triggerOut; repeat' split
  all_goals rfl
@[simp] theorem triggerOut_hostPort (s : State) : (triggerOut s).hostPort = s.hostPort := by
  unfold triggerOut; repeat' split
  all_goals rfl
@[simp] theorem triggerOut_devPort (s : State) : (triggerOut s).devPort = s.devPort := by
  unfold triggerOut; repeat' split
  all_goals rfl
@[simp] theorem triggerOut_proc (s : State) : (triggerOut s).proc = s.proc := by
  unfold triggerOut; repeat' split
  all_goals rfl
@[simp] theorem triggerOut_hostResp (s : State) : (triggerOut s).hostResp = s.hostResp := by
  unfold triggerOut; repeat' split
  all_goals rfl
@[simp] theorem triggerOut_devResp (s : State) : (triggerOut s).devResp = s.devResp := by
  unfold triggerOut; repeat' split
  all_goals rfl

/-! ### What raceIf and the triggers write -/

theorem raceIf_fault (b : Bool) (s : State) :
    (raceIf b s).fault = if b then some (s.fault.getD .windowRace) else s.fault := by
  cases b <;> rfl

/-- Everything a rising COPY_TO_FIFO can do (40_register_access.md R82). -/
theorem triggerIn_cases (s : State) :
    (s.inBusy = true ∧ triggerIn s = s.mark .engineRetrigger)
    ∨ (s.inBusy = false ∧ s.cfg.bufInWords < s.amount.toNat ∧ triggerIn s = s.mark .windowOverrun)
    ∨ (s.inBusy = false ∧ s.amount.toNat ≤ s.cfg.bufInWords
        ∧ triggerIn s = { s with inBusy := true, inTarget := s.amount, inCopied := 0 }) := by
  unfold triggerIn
  cases hb : s.inBusy
  · by_cases h : s.cfg.bufInWords < s.amount.toNat
    · exact .inr (.inl ⟨rfl, h, by simp [h]⟩)
    · exact .inr (.inr ⟨rfl, Nat.le_of_not_lt h, by simp [h]⟩)
  · exact .inl ⟨rfl, by simp⟩

/-- Everything a rising COPY_FROM_FIFO can do (40_register_access.md R82). -/
theorem triggerOut_cases (s : State) :
    (s.outBusy = true ∧ triggerOut s = s.mark .engineRetrigger)
    ∨ (s.outBusy = false ∧ triggerOut s = { s with outBusy := true, outCopied := 0 }) := by
  unfold triggerOut
  cases hb : s.outBusy
  · exact .inr ⟨rfl, by simp⟩
  · exact .inl ⟨rfl, by simp⟩

end Sys2Proof.Machine
end

