-- ==== Sys2Proof/Laws/Fields.lean ====
section
/-! SUPPORT. What the fields of the computed registers and the bytes of a word hold, said once: a flag at
its bit, a count in its field, a byte of an access, and the round trip of bytes and words. -/

namespace Sys2Proof.Machine

/-! ### Flags (42_status_control_mux.md R132) -/

/-- A bit of a flag at its position. -/
theorem flagAt_getLsbD (x : Bool) (k b : Nat) (hb : b < 32) :
    (flagAt x k).getLsbD b = (x && decide (b = k)) := by
  cases x <;> simp only [flagAt, Bool.false_and, Bool.true_and]
  · simp
  · simp only [if_true, BitVec.getLsbD_shiftLeft, BitVec.getLsbD_one, hb, decide_true, Bool.true_and]
    by_cases h : b = k
    · simp [h]
    · by_cases h2 : b < k
      · simp [h2, h]
      · simp [h2, h]; omega

/-- The six status bits are distinct (00_scope.md R5). -/
theorem statusBits_nodup {c : Cfg} (h : cfgOk c = true) :
    [c.stInEmptyBit, c.stInFullBit, c.stInCopyingBit, c.stOutEmptyBit, c.stOutFullBit, c.stOutCopyingBit].Nodup := by
  have := (cfgOk_bits h).status_distinct
  simp only [statusBits, distinct, List.all_cons, List.all_nil, Bool.and_eq_true, bne_iff_ne, and_true] at this
  simp only [List.nodup_cons, List.mem_cons, List.not_mem_nil, or_false, not_or, List.nodup_nil, not_false_eq_true, and_true]
  tauto

/-- A flag decode is the bit at its position. -/
theorem flagOf_eq_bit (c : Cfg) (f : FlagSel) (raw : Word) :
    flagOf c f raw = BitVec.ofBool (raw.getLsbD (flagBit c f)) := by
  ext i hi
  obtain rfl : i = 0 := by omega
  simp [flagOf, BitVec.getElem_ofBool]

/-- What each bit of STATUS holds (10_state.md R15). -/
theorem flag_of_statusWord {s : State} (h : cfgOk s.cfg = true) (f : FlagSel) :
    (statusWord s).getLsbD (flagBit s.cfg f) = match f with
      | .inEmpty => inEmpty s
      | .inFull => inFull s
      | .inCopying => s.inBusy
      | .outEmpty => outEmpty s
      | .outFull => outFull s
      | .outCopying => s.outBusy := by
  have hd := statusBits_nodup h
  have hl : flagBit s.cfg f < 32 := by
    have := (cfgOk_bits h).status_lt
    simp only [statusBits, List.mem_cons, List.not_mem_nil, or_false] at this
    cases f <;> simp [flagBit] <;> apply this <;> simp
  simp only [statusWord, BitVec.getLsbD_or, flagAt_getLsbD _ _ _ hl]
  simp only [List.nodup_cons, List.mem_cons, List.not_mem_nil, or_false, not_or, List.nodup_nil, not_false_eq_true, and_true] at hd
  obtain ⟨⟨a1,a2,a3,a4,a5⟩,⟨b2,b3,b4,b5⟩,⟨d3,d4,d5⟩,⟨e4,e5⟩,f5⟩ := hd
  cases f <;> simp [flagBit, a1,a2,a3,a4,a5,b2,b3,b4,b5,d3,d4,d5,e4,e5,f5, Ne.symm a1, Ne.symm a2, Ne.symm a3, Ne.symm a4, Ne.symm a5, Ne.symm b2, Ne.symm b3, Ne.symm b4, Ne.symm b5, Ne.symm d3, Ne.symm d4, Ne.symm d5, Ne.symm e4, Ne.symm e5, Ne.symm f5]

/-! ### Counts (42_status_control_mux.md R133) -/

/-- A count that fits a window has no bit at `AMOUNT_W` or above. -/
theorem count_high_bits {c : Cfg} (h : cfgOk c = true) (x : Count) (hx : x.toNat ≤ c.bufInWords ∨ x.toNat ≤ c.bufOutWords) : ∀ i, c.amountW ≤ i → x.getLsbD i = false := by
  intro i hi
  have S := cfgOk_sizes h
  have := S.bufIn_max; have := S.bufOut_max
  have : 0 < 2 ^ c.amountW := Nat.two_pow_pos _
  have hlt : x.toNat < 2 ^ c.amountW := by omega
  exact Nat.testBit_lt_two_pow (lt_of_lt_of_le hlt (Nat.pow_le_pow_right (by omega) hi))

/-- A mask that passes every count of `w` bits has each of its low bits. -/
theorem mask_passes_bit {m : Word} {w i : Nat} (hm : m &&& BitVec.ofNat 32 (2 ^ w - 1) = BitVec.ofNat 32 (2 ^ w - 1)) (hi : i < w) (hw : i < 32) : m.getLsbD i = true := by
  have := congrArg (fun v => v.getLsbD i) hm
  simp only [BitVec.getLsbD_and, BitVec.getLsbD_ofNat, Nat.testBit_two_pow_sub_one, hi, hw, decide_true, Bool.and_self, Bool.and_true] at this
  exact this

/-- A count in its field is read back whole, whatever the other field holds. -/
theorem field_of_two (a b : Count) (sa sb wd : Nat) (ma mb : Word)
  (ha : ∀ i, wd ≤ i → a.getLsbD i = false) (hb : ∀ i, wd ≤ i → b.getLsbD i = false)
  (ea : sa + wd ≤ 32)
  (pa : ma &&& BitVec.ofNat 32 (2 ^ wd - 1) = BitVec.ofNat 32 (2 ^ wd - 1))
  (pb : mb &&& BitVec.ofNat 32 (2 ^ wd - 1) = BitVec.ofNat 32 (2 ^ wd - 1))
  (hd : (ma <<< sa) &&& (mb <<< sb) = 0#32) :
  (((b.setWidth 32 <<< sb) ||| (a.setWidth 32 <<< sa) : Word) >>> sa) &&& ma = a.setWidth 32 := by
  apply BitVec.eq_of_getLsbD_eq
  intro i hi
  simp only [BitVec.getLsbD_and, BitVec.getLsbD_ushiftRight, BitVec.getLsbD_or, BitVec.getLsbD_shiftLeft, BitVec.getLsbD_setWidth]
  by_cases hiw : i < wd
  · have h1 : ma.getLsbD i = true := mask_passes_bit pa hiw hi
    have h2 : (decide (sa + i < 32) && !decide (sa + i < sb) && (decide (sa + i - sb < 32) && b.getLsbD (sa + i - sb))) = false := by
      by_contra hc
      simp only [Bool.not_eq_false, Bool.and_eq_true, decide_eq_true_eq, Bool.not_eq_true', decide_eq_false_iff_not] at hc
      obtain ⟨⟨c1, c2⟩, c3, c4⟩ := hc
      have c5 : sa + i - sb < wd := by
        by_contra hh; rw [hb _ (by omega)] at c4; exact absurd c4 (by decide)
      have h3 : mb.getLsbD (sa + i - sb) = true := mask_passes_bit pb c5 c3
      have hz := congrArg (fun v => v.getLsbD (sa + i)) hd
      simp only [BitVec.getLsbD_and, BitVec.getLsbD_shiftLeft, BitVec.getLsbD_zero, h3, Nat.add_sub_cancel_left, h1, c1, decide_true, Bool.true_and, Bool.and_true] at hz
      simp [c2] at hz
    rw [h2, h1]
    simp [show sa + i < 32 by omega, hi]
  · have h1 := ha i (by omega)
    rw [h1]
    by_cases hm : ma.getLsbD i = true
    · have h2 : (decide (sa + i < 32) && !decide (sa + i < sb) && (decide (sa + i - sb < 32) && b.getLsbD (sa + i - sb))) = false := by
        by_contra hc
        simp only [Bool.not_eq_false, Bool.and_eq_true, decide_eq_true_eq, Bool.not_eq_true', decide_eq_false_iff_not] at hc
        obtain ⟨⟨c1, c2⟩, c3, c4⟩ := hc
        have c5 : sa + i - sb < wd := by
          by_contra hh; rw [hb _ (by omega)] at c4; exact absurd c4 (by decide)
        have h3 : mb.getLsbD (sa + i - sb) = true := mask_passes_bit pb c5 c3
        have hz := congrArg (fun v => v.getLsbD (sa + i)) hd
        simp only [BitVec.getLsbD_and, BitVec.getLsbD_shiftLeft, BitVec.getLsbD_zero, h3, Nat.add_sub_cancel_left, hm, c1, decide_true, Bool.true_and, Bool.and_true] at hz
        simp [c2] at hz
      rw [h2]
      simp only [Nat.add_sub_cancel_left, h1, Bool.and_false, Bool.or_false, Bool.false_and]
    · simp [hm]

/-- The input count, read from XFER_STATUS (40_register_access.md R86). -/
theorem countOf_inCopied {s : State} (h : s.Inv) : countOf s.cfg .inCopied (xferWord s) = s.inCopied.setWidth 32 := by
  have B := cfgOk_bits h.cfg_ok
  exact field_of_two _ _ _ _ s.cfg.amountW _ _ (count_high_bits h.cfg_ok _ (.inl (le_trans h.inCopied_le h.inTarget_le))) (count_high_bits h.cfg_ok _ (.inr h.outCopied_le)) B.in_end B.in_passes B.out_passes B.fields_disjoint

/-- The output count, read from XFER_STATUS (40_register_access.md R86). -/
theorem countOf_outCopied {s : State} (h : s.Inv) : countOf s.cfg .outCopied (xferWord s) = s.outCopied.setWidth 32 := by
  have B := cfgOk_bits h.cfg_ok
  have := field_of_two s.outCopied s.inCopied s.cfg.xfOutShift s.cfg.xfInShift s.cfg.amountW s.cfg.xfOutMask s.cfg.xfInMask (count_high_bits h.cfg_ok _ (.inr h.outCopied_le)) (count_high_bits h.cfg_ok _ (.inl (le_trans h.inCopied_le h.inTarget_le))) B.out_end B.out_passes B.in_passes (by rw [BitVec.and_comm]; exact B.fields_disjoint)
  simp only [countOf, xferWord]
  rw [BitVec.or_comm]; exact this

/-! ### Bytes of an access (20_memory.md R43) -/

/-- A byte of a little-endian word. -/
theorem wordLE_extract (bs : List Byte) (k : Nat) (hk : k < 4) : (wordLE bs).extractLsb' (8*k) 8 = bs.getD k 0 := by
  ext i hi
  simp only [BitVec.getElem_extractLsb', wordLE_getLsbD]
  rw [show (8*k+i)/8 = k by omega, show (8*k+i)%8 = i by omega]
  simp [show 8*k+i < 32 by omega, ← BitVec.getLsbD_eq_getElem]

/-- A word of few bytes is small. -/
theorem wordLE_lt (bs : List Byte) : (wordLE bs).toNat < 2 ^ (8 * bs.length) := by
  apply Nat.lt_pow_two_of_testBit
  intro i hi
  have := wordLE_getLsbD bs i
  simp only [BitVec.getLsbD] at this
  rw [this]
  rw [List.getD_eq_getElem?_getD, List.getElem?_eq_none (by omega)]; simp

/-- The low bytes of a word, put together again. -/
theorem wordLE_bytesLE_toNat (n : Nat) (hn : n ≤ 4) (v : Word) : (wordLE (bytesLE n v)).toNat = v.toNat % 2 ^ (8*n) := by
  apply Nat.eq_of_testBit_eq
  intro i
  have := wordLE_getLsbD (bytesLE n v) i
  simp only [BitVec.getLsbD] at this
  rw [this, Nat.testBit_mod_two_pow]
  by_cases h : i < 8 * n
  · rw [List.getD_eq_getElem?_getD, bytesLE_getElem? _ _ _ (by omega)]
    have e : ((byteOf v (i/8)).toNat.testBit (i % 8)) = v.toNat.testBit i := by
      have := BitVec.getLsbD_extractLsb' (start := 8*(i/8)) (len := 8) (x := v) (i := i % 8)
      simp only [BitVec.getLsbD] at this
      rw [show byteOf v (i/8) = v.extractLsb' (8*(i/8)) 8 from rfl, this, show 8*(i/8) + i % 8 = i by omega]
      simp; omega
    simp only [Option.getD_some, h, show i < 32 by omega, decide_true, Bool.true_and]
    exact e
  · rw [List.getD_eq_getElem?_getD, List.getElem?_eq_none (by simp; omega)]; simp [h]

/-- Four bytes, taken apart again. -/
theorem bytesLE_wordLE : ∀ bs : List Byte, bs.length = 4 → bytesLE 4 (wordLE bs) = bs := by
  intro bs h
  apply List.ext_getElem?
  intro k
  by_cases hk : k < 4
  · rw [bytesLE_getElem? _ _ _ hk]
    have := wordLE_extract bs k hk
    rw [show byteOf (wordLE bs) k = (wordLE bs).extractLsb' (8*k) 8 from rfl, this, List.getD_eq_getElem?_getD, List.getElem?_eq_getElem (by omega)]; rfl
  · rw [List.getElem?_eq_none (by simp; omega), List.getElem?_eq_none (by omega)]

/-- Four bytes of an access, in either order, are stored as they were read. -/
theorem toBytes_ofBytes (o : ByteOrder) (bs : List Byte) (h : bs.length = 4) : toBytes o 4 (ofBytes o bs) = bs := by
  cases o
  · exact bytesLE_wordLE bs h
  · simp only [toBytes, ofBytes]; rw [bytesLE_wordLE _ (by simpa)]; simp

/-- The bytes of an access just stored. -/
theorem Memory.getBytes_store (m : Memory) (o : ByteOrder) (free v : Word) (n j : Nat) : Memory.getBytes (m.store o j n v) free j n = toBytes o n v := by
  apply List.ext_getElem? 
  intro t
  by_cases ht : t < n
  · rw [Memory.getBytes_getElem? _ _ _ _ _ ht, Memory.get?_store, if_pos (by omega), show j + t - j = t by omega, toBytes_getElem? o _ _ _ ht]; rfl
  · rw [List.getElem?_eq_none (by simp; omega), List.getElem?_eq_none (by simp; omega)]

end Sys2Proof.Machine
end

