-- ==== Sys2Proof/Laws/Ops.lean ====
section
/-! SUPPORT. What each shared operation can do, said once: the registers a CTRL write leaves, the
primitives' frames, the procedures' moves, and that every command answers a next state. -/

namespace Sys2Proof.Machine

/-! ### CTRL -/

/-- A CTRL write stores the two bits whatever else it does (40_register_access.md R82). -/
theorem writeCtrl_bits (v : Word) (s : State) :
    (writeCtrl v s).ctrlTo = v.getLsbD s.cfg.ctrlToBit
      ∧ (writeCtrl v s).ctrlFrom = v.getLsbD s.cfg.ctrlFromBit := by
  unfold writeCtrl
  constructor <;> (dsimp only; repeat' split) <;> simp

/-- The components a CTRL write never touches (40_register_access.md R98). -/
theorem writeCtrl_frame (v : Word) (s : State) :
    (writeCtrl v s).amount = s.amount ∧ (writeCtrl v s).user = s.user
      ∧ (writeCtrl v s).userWritten = s.userWritten ∧ (writeCtrl v s).fifoIn = s.fifoIn
      ∧ (writeCtrl v s).fifoOut = s.fifoOut ∧ (writeCtrl v s).bufIn = s.bufIn
      ∧ (writeCtrl v s).bufOut = s.bufOut ∧ (writeCtrl v s).cfg = s.cfg
      ∧ (writeCtrl v s).draws = s.draws ∧ (writeCtrl v s).turns = s.turns
      ∧ (writeCtrl v s).hostPort = s.hostPort ∧ (writeCtrl v s).devPort = s.devPort
      ∧ (writeCtrl v s).proc = s.proc ∧ (writeCtrl v s).hostResp = s.hostResp
      ∧ (writeCtrl v s).devResp = s.devResp := by
  unfold writeCtrl
  refine ⟨?_, ?_, ?_, ?_, ?_, ?_, ?_, ?_, ?_, ?_, ?_, ?_, ?_, ?_, ?_⟩ <;>
    (dsimp only; repeat' split) <;> simp

/-- A write that stores 1 over nothing but 1, or 0, only stores the bits (40_register_access.md R82 (a), (b)). -/
theorem writeCtrl_noRise (v : Word) (s : State) (ht : risesTo v s = false) (hf : risesFrom v s = false) :
    writeCtrl v s = storeCtrl v s := by
  simp [writeCtrl, ht, hf]

/-- A write on which only COPY_TO_FIFO rises. -/
theorem writeCtrl_riseTo (v : Word) (s : State) (ht : risesTo v s = true) (hf : risesFrom v s = false) :
    writeCtrl v s = triggerIn (storeCtrl v s) := by
  simp [writeCtrl, ht, hf]

/-- A write on which only COPY_FROM_FIFO rises. -/
theorem writeCtrl_riseFrom (v : Word) (s : State) (ht : risesTo v s = false) (hf : risesFrom v s = true) :
    writeCtrl v s = triggerOut (storeCtrl v s) := by
  simp [writeCtrl, ht, hf]

/-- Bit `b` of the value a read of CTRL returns (40_register_access.md R81). -/
theorem ctrlWord_getLsbD (s : State) (b : Nat) (hb : b < 32) :
    (ctrlWord s).getLsbD b =
      ((s.ctrlFrom && decide (b = s.cfg.ctrlFromBit)) || (s.ctrlTo && decide (b = s.cfg.ctrlToBit))) := by
  have key : ∀ (x : Bool) (k : Nat), (flagAt x k).getLsbD b = (x && decide (b = k)) := by
    intro x k
    cases x <;> simp only [flagAt, Bool.false_and, Bool.true_and]
    · simp
    · simp only [if_true, BitVec.getLsbD_shiftLeft, BitVec.getLsbD_one, hb, decide_true, Bool.true_and]
      by_cases h : b = k
      · simp [h]
      · by_cases h2 : b < k
        · simp [h2, h]
        · simp [h2, h]; omega
  simp [ctrlWord, key]

/-! ### The windows -/

theorem afterReadBufIn_frame (s : State) :
    SameBlockButFault s (afterReadBufIn s) ∧ SameInputs s (afterReadBufIn s) := by
  simp [afterReadBufIn, SameBlockButFault, SameCtrl, SameAmount, SameUsers, SameFifos, SameInEngine,
    SameOutEngine, SameBufIn, SameBufOut, SameInputs]

theorem afterReadBufOut_frame (s : State) :
    SameBlockButFault s (afterReadBufOut s) ∧ SameInputs s (afterReadBufOut s) := by
  simp [afterReadBufOut, SameBlockButFault, SameCtrl, SameAmount, SameUsers, SameFifos, SameInEngine,
    SameOutEngine, SameBufIn, SameBufOut, SameInputs]

@[simp] theorem SameBlock_refl (s : State) : SameBlock s s := by
  simp [SameBlock, SameBlockButFault, SameCtrl, SameAmount, SameUsers, SameFifos, SameInEngine,
    SameOutEngine, SameBufIn, SameBufOut, SameFault]

@[simp] theorem SameInputs_refl (s : State) : SameInputs s s := by simp [SameInputs]

/-! ### Every command answers a next state -/

/-- No meaning stops (NOTES.md '## Stops'). -/
theorem exec_next (i : Instr) (s : State) : ∃ t, exec i s = .next t := by
  cases i
  case setUserReg index value =>
    simp only [exec, execSetUserReg, controlAnswer, errorAnswer]; split <;> exact ⟨_, rfl⟩
  case getUserReg index =>
    simp only [exec, execGetUserReg, controlAnswer, errorAnswer]; split <;> exact ⟨_, rfl⟩
  case busIllegal we size rsv off =>
    simp only [exec, execBusIllegal, readAnswer, writeAnswer]; split <;> exact ⟨_, rfl⟩
  case devPopIn => simp only [exec, execDevPopIn]; split <;> exact ⟨_, rfl⟩
  case devPushOut data => simp only [exec, execDevPushOut]; split <;> exact ⟨_, rfl⟩
  all_goals exact ⟨_, rfl⟩

/-! ### The user-register index -/

/-- A valid index is the number of a user register (43_offset_validation.md R156, R157). -/
theorem userIndexValid_fin {index : Word} (h : userIndexValid index = true) :
    ∃ i : Fin 6, index.toNat = i.val := by
  simp only [userIndexValid, Bool.and_eq_true, decide_eq_true_eq] at h
  have hlt := index.isLt
  have := BitVec.toInt_eq_toNat_cond index
  refine ⟨⟨index.toNat, ?_⟩, rfl⟩
  split at this <;> omega

/-! ### A procedure's move leaves everything but its place and the response -/

@[simp] theorem advance_ctrlTo (p : Proc) (st : ProcStep) (s : State) : (advance p st s).ctrlTo = s.ctrlTo := by
  cases st <;> rfl
@[simp] theorem advance_ctrlFrom (p : Proc) (st : ProcStep) (s : State) : (advance p st s).ctrlFrom = s.ctrlFrom := by
  cases st <;> rfl
@[simp] theorem advance_amount (p : Proc) (st : ProcStep) (s : State) : (advance p st s).amount = s.amount := by
  cases st <;> rfl
@[simp] theorem advance_user (p : Proc) (st : ProcStep) (s : State) : (advance p st s).user = s.user := by
  cases st <;> rfl
@[simp] theorem advance_userWritten (p : Proc) (st : ProcStep) (s : State) : (advance p st s).userWritten = s.userWritten := by
  cases st <;> rfl
@[simp] theorem advance_fifoIn (p : Proc) (st : ProcStep) (s : State) : (advance p st s).fifoIn = s.fifoIn := by
  cases st <;> rfl
@[simp] theorem advance_fifoOut (p : Proc) (st : ProcStep) (s : State) : (advance p st s).fifoOut = s.fifoOut := by
  cases st <;> rfl
@[simp] theorem advance_bufIn (p : Proc) (st : ProcStep) (s : State) : (advance p st s).bufIn = s.bufIn := by
  cases st <;> rfl
@[simp] theorem advance_bufOut (p : Proc) (st : ProcStep) (s : State) : (advance p st s).bufOut = s.bufOut := by
  cases st <;> rfl
@[simp] theorem advance_inBusy (p : Proc) (st : ProcStep) (s : State) : (advance p st s).inBusy = s.inBusy := by
  cases st <;> rfl
@[simp] theorem advance_inTarget (p : Proc) (st : ProcStep) (s : State) : (advance p st s).inTarget = s.inTarget := by
  cases st <;> rfl
@[simp] theorem advance_inCopied (p : Proc) (st : ProcStep) (s : State) : (advance p st s).inCopied = s.inCopied := by
  cases st <;> rfl
@[simp] theorem advance_outBusy (p : Proc) (st : ProcStep) (s : State) : (advance p st s).outBusy = s.outBusy := by
  cases st <;> rfl
@[simp] theorem advance_outCopied (p : Proc) (st : ProcStep) (s : State) : (advance p st s).outCopied = s.outCopied := by
  cases st <;> rfl
@[simp] theorem advance_fault (p : Proc) (st : ProcStep) (s : State) : (advance p st s).fault = s.fault := by
  cases st <;> rfl
@[simp] theorem advance_cfg (p : Proc) (st : ProcStep) (s : State) : (advance p st s).cfg = s.cfg := by
  cases st <;> rfl
@[simp] theorem advance_draws (p : Proc) (st : ProcStep) (s : State) : (advance p st s).draws = s.draws := by
  cases st <;> rfl
@[simp] theorem advance_turns (p : Proc) (st : ProcStep) (s : State) : (advance p st s).turns = s.turns := by
  cases st <;> rfl
@[simp] theorem advance_hostPort (p : Proc) (st : ProcStep) (s : State) : (advance p st s).hostPort = s.hostPort := by
  cases st <;> rfl
@[simp] theorem advance_devPort (p : Proc) (st : ProcStep) (s : State) : (advance p st s).devPort = s.devPort := by
  cases st <;> rfl
@[simp] theorem advance_devResp (p : Proc) (st : ProcStep) (s : State) : (advance p st s).devResp = s.devResp := by
  cases st <;> rfl
@[simp] theorem advance_go_proc (p : Proc) (ph : Phase) (s : State) :
    (advance p (.go ph) s).proc = some { proc := p, phase := ph } := rfl
@[simp] theorem advance_go_hostResp (p : Proc) (ph : Phase) (s : State) :
    (advance p (.go ph) s).hostResp = s.hostResp := rfl
@[simp] theorem advance_done_proc (p : Proc) (r : HostResp) (s : State) :
    (advance p (.done r) s).proc = none := rfl
@[simp] theorem advance_done_hostResp (p : Proc) (r : HostResp) (s : State) :
    (advance p (.done r) s).hostResp = r := rfl

/-! ### Host procedures -/

/-- The accesses of a whole procedure's phase, decoded (44_host_procedures.md R165 to R171). -/
theorem procAccess_decode {c : Cfg} (h : cfgOk c = true) (p : Proc) (ph : Phase) :
    (∀ j, ph = .stage j → j < 4 * c.bufInWords →
      decodeBus c (procAccess c p ph) = .wrBufIn .byte j ((stagedByte p.payload j).setWidth 32))
    ∧ (ph = .setAmount → decodeBus c (procAccess c p ph) = .wrDataAmount (amountOf c p.payload.length))
    ∧ (∀ a, ph = .trigRead a → decodeBus c (procAccess c p ph) = .rdCtrl)
    ∧ (∀ a v, ph = .trigClear a v → decodeBus c (procAccess c p ph) = .wrCtrl (clearVal c a v))
    ∧ (∀ a v, ph = .trigSet a v → decodeBus c (procAccess c p ph) = .wrCtrl (setVal c a v))
    ∧ (∀ a k, ph = .poll a k → decodeBus c (procAccess c p ph) = .rdStatus)
    ∧ (∀ a, ph = .readXfer a → decodeBus c (procAccess c p ph) = .rdXferStatus)
    ∧ (∀ j avail acc, ph = .collect j avail acc → j < 4 * c.bufOutWords →
      decodeBus c (procAccess c p ph) = .rdBufOut .byte j) := by
  refine ⟨?_, ?_, ?_, ?_, ?_, ?_, ?_, ?_⟩
  · rintro j rfl hj; exact decodeBus_wrBufIn h .byte j _ (Nat.mod_one j) hj
  · rintro rfl; exact decodeBus_wrAmount h _
  · rintro a rfl; exact decodeBus_rdCtrl h
  · rintro a v rfl; exact decodeBus_wrCtrl h _
  · rintro a v rfl; exact decodeBus_wrCtrl h _
  · rintro a k rfl; exact decodeBus_rdStatus h
  · rintro a rfl; exact decodeBus_rdXfer h
  · rintro j avail acc rfl hj; exact decodeBus_rdBufOut h .byte j 0 (Nat.mod_one j) hj

end Sys2Proof.Machine
end

