-- ==== Sys2Proof/Laws/Effects.lean ====
section
/-! SUPPORT. What a command, a phase of a procedure and a step can do, said once each, so that a claim
about all of them is a short case analysis. -/

namespace Sys2Proof.Machine

/-! ### Commands -/

/-- The command is one of the coprocessor's port (30_encoding.md R63). -/
def onDevPort : Instr → Bool
  | .devPopIn | .devPushOut _ => true
  | _ => false

/-- What a command leaves. `quiet`: the draw counter, the responses and the fault mark at most, a reason
already marked being kept; every other case is one update of the block. -/
inductive Effect (s : State) : Instr → State → Prop
  | quiet (i : Instr) (d : Nat) (f : Option FaultMark) (r : HostResp) (q : DevResp) :
      (∀ x, s.fault = some x → f = some x) → (onDevPort i = true → f = s.fault) →
      Effect s i { s with draws := d, fault := f, hostResp := r, devResp := q }
  | user (i : Instr) (k : Fin 6) (v : Word) (r : HostResp) : onDevPort i = false →
      Effect s i ((writeUser k v s).respond r)
  | amount (v : Word) : Effect s (.wrDataAmount v) ((writeAmount v s).respond .done)
  | ctrl (v : Word) : Effect s (.wrCtrl v) ((writeCtrl v s).respond .done)
  | bufIn (n : Size) (j : Nat) (v : Word) :
      Effect s (.wrBufIn n j v) ((writeBufIn n.bytes j v s).respond .done)
  | bufOut (n : Size) (j : Nat) (v : Word) :
      Effect s (.wrBufOut n j v) ((writeBufOut n.bytes j v s).respond .done)
  | pop (w : Word) (ws : List Word) : s.fifoIn = w :: ws →
      Effect s .devPopIn ((dropIn s).respondDev (.popped w))
  | push (d : Word) : s.fifoOut.length < s.cfg.fifoOutDepth →
      Effect s (.devPushOut d) ((pushOut d s).respondDev .pushed)

/-- A fault keeps the first reason (10_state.md R30). -/
theorem mark_keeps_reason (f : Option FaultMark) (r : FaultMark) : ∀ x, f = some x → some (f.getD r) = some x := by
  rintro x rfl; rfl

/-- A command that changes nothing of the block. -/
theorem Effect.responses (s : State) (i : Instr) (d : Nat) (r : HostResp) (q : DevResp) :
    Effect s i { s with draws := d, hostResp := r, devResp := q } :=
  Effect.quiet i d s.fault r q (fun _ h => h) (fun _ => rfl)

/-- Every command has one of the effects. -/
theorem exec_effect {i : Instr} {s t : State} (hc : cfgOk s.cfg = true) (h : exec i s = .next t) :
    Effect s i t := by
  cases i
  case wrCtrl v =>
    simp only [exec, execWrCtrl, writeAnswer, Host.Outcome.next.injEq] at h
    subst h
    exact .ctrl v
  case wrDataAmount v =>
    simp only [exec, execWrDataAmount, writeAnswer, Host.Outcome.next.injEq] at h
    subst h
    exact .amount v
  case wrUser0 v =>
    simp only [exec, execWrUser0, writeAnswer, Host.Outcome.next.injEq] at h
    subst h
    exact .user _ _ _ _ rfl
  case wrUser1 v =>
    simp only [exec, execWrUser1, writeAnswer, Host.Outcome.next.injEq] at h
    subst h
    exact .user _ _ _ _ rfl
  case wrUser2 v =>
    simp only [exec, execWrUser2, writeAnswer, Host.Outcome.next.injEq] at h
    subst h
    exact .user _ _ _ _ rfl
  case wrUser3 v =>
    simp only [exec, execWrUser3, writeAnswer, Host.Outcome.next.injEq] at h
    subst h
    exact .user _ _ _ _ rfl
  case wrUser4 v =>
    simp only [exec, execWrUser4, writeAnswer, Host.Outcome.next.injEq] at h
    subst h
    exact .user _ _ _ _ rfl
  case wrUser5 v =>
    simp only [exec, execWrUser5, writeAnswer, Host.Outcome.next.injEq] at h
    subst h
    exact .user _ _ _ _ rfl
  case wrBufIn n j v =>
    simp only [exec, execWrBufIn, writeAnswer, Host.Outcome.next.injEq] at h
    subst h
    exact .bufIn ..
  case wrBufOut n j v =>
    simp only [exec, execWrBufOut, writeAnswer, Host.Outcome.next.injEq] at h
    subst h
    exact .bufOut ..
  case rdBufIn n j =>
    simp only [exec, execRdBufIn, readAnswer, Host.Outcome.next.injEq, afterReadBufIn, raceIf] at h
    subst h
    split
    · exact Effect.quiet _ _ _ _ _ (mark_keeps_reason _ _) (by simp [onDevPort])
    · exact Effect.responses ..
  case rdBufOut n j =>
    simp only [exec, execRdBufOut, readAnswer, Host.Outcome.next.injEq, afterReadBufOut, raceIf] at h
    subst h
    split
    · exact Effect.quiet _ _ _ _ _ (mark_keeps_reason _ _) (by simp [onDevPort])
    · exact Effect.responses ..
  case busIllegal we a b c =>
    simp only [exec, execBusIllegal] at h
    cases we <;> simp only [if_true, if_false, Bool.false_eq_true, readAnswer, writeAnswer, Host.Outcome.next.injEq] at h <;> subst h
    · exact Effect.quiet _ _ _ _ _ (mark_keeps_reason _ _) (by simp [onDevPort])
    · exact Effect.quiet _ _ _ _ _ (mark_keeps_reason _ _) (by simp [onDevPort])
  case setUserReg ix v =>
    by_cases hv : userIndexValid ix = true
    · obtain ⟨k, hk⟩ := userIndexValid_fin hv
      simp only [exec, execSetUserReg, hv, if_true, userOffset, hk, memWrite_user hc, controlAnswer, Host.Outcome.next.injEq] at h
      subst h
      exact .user _ _ _ _ rfl
    · simp only [exec, execSetUserReg, hv, errorAnswer, Bool.false_eq_true, if_false, Host.Outcome.next.injEq] at h
      subst h
      exact Effect.responses ..
  case getUserReg ix =>
    by_cases hv : userIndexValid ix = true
    · obtain ⟨k, hk⟩ := userIndexValid_fin hv
      simp only [exec, execGetUserReg, hv, if_true, userOffset, hk, memRead_user hc, controlAnswer, Host.Outcome.next.injEq] at h
      subst h
      exact Effect.responses ..
    · simp only [exec, execGetUserReg, hv, errorAnswer, Bool.false_eq_true, if_false, Host.Outcome.next.injEq] at h
      subst h
      exact Effect.responses ..
  case devPopIn =>
    simp only [exec, execDevPopIn] at h
    split at h <;> simp only [Host.Outcome.next.injEq] at h <;> subst h
    · exact Effect.responses ..
    · rename_i hf; exact .pop _ _ hf
  case devPushOut d =>
    simp only [exec, execDevPushOut] at h
    split at h <;> simp only [Host.Outcome.next.injEq] at h <;> subst h
    · rename_i hf; exact .push _ hf
    · exact Effect.responses ..
  all_goals
    simp only [exec, execRdCtrl, execRdStatus, execWrStatus, execRdXferStatus, execWrXferStatus, execRdDataAmount, readUser, execRdUser0, execRdUser1, execRdUser2, execRdUser3, execRdUser4, execRdUser5, readAnswer, writeAnswer, execGetFifoInEmpty, execGetFifoInFull, execGetFifoInCopying, execGetFifoInCopiedAmount, execGetFifoOutEmpty, execGetFifoOutFull, execGetFifoOutCopying, execGetFifoOutCopiedAmount, getFlag, getCount, memRead_status hc, memRead_xfer hc, controlAnswer, errorAnswer, execCtlUnknown, Host.Outcome.next.injEq] at h
    subst h
    exact Effect.responses ..

/-- No word of the bus or of the control port is a command of the coprocessor (30_encoding.md R68). -/
theorem decodeBus_onDevPort (c : Cfg) (w : BitVec 64) : 
    onDevPort (decodeBus c w) = false := by
  simp only [decodeBus, busFields]
  split
  · rfl
  · split
    · rfl
    · split
      · generalize decodeTarget _ _ _ = tg; rcases tg with _|_|_|_|i|_|_|_ <;> try rfl
        fin_cases i <;> rfl
      · generalize decodeTarget _ _ _ = tg; rcases tg with _|_|_|_|i|_|_|_ <;> try rfl
        fin_cases i <;> rfl

theorem decodeCtl_onDevPort (w : BitVec 72) : onDevPort (decodeCtl w) = false := by
  simp only [decodeCtl, ctlFields]; split <;> rfl

theorem decodeDev_onDevPort (w : BitVec 33) : onDevPort (decodeDev w) = true := by
  simp only [decodeDev]; split <;> rfl

/-! ### A step -/

/-- A step that answers a next state is the turn of the agent the schedule names, under a configuration
that was brought up. -/
theorem step_cases {s t : State} (h : step s = .next t) :
    cfgOk s.cfg = true ∧ ∃ a rest, s.turns = a :: rest ∧ agentTurn a { s with turns := rest } = .next t := by
  simp only [step] at h
  split at h
  · simp at h
  · rename_i hc
    refine ⟨by simpa using hc, ?_⟩
    split at h
    · simp at h
    · exact ⟨_, _, ‹_›, h⟩

/-! ### The phases of a trigger (42_status_control_mux.md R131, 44_host_procedures.md R165, R166) -/

/-- The two bits a read of CTRL returns. -/
theorem ctrlWord_bits {s : State} (hc : cfgOk s.cfg = true) : (ctrlWord s).getLsbD s.cfg.ctrlToBit = s.ctrlTo ∧ (ctrlWord s).getLsbD s.cfg.ctrlFromBit = s.ctrlFrom := by
  have B := cfgOk_bits hc
  have := B.ctrl_distinct
  rw [ctrlWord_getLsbD s _ B.ctrlTo_lt, ctrlWord_getLsbD s _ B.ctrlFrom_lt]
  simp [this, Ne.symm this]

/-- The two bits of `ClearVal` and `SetVal`. -/
theorem actionVal_bits {c : Cfg} (hc : cfgOk c = true) :
   (∀ v, (clearVal c .toFifo v).getLsbD c.ctrlToBit = false ∧ (clearVal c .toFifo v).getLsbD c.ctrlFromBit = v.getLsbD c.ctrlFromBit)
   ∧ (∀ v, (clearVal c .fromFifo v).getLsbD c.ctrlFromBit = false ∧ (clearVal c .fromFifo v).getLsbD c.ctrlToBit = v.getLsbD c.ctrlToBit)
   ∧ (∀ v, (setVal c .toFifo v).getLsbD c.ctrlToBit = true ∧ (setVal c .toFifo v).getLsbD c.ctrlFromBit = v.getLsbD c.ctrlFromBit)
   ∧ (∀ v, (setVal c .fromFifo v).getLsbD c.ctrlFromBit = true ∧ (setVal c .fromFifo v).getLsbD c.ctrlToBit = v.getLsbD c.ctrlToBit) := by
  have B := cfgOk_bits hc
  have h1 := B.ctrl_distinct; have h2 := B.ctrlTo_lt; have h3 := B.ctrlFrom_lt
  have key : ∀ k b : Nat, b < 32 → ((1#32 : Word) <<< k).getLsbD b = decide (b = k) := by
    intro k b hb
    have := flagAt_getLsbD true k b hb
    simpa [flagAt] using this
  refine ⟨?_, ?_, ?_, ?_⟩ <;> intro v <;>
   simp [clearVal, setVal, ctrlMask, key _ _ h2, key _ _ h3, h2, h3, h1, Ne.symm h1]
  · intro _; omega
  · intro _; omega
  · intro _ _; omega
  · intro _ _; omega

/-- The CTRL read of a trigger. -/
theorem runPhase_trigRead {s : State} (hc : cfgOk s.cfg = true) (p : Proc) (a : Action) :
    runPhase p (.trigRead a) s = .next (advance p (.go (.trigClear a (ctrlWord s))) (s.respond (.data 4 (ctrlWord s)))) := by
  simp only [runPhase, (procAccess_decode hc p (.trigRead a)).2.2.1 _ rfl]; rfl

/-- The clearing write of a trigger. -/
theorem runPhase_trigClear {s : State} (hc : cfgOk s.cfg = true) (p : Proc) (a : Action) (w : Word) :
    runPhase p (.trigClear a w) s = .next (advance p (.go (.trigSet a w)) ((writeCtrl (clearVal s.cfg a w) s).respond .done)) := by
  simp only [runPhase, (procAccess_decode hc p (.trigClear a w)).2.2.2.1 _ _ rfl]; rfl

/-- The setting write of a trigger. -/
theorem runPhase_trigSet {s : State} (hc : cfgOk s.cfg = true) (p : Proc) (a : Action) (w : Word) :
    runPhase p (.trigSet a w) s = .next (advance p (afterTrigger p a) ((writeCtrl (setVal s.cfg a w) s).respond .done)) := by
  simp only [runPhase, (procAccess_decode hc p (.trigSet a w)).2.2.2.2.1 _ _ rfl]; rfl

/-- The XFER_STATUS read of READ_FROM_DEVICE finds 4 times the confirmed count (44_host_procedures.md R171). -/
theorem runPhase_readXfer_fromFifo {s : State} (hi : s.Inv) (p : Proc) :
    runPhase p (.readXfer .fromFifo) s
      = .next (advance p (afterAvailable p (4 * s.outCopied.toNat)) (s.respond (.data 4 (xferWord s)))) := by
  simp only [runPhase, (procAccess_decode hi.cfg_ok p (.readXfer .fromFifo)).2.2.2.2.2.2.1 _ rfl]
  have hn : (s.outCopied.setWidth 32).toNat = s.outCopied.toNat := by
    have := s.outCopied.isLt
    simp; omega
  have e : procNext s.cfg p (.readXfer .fromFifo) (xferWord s) = afterAvailable p (4 * s.outCopied.toNat) := by
    simp only [procNext, countOf_outCopied hi, hn]
  exact congrArg (fun st => Host.Outcome.next (advance p st (s.respond (.data 4 (xferWord s))))) e

/-- The byte a read of byte `j` of the output window hands over: the one listed, a draw otherwise. -/
def collectedByte (s : State) (j : Nat) : Byte := (bufOutValue 1 j s).setWidth 8

theorem collectedByte_listed {s : State} {j : Nat} {b : Byte} (h : Memory.get? s.bufOut j = some b) :
    collectedByte s j = b := by
  have e : Memory.getBytes s.bufOut s.free j 1 = [b] := by simp [Memory.getBytes, h]
  simp only [collectedByte, bufOutValue, Memory.value, e]
  cases s.cfg.byteOrder <;> (ext i hi; simp [ofBytes, wordLE, hi])

/-- A byte read of READ_FROM_DEVICE: the byte joins those collected, and the last one ends the procedure
(44_host_procedures.md R171). -/
theorem runPhase_collect {s : State} (hc : cfgOk s.cfg = true) (p : Proc) (j avail : Nat) (acc : List Byte)
    (hj : j < 4 * s.cfg.bufOutWords) :
    runPhase p (.collect j avail acc) s
      = .next (advance p
          (if j + 1 < avail then .go (.collect (j + 1) avail (acc ++ [collectedByte s j]))
            else .done (collected p (acc ++ [collectedByte s j])))
          ((afterReadBufOut s).respond (.data 1 (bufOutValue 1 j s)))) := by
  simp only [runPhase, (procAccess_decode hc p (.collect j avail acc)).2.2.2.2.2.2.2 _ _ _ rfl hj]
  rfl

/-- The clearing write stores 0 and triggers nothing. -/
theorem writeCtrl_clear_toFifo {s : State} (hc : cfgOk s.cfg = true) : writeCtrl (clearVal s.cfg .toFifo (ctrlWord s)) s = { s with ctrlTo := false } := by
  have mb := (actionVal_bits hc).1 (ctrlWord s); have cb := ctrlWord_bits hc
  rw [writeCtrl_noRise]
  · simp [storeCtrl, mb, cb]
  · simp [risesTo, mb]
  · simp [risesFrom, mb, cb]

/-- The clearing write of the other action. -/
theorem writeCtrl_clear_fromFifo {s : State} (hc : cfgOk s.cfg = true) : writeCtrl (clearVal s.cfg .fromFifo (ctrlWord s)) s = { s with ctrlFrom := false } := by
  have mb := (actionVal_bits hc).2.1 (ctrlWord s); have cb := ctrlWord_bits hc
  rw [writeCtrl_noRise]
  · simp [storeCtrl, mb, cb]
  · simp [risesTo, mb, cb]
  · simp [risesFrom, mb]

/-- The setting write starts the idle IN engine. -/
theorem writeCtrl_set_toFifo {s : State} (hc : cfgOk s.cfg = true) (w : Word) (h1 : s.ctrlTo = false) (h2 : s.ctrlFrom = w.getLsbD s.cfg.ctrlFromBit) (hb : s.inBusy = false) (ha : s.amount.toNat ≤ s.cfg.bufInWords) :
   writeCtrl (setVal s.cfg .toFifo w) s = { s with ctrlTo := true, inBusy := true, inTarget := s.amount, inCopied := 0 } := by
  have mb := (actionVal_bits hc).2.2.1 w
  rw [writeCtrl_riseTo]
  · simp only [triggerIn, storeCtrl, mb, hb, Nat.not_lt.mpr ha, Bool.false_eq_true, if_false, h2]
  · simp [risesTo, mb, h1]
  · simp [risesFrom, mb, h2]

/-- The setting write starts the idle OUT engine. -/
theorem writeCtrl_set_fromFifo {s : State} (hc : cfgOk s.cfg = true) (w : Word) (h1 : s.ctrlFrom = false) (h2 : s.ctrlTo = w.getLsbD s.cfg.ctrlToBit) (hb : s.outBusy = false) :
   writeCtrl (setVal s.cfg .fromFifo w) s = { s with ctrlFrom := true, outBusy := true, outCopied := 0 } := by
  have mb := (actionVal_bits hc).2.2.2 w
  rw [writeCtrl_riseFrom]
  · simp only [triggerOut, storeCtrl, mb, hb, Bool.false_eq_true, if_false, h2]
  · simp [risesTo, mb, h2]
  · simp [risesFrom, mb, h1]

end Sys2Proof.Machine
end

