-- ==== Sys2Proof/Laws/PerInstr.lean ====
section
/-! SUPPORT. Statements for all instructions, made per instruction. TableWidth: the word of a command
has the width its row of spec/opcode_table.json gives it, whatever the configuration (30_encoding.md R68). -/

namespace Sys2Proof.Laws

/-- The number of bits of a command word (30_encoding.md R61 to R63). -/
def portBits : Command → Nat
  | .bus _ => 64
  | .ctl _ => 72
  | .dev _ => 33

/-- The `width` of a command's row of spec/opcode_table.json. -/
def tableWidth : Instr → Nat
  | .setUserReg _ _ | .getUserReg _ | .getFifoInEmpty | .getFifoInFull | .getFifoInCopying
  | .getFifoInCopiedAmount | .getFifoOutEmpty | .getFifoOutFull | .getFifoOutCopying
  | .getFifoOutCopiedAmount | .ctlUnknown _ => 72
  | .devPopIn | .devPushOut _ => 33
  | _ => 64

/-- The command's word has the width of its row. -/
def TableWidth.Statement (i : Instr) : Prop := ∀ c : Cfg, portBits (encode c i) = tableWidth i

theorem TableWidth.rdCtrl : TableWidth.Statement .rdCtrl := fun _ => rfl
theorem TableWidth.wrCtrl (wdata : Word) : TableWidth.Statement (.wrCtrl wdata) := fun _ => rfl
theorem TableWidth.rdStatus : TableWidth.Statement .rdStatus := fun _ => rfl
theorem TableWidth.wrStatus (wdata : Word) : TableWidth.Statement (.wrStatus wdata) := fun _ => rfl
theorem TableWidth.rdXferStatus : TableWidth.Statement .rdXferStatus := fun _ => rfl
theorem TableWidth.wrXferStatus (wdata : Word) : TableWidth.Statement (.wrXferStatus wdata) := fun _ => rfl
theorem TableWidth.rdDataAmount : TableWidth.Statement .rdDataAmount := fun _ => rfl
theorem TableWidth.wrDataAmount (wdata : Word) : TableWidth.Statement (.wrDataAmount wdata) := fun _ => rfl
theorem TableWidth.rdUser0 : TableWidth.Statement .rdUser0 := fun _ => rfl
theorem TableWidth.rdUser1 : TableWidth.Statement .rdUser1 := fun _ => rfl
theorem TableWidth.rdUser2 : TableWidth.Statement .rdUser2 := fun _ => rfl
theorem TableWidth.rdUser3 : TableWidth.Statement .rdUser3 := fun _ => rfl
theorem TableWidth.rdUser4 : TableWidth.Statement .rdUser4 := fun _ => rfl
theorem TableWidth.rdUser5 : TableWidth.Statement .rdUser5 := fun _ => rfl
theorem TableWidth.wrUser0 (wdata : Word) : TableWidth.Statement (.wrUser0 wdata) := fun _ => rfl
theorem TableWidth.wrUser1 (wdata : Word) : TableWidth.Statement (.wrUser1 wdata) := fun _ => rfl
theorem TableWidth.wrUser2 (wdata : Word) : TableWidth.Statement (.wrUser2 wdata) := fun _ => rfl
theorem TableWidth.wrUser3 (wdata : Word) : TableWidth.Statement (.wrUser3 wdata) := fun _ => rfl
theorem TableWidth.wrUser4 (wdata : Word) : TableWidth.Statement (.wrUser4 wdata) := fun _ => rfl
theorem TableWidth.wrUser5 (wdata : Word) : TableWidth.Statement (.wrUser5 wdata) := fun _ => rfl
theorem TableWidth.rdBufIn (n : Size) (j : Nat) : TableWidth.Statement (.rdBufIn n j) := fun _ => rfl
theorem TableWidth.wrBufIn (n : Size) (j : Nat) (wdata : Word) : TableWidth.Statement (.wrBufIn n j wdata) := fun _ => rfl
theorem TableWidth.rdBufOut (n : Size) (j : Nat) : TableWidth.Statement (.rdBufOut n j) := fun _ => rfl
theorem TableWidth.wrBufOut (n : Size) (j : Nat) (wdata : Word) : TableWidth.Statement (.wrBufOut n j wdata) := fun _ => rfl
theorem TableWidth.busIllegal (we : Bool) (size : BitVec 2) (rsv : BitVec 5) (offset : BitVec 24) : TableWidth.Statement (.busIllegal we size rsv offset) := fun _ => rfl
theorem TableWidth.setUserReg (index : Word) (value : Word) : TableWidth.Statement (.setUserReg index value) := fun _ => rfl
theorem TableWidth.getUserReg (index : Word) : TableWidth.Statement (.getUserReg index) := fun _ => rfl
theorem TableWidth.getFifoInEmpty : TableWidth.Statement .getFifoInEmpty := fun _ => rfl
theorem TableWidth.getFifoInFull : TableWidth.Statement .getFifoInFull := fun _ => rfl
theorem TableWidth.getFifoInCopying : TableWidth.Statement .getFifoInCopying := fun _ => rfl
theorem TableWidth.getFifoInCopiedAmount : TableWidth.Statement .getFifoInCopiedAmount := fun _ => rfl
theorem TableWidth.getFifoOutEmpty : TableWidth.Statement .getFifoOutEmpty := fun _ => rfl
theorem TableWidth.getFifoOutFull : TableWidth.Statement .getFifoOutFull := fun _ => rfl
theorem TableWidth.getFifoOutCopying : TableWidth.Statement .getFifoOutCopying := fun _ => rfl
theorem TableWidth.getFifoOutCopiedAmount : TableWidth.Statement .getFifoOutCopiedAmount := fun _ => rfl
theorem TableWidth.ctlUnknown (op : BitVec 8) : TableWidth.Statement (.ctlUnknown op) := fun _ => rfl
theorem TableWidth.devPopIn : TableWidth.Statement .devPopIn := fun _ => rfl
theorem TableWidth.devPushOut (data : Word) : TableWidth.Statement (.devPushOut data) := fun _ => rfl

end Sys2Proof.Laws
end

