-- ==== Sys2Proof/Tests/Slice0.lean ====
section
/-! SUPPORT. The author's tests: ill-formed terms that `wf` refuses, words written out from the spec's
encodings, one-step results of 95_test_vectors.md, and a witness for the hypotheses of every statement. -/

namespace Sys2Proof.Tests

open Sys2Proof Sys2Proof.Machine

/-! ### Helpers -/

/-- The next state of an answer. -/
def next? : Answer → Option State
  | .next t => some t
  | .fault _ => none
  | .refused _ => none

/-- One step that runs a bus word. -/
def runBus (w : BitVec 64) (s : State) : Option State := next? (step (s.withFetchWord 64 w.toNat))

/-- One step that runs a control word. -/
def runCtl (w : BitVec 72) (s : State) : Option State := next? (step (s.withFetchWord 72 w.toNat))

/-- One step that runs a word of the coprocessor's port. -/
def runDev (w : BitVec 33) (s : State) : Option State := next? (step (s.withFetchWord 33 w.toNat))

/-- What the host was handed. -/
def resp (o : Option State) : Option HostResp := o.map (fun t => t.hostResp)

/-- The invariant as a Bool, so that a concrete state's invariant is a closed question. -/
def invB (s : State) : Bool :=
  cfgOk s.cfg && decide (s.amount.toNat < 2 ^ s.cfg.amountW) && decide (s.fifoIn.length ≤ s.cfg.fifoInDepth)
    && decide (s.fifoOut.length ≤ s.cfg.fifoOutDepth) && decide (s.inCopied.toNat ≤ s.inTarget.toNat)
    && decide (s.inTarget.toNat ≤ s.cfg.bufInWords) && decide (s.outCopied.toNat ≤ s.cfg.bufOutWords)
    && Memory.wf s.bufIn && Memory.wf s.bufOut && Memory.below (4 * s.cfg.bufInWords) s.bufIn
    && Memory.below (4 * s.cfg.bufOutWords) s.bufOut

theorem inv_of_invB {s : State} (h : invB s = true) : s.Inv := by
  simp only [invB, Bool.and_eq_true, decide_eq_true_eq] at h
  obtain ⟨⟨⟨⟨⟨⟨⟨⟨⟨⟨h1, h2⟩, h3⟩, h4⟩, h5⟩, h6⟩, h7⟩, h8⟩, h9⟩, h10⟩, h11⟩ := h
  exact ⟨h1, h2, h3, h4, h5, h6, h7, h8, h9, h10, h11⟩

/-! ### WellFormed: one ill-formed term for each check, and a well-formed one beside it -/

theorem test_wf_window_misaligned : (Instr.rdBufIn .half 1).wf Cfg.test = false := by decide
theorem test_wf_window_word_misaligned : (Instr.wrBufOut .word 2 0).wf Cfg.test = false := by decide
theorem test_wf_window_past_end : (Instr.wrBufIn .byte 256 0).wf Cfg.test = false := by decide
theorem test_wf_window_crossing : (Instr.rdBufOut .word 256).wf Cfg.test = false := by decide
theorem test_wf_window_last : (Instr.rdBufOut .word 252).wf Cfg.test = true := by decide
theorem test_wf_window_outside_region :
    (Instr.rdBufOut .word 0).wf { Cfg.test with dev := ⟨0, 0x200, 0x100, 0x200⟩ } = false := by decide
theorem test_wf_illegal_is_a_register : (Instr.busIllegal false 2 0 0x24).wf Cfg.test = false := by decide
theorem test_wf_illegal_is_a_window : (Instr.busIllegal true 0 0 0x1FF).wf Cfg.test = false := by decide
theorem test_wf_illegal_narrow : (Instr.busIllegal false 0 0 4).wf Cfg.test = true := by decide
theorem test_wf_illegal_size : (Instr.busIllegal false 3 0 0).wf Cfg.test = true := by decide
theorem test_wf_illegal_rsv : (Instr.busIllegal false 2 1 4).wf Cfg.test = true := by decide
theorem test_wf_unknown_is_known : (Instr.ctlUnknown 0x09).wf Cfg.test = false := by decide
theorem test_wf_unknown_first : (Instr.ctlUnknown 0x0A).wf Cfg.test = true := by decide

/-! ### Decoding: a word for every constructor, from 40_register_access.md R81 to R97,
42_status_control_mux.md R136 to R146 and 41_copy_engines.md R117, R118 -/

theorem test_decode_protocol :
    decodeBus Cfg.test 0x4000000000000000 = .rdCtrl
    ∧ decodeBus Cfg.test 0xC000000000000001 = .wrCtrl 1
    ∧ decodeBus Cfg.test 0x4000000400000000 = .rdStatus
    ∧ decodeBus Cfg.test 0xC0000004FFFFFFFF = .wrStatus 0xFFFFFFFF
    ∧ decodeBus Cfg.test 0x4000000800000000 = .rdXferStatus
    ∧ decodeBus Cfg.test 0xC000000800000000 = .wrXferStatus 0
    ∧ decodeBus Cfg.test 0x4000000C00000000 = .rdDataAmount
    ∧ decodeBus Cfg.test 0xC000000C00010000 = .wrDataAmount 0x10000 := by decide

theorem test_decode_user :
    decodeBus Cfg.test 0x4000001000000000 = .rdUser0 ∧ decodeBus Cfg.test 0x4000001400000000 = .rdUser1
    ∧ decodeBus Cfg.test 0x4000001800000000 = .rdUser2 ∧ decodeBus Cfg.test 0x4000001C00000000 = .rdUser3
    ∧ decodeBus Cfg.test 0x4000002000000000 = .rdUser4 ∧ decodeBus Cfg.test 0x4000002400000000 = .rdUser5
    ∧ decodeBus Cfg.test 0xC000001011111111 = .wrUser0 0x11111111
    ∧ decodeBus Cfg.test 0xC000001400000001 = .wrUser1 1
    ∧ decodeBus Cfg.test 0xC0000018A5A5A5A5 = .wrUser2 0xA5A5A5A5
    ∧ decodeBus Cfg.test 0xC000001CDEADBEEF = .wrUser3 0xDEADBEEF
    ∧ decodeBus Cfg.test 0xC000002000000004 = .wrUser4 4
    ∧ decodeBus Cfg.test 0xC0000024FFFFFFFF = .wrUser5 0xFFFFFFFF := by decide

theorem test_decode_window :
    decodeBus Cfg.test 0x4000010000000000 = .rdBufIn .word 0
    ∧ decodeBus Cfg.test 0x400001FC00000000 = .rdBufIn .word 0xFC
    ∧ decodeBus Cfg.test 0xA00001020000BEEF = .wrBufIn .half 2 0xBEEF
    ∧ decodeBus Cfg.test 0x800001FF0000007F = .wrBufIn .byte 255 0x7F
    ∧ decodeBus Cfg.test 0x0000020000000000 = .rdBufOut .byte 0
    ∧ decodeBus Cfg.test 0xC000020000000000 = .wrBufOut .word 0 0 := by decide

theorem test_decode_illegal :
    decodeBus Cfg.test 0x400001FE00000000 = .busIllegal false 2 0 0x1FE
    ∧ decodeBus Cfg.test 0x4000002800000000 = .busIllegal false 2 0 0x28
    ∧ decodeBus Cfg.test 0x4000030000000000 = .busIllegal false 2 0 0x300
    ∧ decodeBus Cfg.test 0x4000100000000000 = .busIllegal false 2 0 0x1000
    ∧ decodeBus Cfg.test 0x0000000400000000 = .busIllegal false 0 0 4
    ∧ decodeBus Cfg.test 0x4000000200000000 = .busIllegal false 2 0 2
    ∧ decodeBus Cfg.test 0x6000000000000000 = .busIllegal false 3 0 0
    ∧ decodeBus Cfg.test 0x4100000400000000 = .busIllegal false 2 1 4
    ∧ decodeBus Cfg.test 0x2000010100000000 = .busIllegal false 1 0 0x101 := by decide

theorem test_decode_control :
    decodeCtl 0x0000000003DEADBEEF = .setUserReg 3 0xDEADBEEF
    ∧ decodeCtl 0x01FFFFFFFF00000000 = .getUserReg 0xFFFFFFFF
    ∧ decodeCtl 0x020000006300000007 = .getFifoInEmpty
    ∧ decodeCtl 0x030000000000000000 = .getFifoInFull
    ∧ decodeCtl 0x040000000000000000 = .getFifoInCopying
    ∧ decodeCtl 0x050000000000000000 = .getFifoInCopiedAmount
    ∧ decodeCtl 0x060000000000000000 = .getFifoOutEmpty
    ∧ decodeCtl 0x070000000000000000 = .getFifoOutFull
    ∧ decodeCtl 0x080000000000000000 = .getFifoOutCopying
    ∧ decodeCtl 0x090000000000000000 = .getFifoOutCopiedAmount
    ∧ decodeCtl 0x0A0000000000000000 = .ctlUnknown 0x0A
    ∧ decodeCtl 0xFF0000000300000001 = .ctlUnknown 0xFF := by decide

theorem test_decode_device :
    decodeDev 0x000000000 = .devPopIn ∧ decodeDev 0x104030201 = .devPushOut 0x04030201 := by decide

theorem test_decodeTableWord :
    decodeTableWord 64 0x4000000400000000 = some .rdStatus
    ∧ decodeTableWord 72 0x070000000000000000 = some .getFifoOutFull
    ∧ decodeTableWord 33 0x100000005 = some (.devPushOut 5)
    ∧ decodeTableWord 40 0x100000005 = some (.devPushOut 5) ∧ decodeTableWord 16 0 = none := by decide

/-! ### One step: 95_test_vectors.md section 3.1 -/

theorem test_rdStatus_V1 : resp (runBus 0x4000000400000000 .reset) = some (.data 4 0x9) := by decide
theorem test_rdXferStatus_V2 : resp (runBus 0x4000000800000000 .reset) = some (.data 4 0) := by decide
theorem test_rdCtrl_V3 : resp (runBus 0x4000000000000000 .reset) = some (.data 4 0) := by decide

theorem test_wrCtrl_V4 : (runBus 0xC0000000FFFFFFFF .reset).map
    (fun t => (t.ctrlTo, t.ctrlFrom, t.inBusy, t.outBusy, statusWord t, ctrlWord t))
    = some (true, true, true, true, 0x2D, 3) := by decide

theorem test_wrCtrl_V7 :
    (runBus 0xC000000000000001 { State.reset with inBusy := true, inTarget := 9, inCopied := 7 }).map
      (fun t => (t.ctrlTo, t.fault, t.inBusy, t.inTarget, t.inCopied))
    = some (true, some .engineRetrigger, true, 9, 7) := by decide

theorem test_wrStatus_V14 : (runBus 0xC0000004FFFFFFFF .reset).map statusWord = some 0x9 := by decide

theorem test_wrXferStatus_V15 :
    (runBus 0xC000000800000000 { State.reset with inTarget := 3, inCopied := 3, outCopied := 2 }).map xferWord
    = some 0x00020003 := by decide

theorem test_wrDataAmount_V8 : (runBus 0xC000000C00010000 .reset).map (fun t => t.amount) = some 0 := by
  decide
theorem test_wrDataAmount_V9 : (runBus 0xC000000C12345678 .reset).map (fun t => t.amount) = some 0x5678 := by
  decide
theorem test_rdDataAmount_V16 : (runBus 0x4000000C00000000 .reset).map
    (fun t => (t.fault, t.amount, statusWord t)) = some (none, 0, 9) := by decide

theorem test_user_V12 :
    resp ((runBus 0xC0000018A5A5A5A5 .reset).bind (runBus 0x4000001800000000))
    = some (.data 4 0xA5A5A5A5) := by decide
theorem test_user0 :
    resp ((runBus 0xC000001011111111 .reset).bind (runBus 0x4000001000000000)) = some (.data 4 0x11111111) := by
  decide
theorem test_user1 :
    resp ((runBus 0xC000001400000001 .reset).bind (runBus 0x4000001400000000)) = some (.data 4 1) := by decide
theorem test_user3 :
    resp ((runBus 0xC000001CDEADBEEF .reset).bind (runBus 0x4000001C00000000)) = some (.data 4 0xDEADBEEF) := by
  decide
theorem test_user4 :
    resp ((runBus 0xC000002000000004 .reset).bind (runBus 0x4000002000000000)) = some (.data 4 4) := by decide
theorem test_user5 :
    resp ((runBus 0xC0000024FFFFFFFF .reset).bind (runBus 0x4000002400000000)) = some (.data 4 0xFFFFFFFF) := by
  decide

theorem test_window_V17 :
    resp ((runBus 0xA00001020000BEEF { State.reset with bufIn := [(0, 1), (1, 2)] }).bind
      (runBus 0x4000010000000000)) = some (.data 4 0xBEEF0201) := by decide
theorem test_window_V18 : (runBus 0x800001FF0000007F .reset).map (fun t => t.bufIn)
    = some [(255, 0x7F)] := by decide
theorem test_window_V28 : (runBus 0x8000010000000000 { State.reset with inBusy := true }).map
    (fun t => (t.bufIn, t.fault)) = some ([(0, 0)], some .windowRace) := by decide
theorem test_window_V29 :
    (runBus 0x0000020300000000 { State.reset with inBusy := true, bufOut := [(3, 4)] }).map
      (fun t => (t.hostResp, t.fault)) = some (.data 1 4, none) := by decide
theorem test_wrBufOut : (runBus 0xC000020000000000 .reset).map (fun t => t.bufOut)
    = some [(0, 0), (1, 0), (2, 0), (3, 0)] := by decide
theorem test_busIllegal_V20 : (runBus 0x400001FE00000000 .reset).map (fun t => t.fault)
    = some (some .busFault) := by decide
theorem test_busIllegal_write : (runBus 0xC000010200000001 .reset).map
    (fun t => (t.fault, t.bufIn, t.hostResp)) = some (some .busFault, [], .done) := by decide

/-! ### Control operations: section 3.3 -/

theorem test_setUserReg_V71 : (runCtl 0x000000000500000000 .reset).map
    (fun t => (t.hostResp, t.user[5], t.userWritten[5], t.userWritten[4]))
    = some (.value 0, 0, true, false) := by decide
theorem test_setUserReg_V72 : resp (runCtl 0x007FFFFFFF00000000 .reset) = some (.error .accessDenied) := by
  decide
theorem test_getUserReg_T1 :
    resp ((runCtl 0x0000000003DEADBEEF .reset).bind (runCtl 0x010000000300000000))
    = some (.value 0xDEADBEEF) := by decide
theorem test_getUserReg_V73 : resp (runCtl 0x018000000000000000 .reset) = some (.error .accessDenied) := by
  decide
theorem test_getFifoInEmpty_V70 : resp (runCtl 0x020000006300000007 .reset) = some (.value 1) := by decide
theorem test_getFifoInFull_V61 : resp (runCtl 0x030000000000000000 .reset) = some (.value 0) := by decide
theorem test_getFifoInCopying_V62 : resp (runCtl 0x040000000000000000 .reset) = some (.value 0) := by decide
theorem test_getFifoInCopiedAmount_V63 :
    resp (runCtl 0x050000000000000000 { State.reset with inTarget := 3, inCopied := 3, outCopied := 2 })
    = some (.value 3) := by decide
theorem test_getFifoOutEmpty_V64 : resp (runCtl 0x060000000000000000 .reset) = some (.value 1) := by decide
theorem test_getFifoOutFull_V65 :
    resp (runCtl 0x070000000000000000 { State.reset with fifoOut := List.replicate 16 0 })
    = some (.value 1) := by decide
theorem test_getFifoOutCopying_V66 :
    resp (runCtl 0x080000000000000000 { State.reset with outBusy := true }) = some (.value 1) := by decide
theorem test_getFifoOutCopiedAmount_V67 :
    resp (runCtl 0x090000000000000000 { State.reset with inTarget := 3, inCopied := 3, outCopied := 2 })
    = some (.value 2) := by decide
theorem test_ctlUnknown_V69 : resp (runCtl 0xFF0000000300000001 .reset) = some (.error .invalidArgument) := by
  decide

theorem test_flag_decode : flagOf Cfg.test .inCopying 0x4 = 1 ∧ flagOf Cfg.test .inEmpty 0x4 = 0
    ∧ flagOf Cfg.test .outCopying 0x2D = 1 ∧ flagOf Cfg.test .outFull 0xFFFFFFC0 = 0 := by decide
theorem test_count_decode : countOf Cfg.test .inCopied 0x12345678 = 0x5678
    ∧ countOf Cfg.test .outCopied 0x12345678 = 0x1234 := by decide
theorem test_control_half : clearVal Cfg.test .toFifo 3 = 2 ∧ setVal Cfg.test .fromFifo 1 = 3
    ∧ clearVal Cfg.test .toFifo 0xFFFFFFFF = 0xFFFFFFFE := by decide

/-! ### Coprocessor port and engines: section 3.2 -/

theorem test_devPopIn_V49 : (runDev 0x000000000 { State.reset with fifoIn := [7] }).map
    (fun t => (t.devResp, t.fifoIn, t.devPort)) = some (.popped 7, [], []) := by decide
theorem test_devPopIn_V50 : (runDev 0x000000000 .reset).map
    (fun t => (t.devResp, t.fifoIn, t.devPort)) = some (.waiting, [], [0]) := by decide
theorem test_devPushOut_V51 : (runDev 0x100000005 { State.reset with fifoOut := List.replicate 16 0 }).map
    (fun t => (t.devResp, t.fifoOut.length)) = some (.waiting, 16) := by decide
theorem test_devPushOut_V52 : (runDev 0x100000005 { State.reset with fifoOut := List.replicate 15 0 }).map
    (fun t => (t.fifoOut.length, outFull t)) = some (16, true) := by decide

/-- Word 1 of the window of V40, the first already copied. -/
def copying : State :=
  { State.reset with
    inBusy := true
    inTarget := 2
    inCopied := 1
    fifoIn := [0x44332211]
    bufIn := [(4, 0x55), (5, 0x66), (6, 0x77), (7, 0x88)] }

theorem test_inCopy_V40 : (inEngineTurn copying).fifoIn = [0x44332211, 0x88776655]
    ∧ statusWord (inEngineTurn copying) = 0x0C
    ∧ statusWord (inEngineTurn (inEngineTurn copying)) = 0x08 := by decide
theorem test_inDone_V41 : (inEngineTurn { State.reset with inBusy := true }).inBusy = false := by decide
theorem test_inStopFull_V43 :
    (inEngineTurn { copying with fifoIn := List.replicate 16 0 }).inBusy = false
    ∧ (inEngineTurn { copying with fifoIn := List.replicate 16 0 }).inCopied = 1 := by decide
theorem test_inStall_V44 :
    inEngineTurn { copying with
      fifoIn := List.replicate 16 0
      cfg := { Cfg.test with inFullPolicy := .stall } }
    = { copying with
      fifoIn := List.replicate 16 0
      cfg := { Cfg.test with inFullPolicy := .stall } } := by decide

/-- The output transfer of V45. -/
def draining : State := { State.reset with outBusy := true, fifoOut := [0xAABBCCDD, 1] }

theorem test_outCopy_V45 : (outEngineTurn draining).bufOut = [(0, 0xDD), (1, 0xCC), (2, 0xBB), (3, 0xAA)]
    ∧ (outEngineTurn draining).outCopied = 1 ∧ (outEngineTurn draining).fifoOut = [1] := by decide
theorem test_outDone_V46 : (outEngineTurn { State.reset with outBusy := true }).outBusy = false := by decide

/-! ### Validation and index: section 3.4 -/

theorem test_validate_accepts : validate Params.standard (some 0x1000) (some 0x100) (some 0x200) = none
    ∧ validate Params.standard (some 0x1000) (some 0x28) (some 0x128) = none
    ∧ validate Params.standard (some 0x1000) (some 0xF00) (some 0x200) = none
    ∧ validate Params.standard (some 0x1000) (some 0x200) (some 0x100) = none := by decide
theorem test_validate_rejects : ∀ x ∈ [(some 0x27, some 0x100, some 0x200), (some 0x28, some 0x28, some 0x28),
    (some 0x1000, some 0x102, some 0x200), (some 0x1000, some 0x100, some 0x201),
    (some 0x1000, some 0x24, some 0x200), (some 0x1000, some 0x100, some 0x1FC),
    (some 0x1000, some 0x100, some 0x100), (some 0x1000, some 0xF04, some 0x200),
    (some 0x1000, some 0xFFFFFFFC, some 0x200), (some 0x1000, none, some 0x200),
    (some 0x1000001, some 0x100, some 0x200)],
    validate Params.standard x.1 x.2.1 x.2.2 = some .deviceNotReady := by decide
theorem test_index : userIndexValid 0 = true ∧ userIndexValid 5 = true ∧ userIndexValid 6 = false
    ∧ userIndexValid 0xFFFFFFFF = false ∧ userIndexValid 0x7FFFFFFF = false
    ∧ userIndexValid 0x80000000 = false := by decide
theorem test_roundUp4 : [0, 1, 4, 5, 7, 8, 255, 256].map roundUp4 = [0, 4, 4, 8, 8, 8, 256, 256] := by decide

/-! ### Witnesses: for each statement with hypotheses, a state and operands that meet all of them, each
clause at a boundary of its range -/

theorem witness_cfg : cfgOk Cfg.test = true ∧ cfgOk State.reset.cfg = true := by decide

theorem witness_StepRunsDecodedCommand :
    (let s : State := { State.reset with turns := [.host], hostPort := [.bus 0x4000000400000000] };
      cfgOk s.cfg = true ∧ s.turns = [.host] ∧ s.proc = none ∧ s.hostPort = [.bus 0x4000000400000000])
    ∧ (let s : State := { State.reset with turns := [.host], hostPort := [.ctl 0] };
      cfgOk s.cfg = true ∧ s.turns = [.host] ∧ s.proc = none ∧ s.hostPort = [.ctl 0])
    ∧ (let s : State := { State.reset with turns := [.coprocessor], devPort := [0], fifoIn := [7] };
      s.turns = [.coprocessor] ∧ s.devPort = [0] ∧ decode s.cfg (.dev 0) = .devPopIn ∧ s.fifoIn ≠ [])
    ∧ (let s : State := { State.reset with
          turns := [.coprocessor], devPort := [0x100000005], fifoOut := List.replicate 15 0 };
      decode s.cfg (.dev 0x100000005) = .devPushOut 5 ∧ s.fifoOut.length < s.cfg.fifoOutDepth)
    ∧ (let s : State := { State.reset with
          turns := [.coprocessor], devPort := [0x100000005], fifoOut := List.replicate 16 0 };
      decode s.cfg (.dev 0x100000005) = .devPushOut 5 ∧ s.cfg.fifoOutDepth ≤ s.fifoOut.length)
    ∧ (let s : State := { State.reset with turns := [.coprocessor], devPort := [0] };
      decode s.cfg (.dev 0) = .devPopIn ∧ s.fifoIn = []) := by decide

theorem witness_DecodeOfEncode : cfgOk Cfg.test = true ∧ (Instr.wrBufOut .word 252 1).wf Cfg.test = true
    ∧ (Instr.rdBufIn .half 254).wf Cfg.test = true ∧ (Instr.busIllegal true 3 31 0xFFFFFF).wf Cfg.test = true
    ∧ (Instr.ctlUnknown 0xFF).wf Cfg.test = true ∧ (Instr.setUserReg 6 0).wf Cfg.test = true := by decide

/-- A value for each disjunct, and both signs of the window's edge. -/
theorem witness_BusMisuseIsIllegal :
    let c := State.reset.cfg
    cfgOk c = true ∧ (1 : BitVec 5) ≠ 0 ∧ Size.code .byte = 0
    ∧ ((0x24 : BitVec 24).toNat < c.minRegSpace ∧ (Size.half ≠ .word ∨ (0x24 : BitVec 24).toNat % 4 ≠ 0))
    ∧ ((0x26 : BitVec 24).toNat < c.minRegSpace ∧ (0x26 : BitVec 24).toNat % 4 ≠ 0)
    ∧ (c.dev.bufInOffset ≤ (0x1FE : BitVec 24).toNat
      ∧ (0x1FE : BitVec 24).toNat < c.dev.bufInOffset + 4 * c.bufInWords
      ∧ c.dev.bufInOffset + 4 * c.bufInWords < (0x1FE : BitVec 24).toNat + Size.word.bytes)
    ∧ (c.dev.bufOutOffset ≤ (0x2FF : BitVec 24).toNat
      ∧ (0x2FF : BitVec 24).toNat < c.dev.bufOutOffset + 4 * c.bufOutWords
      ∧ (0x2FF : BitVec 24).toNat % Size.half.bytes ≠ 0)
    ∧ c.dev.regionLength ≤ (0x1000 : BitVec 24).toNat
    ∧ (c.minRegSpace ≤ (0x28 : BitVec 24).toNat ∧ (0x28 : BitVec 24).toNat < c.dev.bufInOffset) := by decide

theorem witness_RegisterReadsChangeNothing : Instr.rdDataAmount ∈ [Instr.rdCtrl, .rdStatus, .rdXferStatus,
    .rdDataAmount, .rdUser0, .rdUser1, .rdUser2, .rdUser3, .rdUser4, .rdUser5] := by decide

theorem witness_ReadUserReturnsStored :
    (writeUser 5 7 State.reset).userWritten[(5 : Fin 6)] = true := by decide

theorem witness_UserKeepsValueUntilRead :
    (∃ t u, exec (.setUserReg (BitVec.ofNat 32 (5 : Fin 6).val) 7) copying = .next t
      ∧ Agent.host ∉ [Agent.inEngine, .coprocessor, .echo, .outEngine]
      ∧ runTurns [.inEngine, .coprocessor, .echo, .outEngine] t = .next u)
    ∧ ∃ t u, exec (.wrUser5 7) copying = .next t
      ∧ runTurns [.inEngine, .coprocessor, .echo, .outEngine] t = .next u :=
  ⟨⟨_, _, rfl, by decide, rfl⟩, ⟨_, _, rfl, rfl⟩⟩

/-- The clauses of a CTRL write of 3: both start at amount 64; overrun at 65; both retriggers. -/
theorem witness_WriteCtrlTriggersOnEdges :
    (let s : State := { State.reset with amount := 64 };
      risesTo 3 s = true ∧ s.inBusy = false ∧ s.amount.toNat ≤ s.cfg.bufInWords
      ∧ risesFrom 3 s = true ∧ s.outBusy = false ∧ s.fault = none)
    ∧ (let s : State := { State.reset with amount := 65 };
      risesTo 3 s = true ∧ s.inBusy = false ∧ s.cfg.bufInWords < s.amount.toNat)
    ∧ (let s : State := { State.reset with inBusy := true, fault := some .busFault };
      risesTo 3 s = true ∧ s.inBusy = true ∧ s.fault = some .busFault)
    ∧ (let s : State := { State.reset with outBusy := true, ctrlTo := true };
      risesTo 3 s = false ∧ risesFrom 3 s = true ∧ s.outBusy = true) := by decide

theorem witness_WriteBuf : cfgOk State.reset.cfg = true ∧ 252 % Size.word.bytes = 0
    ∧ 252 + Size.word.bytes ≤ 4 * State.reset.cfg.bufInWords
    ∧ 252 + Size.word.bytes ≤ 4 * State.reset.cfg.bufOutWords ∧ State.reset.cfg.byteOrder = .little
    ∧ 3 < Size.word.bytes ∧ 251 < 252 ∧ 252 + Size.word.bytes ≤ 256
    ∧ ({ State.reset with inBusy := true, outBusy := true } : State).inBusy = true := by decide

theorem witness_WindowReads : Memory.get? ({ State.reset with bufIn := [(255, 9)] } : State).bufIn (252 + 3)
    = some 9 ∧ 3 < Size.word.bytes := by decide

theorem witness_BigEndianMirrorsBytes :
    ({ State.reset with cfg := { Cfg.test with byteOrder := .big } } : State).cfg.byteOrder = .big
    ∧ cfgOk { Cfg.test with byteOrder := .big } = true ∧ 3 < Size.word.bytes := by decide

theorem witness_IllegalAccess : (2 : BitVec 2) = Size.word.code := by decide

theorem witness_BadIndex : (6 : Word).toInt > 5 ∧ (0xFFFFFFFF : Word).toInt < 0
    ∧ userIndexValid 6 = false ∧ userIndexValid 5 = true
    ∧ Instr.getUserReg 6 ∈ [Instr.setUserReg 6 0, .getUserReg 6] := by decide

theorem witness_FlagQueries : State.reset.fifoIn = []
    ∧ ({ State.reset with fifoIn := List.replicate 16 0 } : State).fifoIn.length = State.reset.cfg.fifoInDepth
    ∧ ¬ ({ State.reset with fifoIn := List.replicate 15 0 } : State).fifoIn.length
        = State.reset.cfg.fifoInDepth := by decide

theorem witness_AmountQueries : State.Inv { State.reset with inTarget := 64, inCopied := 64, outCopied := 64 } :=
  inv_of_invB (by decide)

theorem witness_UnknownControl :
    0x0A ≤ ((0x0A0000000000000000 : BitVec 72).extractLsb' 64 8).toNat := by decide

theorem witness_PopPush : ({ State.reset with fifoIn := [7] } : State).fifoIn = 7 :: []
    ∧ (List.replicate 15 (0 : Word)).length < State.reset.cfg.fifoOutDepth
    ∧ State.reset.cfg.fifoOutDepth ≤ (List.replicate 16 (0 : Word)).length := by decide

theorem witness_InCopyPushesWindowWord : State.Inv { copying with fifoIn := List.replicate 15 0 }
    ∧ copying.inBusy = true ∧ copying.inCopied.toNat < copying.inTarget.toNat
    ∧ (List.replicate 15 (0 : Word)).length < copying.cfg.fifoInDepth
    ∧ Memory.get? copying.bufIn (4 * copying.inCopied.toNat + 3) = some 0x88 :=
  ⟨inv_of_invB (by decide), by decide⟩

theorem witness_InEngineStops :
    ({ copying with inCopied := 2 } : State).inCopied = copying.inTarget ∧ copying.inBusy = true
    ∧ copying.inCopied.toNat < copying.inTarget.toNat
    ∧ ({ copying with fifoIn := List.replicate 16 0 } : State).fifoIn.length = copying.cfg.fifoInDepth
    ∧ copying.cfg.inFullPolicy = .stop
    ∧ ({ copying with cfg := { Cfg.test with inFullPolicy := .stall } } : State).cfg.inFullPolicy = .stall := by
  decide

theorem witness_BusyEngineHasOneStep : State.Inv { copying with outBusy := true, fifoOut := [1] }
    ∧ copying.inBusy = true ∧ ¬ copying.cfg.inFullPolicy = .stall ∧ State.reset.inBusy = false
    ∧ State.reset.outBusy = false :=
  ⟨inv_of_invB (by decide), by decide⟩

theorem witness_OutEngineTurn : State.Inv { draining with outCopied := 63 }
    ∧ State.Inv { draining with outCopied := 64 } ∧ draining.outBusy = true
    ∧ draining.fifoOut = 0xAABBCCDD :: [1]
    ∧ ({ draining with outCopied := 63 } : State).outCopied.toNat < draining.cfg.bufOutWords
    ∧ ({ draining with outCopied := 64 } : State).outCopied.toNat = draining.cfg.bufOutWords :=
  ⟨inv_of_invB (by decide), inv_of_invB (by decide), by decide⟩

theorem witness_EchoMovesOneWord :
    ({ State.reset with fifoIn := [7], fifoOut := List.replicate 15 0 } : State).fifoIn = 7 :: []
    ∧ (List.replicate 15 (0 : Word)).length < State.reset.cfg.fifoOutDepth
    ∧ State.reset.fifoIn = [] := by decide

theorem witness_InTransferCopiesWholeWindow :
    copying.Inv ∧ copying.inBusy = true
    ∧ [(0x88776655 : Word)].length = copying.inTarget.toNat - copying.inCopied.toNat
    ∧ copying.fifoIn.length + [(0x88776655 : Word)].length ≤ copying.cfg.fifoInDepth
    ∧ ∀ i w, [(0x88776655 : Word)][i]? = some w → ∀ k, k < 4 →
        Memory.get? copying.bufIn (4 * (copying.inCopied.toNat + i) + k)
          = some (byteAt copying.cfg.byteOrder 4 w k) := by
  refine ⟨inv_of_invB (by decide), by decide, by decide, by decide, ?_⟩
  intro i w hw k hk
  cases i with
  | zero =>
    simp only [List.getElem?_cons_zero, Option.some.injEq] at hw
    subst hw
    revert k
    decide
  | succ i => simp at hw

theorem witness_OutTransferDrainsFifo : State.Inv { draining with outCopied := 62 } ∧ draining.outBusy = true
    ∧ ({ draining with outCopied := 62 } : State).outCopied.toNat + draining.fifoOut.length
        ≤ draining.cfg.bufOutWords :=
  ⟨inv_of_invB (by decide), by decide⟩

/-- A run in which both engines are busy, then stop: the IN engine takes the even turns. -/
def stopping (k : Nat) : State :=
  { State.reset with inBusy := k == 0, outBusy := decide (k < 2) }

def turnOf (k : Nat) : Agent := if k % 2 = 0 then .inEngine else .outEngine

theorem witness_FairEnginesStop : IsExecution stopping turnOf ∧ WeaklyFair stopping turnOf ∧ (stopping 0).Inv
    ∧ (stopping 0).cfg.inFullPolicy = .stop := by
  refine ⟨?_, ⟨fun k _ => ⟨2 * k, by omega, by simp [turnOf]⟩,
    fun k _ => ⟨2 * k + 1, by omega, by simp [turnOf]⟩⟩, inv_of_invB (by decide), rfl⟩
  intro k
  match k with
  | 0 => rfl
  | 1 => rfl
  | n + 2 =>
    have h1 : stopping (n + 2) = State.reset := rfl
    have h2 : stopping (n + 2 + 1) = State.reset := rfl
    rw [h1, h2, turnOf]
    split <;> rfl

theorem witness_EchoReturnsTheBytes : State.Inv { copying with fifoIn := [], outBusy := true, outCopied := 63 }
    ∧ copying.inBusy = true ∧ copying.inCopied.toNat < copying.inTarget.toNat
    ∧ ({ copying with fifoIn := [], outCopied := 63 } : State).outCopied.toNat < copying.cfg.bufOutWords
    ∧ copying.fifoOut = [] :=
  ⟨inv_of_invB (by decide), by decide⟩

theorem witness_TriggerProcedures :
    let s : State := { State.reset with hostPort := [.proc .trigIn], amount := 64 }
    cfgOk s.cfg = true ∧ s.proc = none ∧ s.fault = none ∧ s.hostPort = HostCmd.proc .trigIn :: []
    ∧ s.inBusy = false ∧ s.amount.toNat ≤ s.cfg.bufInWords ∧ s.outBusy = false := by decide

theorem witness_WriteRefusals :
    4 * State.reset.cfg.bufInWords < (List.replicate 257 (0 : Byte)).length
    ∧ ¬ 4 * State.reset.cfg.bufInWords < (List.replicate 256 (0 : Byte)).length
    ∧ (⟨true, false⟩ : HostEvents).allocFails = true ∧ (⟨false, true⟩ : HostEvents).copyFails = true
    ∧ (let s : State := { State.reset with
        turns := [.host], hostPort := [.proc (.writeToDevice [] ⟨true, false⟩)] }
      s.turns = [.host] ∧ s.proc = none
        ∧ s.hostPort = HostCmd.proc (.writeToDevice [] ⟨true, false⟩) :: []) := by
  refine ⟨?_, ?_, by decide⟩ <;> rw [List.length_replicate] <;> decide

/-- Byte 0 of a payload of one byte, and its last padding byte. -/
theorem witness_StagingWritesPaddedPayload :
    0 < roundUp4 [(9 : Byte)].length ∧ 0 < [(9 : Byte)].length ∧ 3 < roundUp4 [(9 : Byte)].length
    ∧ [(9 : Byte)].length ≤ 3 ∧ roundUp4 [(9 : Byte)].length ≤ 4 * State.reset.cfg.bufInWords
    ∧ ({ State.reset with turns := [.host], proc := some ⟨.writeToDevice [9] ⟨false, false⟩, .stage 3⟩ }
        : State).turns = [.host] := by decide

/-- The flag is 1; without a bound, and at either side of the bound 3. -/
theorem witness_PollWaitsForFlag :
    let s : State := { State.reset with inBusy := true, outBusy := true, turns := [.host] }
    cfgOk s.cfg = true ∧ s.inBusy = true ∧ s.outBusy = true ∧ s.cfg.pollLimit = none
    ∧ cfgOk { Cfg.test with pollLimit := some 3 } = true ∧ 1 + 1 < 3 ∧ 3 ≤ 2 + 1 := by decide

/-- The XFER_STATUS read with two words and with none, and the last byte of the window collected. -/
theorem witness_ProcedureResults :
    State.Inv { State.reset with turns := [.host], outCopied := 2,
                                 proc := some ⟨.readFromDevice 8 ⟨false, false⟩, .readXfer .fromFifo⟩ }
    ∧ (2 : Count).toNat * 4 ≤ 8 ∧ 7 < 4 * (2 : Count).toNat ∧ State.reset.outCopied.toNat = 0
    ∧ State.Inv { State.reset with turns := [.host], outCopied := 64, bufOut := [(255, 9)],
                                   proc := some ⟨.readFromDevice 256 ⟨false, true⟩, .collect 255 256 []⟩ }
    ∧ 255 < 256 ∧ 256 ≤ 4 * State.reset.cfg.bufOutWords ∧ Memory.get? [(255, 9)] 255 = some 9 :=
  ⟨inv_of_invB (by decide), by decide, by decide, by decide, inv_of_invB (by decide), by decide⟩

/-- One word copied out, and a READ_FROM_DEVICE whose allocation fails. -/
theorem witness_ReadFromDeviceReturnsWindow :
    (let s : State := { State.reset with outCopied := 1, bufOut := [(0, 1), (1, 2), (2, 3), (3, 4)],
                                         proc := some ⟨.readFromDevice 4 ⟨false, false⟩, .readXfer .fromFifo⟩ };
      s.Inv ∧ s.outBusy = false ∧ [(1 : Byte), 2, 3, 4].length = 4 * s.outCopied.toNat ∧ 4 * s.outCopied.toNat ≤ 4
        ∧ ∀ j b, [(1 : Byte), 2, 3, 4][j]? = some b → Memory.get? s.bufOut j = some b)
    ∧ (let s : State := { State.reset with
        turns := [.host], hostPort := [.proc (.readFromDevice 0 ⟨true, false⟩)] };
      cfgOk s.cfg = true ∧ s.proc = none ∧ s.turns = [.host]
        ∧ s.hostPort = HostCmd.proc (.readFromDevice 0 ⟨true, false⟩) :: []) := by
  refine ⟨⟨inv_of_invB (by decide), rfl, rfl, by decide, ?_⟩, by decide⟩
  intro j b h
  match j with
  | 0 | 1 | 2 | 3 => exact h
  | n + 4 => simp at h

theorem witness_DisciplinedHostNeverFaults :
    let s : State := { State.reset with
      turns := [.host], hostPort := [.proc (.writeToDevice [1, 2, 3] ⟨false, false⟩), .ctl 0] }
    Disciplined s ∧ ∃ t, step s = .next t := by
  refine ⟨⟨inv_of_invB (by decide), rfl, rfl, by decide, fun _ => ⟨rfl, rfl⟩, ?_⟩, ⟨_, rfl⟩⟩
  intro r hr
  cases hr

theorem witness_step : ∃ t, step { copying with turns := [.inEngine] } = .next t := ⟨_, rfl⟩

theorem witness_Inv : copying.Inv := inv_of_invB (by decide)

theorem witness_EnginesStartOnlyOnEdges :
    (runBus 0xC000000000000003 .reset).map (fun t => (t.inBusy, t.outBusy)) = some (true, true)
    ∧ State.reset.inBusy = false ∧ State.reset.outBusy = false := by decide

theorem witness_OnlyTheEngineStopsItself :
    let s : State := { copying with outBusy := true, turns := [.host] }
    s.inBusy = true ∧ s.turns.head? ≠ some .inEngine ∧ s.outBusy = true ∧ s.turns.head? ≠ some .outEngine
    ∧ (next? (step s)).isSome = true := by decide

theorem witness_StateHasItsOwners : ∀ a ∈ [Agent.host, .inEngine, .outEngine, .coprocessor, .echo],
    (next? (step { copying with turns := [a], devPort := [0] })).isSome = true := by decide

theorem witness_BringUp : paramsOk Params.standard = true
    ∧ validate Params.standard (some 0x1000) (some 0x100) (some 0x200) = none
    ∧ validate Params.standard (some 0x1000) (some 0x102) (some 0x200) ≠ none
    ∧ (⟨none, some 0x1000, some 0x100, some 0x200⟩ : Platform).registerBase = none
    ∧ (∃ s, bringUp Params.standard ⟨some 0, some 0x1000, some 0x100, some 0x200⟩ = .ok s)
    ∧ cfgOk { Cfg.test with amountW := 17 } = false :=
  ⟨by decide, by decide, by decide, rfl, ⟨_, rfl⟩, by decide⟩

theorem witness_RoundUpAndMask : roundUp4 253 ≤ 4 * Cfg.test.bufInWords := by decide

theorem test_error_codes : [ErrorKind.resourceExhausted, .boundaryFault, .accessDenied, .invalidArgument,
    .deviceNotReady, .timeout].map ErrorKind.code = [1, 2, 3, 4, 5, 6] := by decide

/-! ### Host procedures: section 3.5, one step each -/

set_option maxRecDepth 4000 in
theorem test_write_too_long_V101 : resp (next? (step { State.reset with
      turns := [.host], hostPort := [.proc (.writeToDevice (List.replicate 257 0) ⟨false, false⟩)] }))
    = some (.error .invalidArgument) := by decide
theorem test_read_too_short_V103 : resp (next? (step { State.reset with
      turns := [.host], outCopied := 2, proc := some ⟨.readFromDevice 4 ⟨false, false⟩, .readXfer .fromFifo⟩ }))
    = some (.error .invalidArgument) := by decide
theorem test_read_last_byte_V104 : resp (next? (step { State.reset with
      turns := [.host], outCopied := 1, bufOut := [(0, 1), (1, 2), (2, 3), (3, 4)],
      proc := some ⟨.readFromDevice 4 ⟨false, false⟩, .collect 3 4 [1, 2, 3]⟩ }))
    = some (.bytes [1, 2, 3, 4]) := by decide
theorem test_write_result_V100 : resp (next? (step { State.reset with
      turns := [.host], inTarget := 2, inCopied := 2,
      proc := some ⟨.writeToDevice [0xAA, 0xBB, 0xCC, 0xDD, 0xEE] ⟨false, false⟩, .readXfer .toFifo⟩ }))
    = some (.count 8) := by decide
theorem test_poll_timeout_V106 : (next? (step { State.reset with
      turns := [.host], inBusy := true, cfg := { Cfg.test with pollLimit := some 3 },
      proc := some ⟨.pollIn, .poll .toFifo 2⟩ })).map (fun t => (t.hostResp, t.inBusy, t.proc))
    = some (.error .timeout, true, none) := by decide

end Sys2Proof.Tests
end

section
/-! PROOFS. The statements of 10_state.md: what one turn of each agent can do to the block, said once per
agent, and from it the invariant of R27, the owners of R11, the edges of R12 and R13, and the reset of R31. -/

namespace Sys2Proof.Machine

/-! ### A CTRL write and the engines -/

/-- The IN engine goes from idle to busy on a rising COPY_TO_FIFO (10_state.md R28, 40_register_access.md R82). -/
structure InStarts (s t : State) : Prop where
  was_idle : s.inBusy = false
  bit_was_clear : s.ctrlTo = false
  bit_is_set : t.ctrlTo = true
  fits : s.amount.toNat ≤ s.cfg.bufInWords
  is_busy : t.inBusy = true
  target : t.inTarget = s.amount
  fresh : t.inCopied = 0

/-- The OUT engine goes from idle to busy on a rising COPY_FROM_FIFO. -/
structure OutStarts (s t : State) : Prop where
  was_idle : s.outBusy = false
  bit_was_clear : s.ctrlFrom = false
  bit_is_set : t.ctrlFrom = true
  is_busy : t.outBusy = true
  fresh : t.outCopied = 0

/-- What holds of the stored bits and is kept by both triggers holds after a CTRL write. -/
theorem writeCtrl_induct {P : State → Prop} {v : Word} {s : State} (stored : P (storeCtrl v s))
    (into : ∀ u, P u → P (triggerIn u)) (out : ∀ u, P u → P (triggerOut u)) : P (writeCtrl v s) := by
  have afterTo : P (if risesTo v s then triggerIn (storeCtrl v s) else storeCtrl v s) := by
    split
    · exact into _ stored
    · exact stored
  simp only [writeCtrl]
  split
  · exact out _ afterTo
  · exact afterTo

/-- The IN engine after a CTRL write is the one its own bit's rise leaves: the OUT trigger does not touch it. -/
theorem writeCtrl_sameInEngine (v : Word) (s : State) :
    SameInEngine (if risesTo v s then triggerIn (storeCtrl v s) else storeCtrl v s) (writeCtrl v s) := by
  by_cases hf : risesFrom v s = true <;> simp [writeCtrl, SameInEngine, hf]

/-- A CTRL write leaves the IN engine alone or starts it. -/
theorem writeCtrl_inEngine (v : Word) (s : State) :
    SameInEngine s (writeCtrl v s) ∨ InStarts s (writeCtrl v s) := by
  have same := writeCtrl_sameInEngine v s
  by_cases hr : risesTo v s = true
  · rw [if_pos hr] at same
    simp only [risesTo, Bool.and_eq_true, Bool.not_eq_true'] at hr
    obtain ⟨was_clear, is_set⟩ := hr
    obtain ⟨-, e⟩ | ⟨-, -, e⟩ | ⟨idle, fits, e⟩ := triggerIn_cases (storeCtrl v s) <;> rw [e] at same
    · exact .inl same
    · exact .inl same
    · obtain ⟨busy, target, fresh⟩ := same
      exact .inr ⟨idle, was_clear, (writeCtrl_bits v s).1.trans is_set, fits, busy, target, fresh⟩
  · rw [if_neg hr] at same
    exact .inl same

/-- For the OUT engine a CTRL write is at most the OUT trigger: what it does for the IN engine comes before. -/
theorem writeCtrl_outTrigger (v : Word) (s : State) :
    ∃ u, SameOutEngine s u ∧ writeCtrl v s = if risesFrom v s then triggerOut u else u := by
  refine ⟨if risesTo v s then triggerIn (storeCtrl v s) else storeCtrl v s, ?_, rfl⟩
  split <;> simp [SameOutEngine]

/-- A CTRL write leaves the OUT engine alone or starts it. -/
theorem writeCtrl_outEngine (v : Word) (s : State) :
    SameOutEngine s (writeCtrl v s) ∨ OutStarts s (writeCtrl v s) := by
  have hBit := (writeCtrl_bits v s).2
  obtain ⟨u, ⟨sBusy, sCopied⟩, e⟩ := writeCtrl_outTrigger v s
  by_cases hr : risesFrom v s = true
  · rw [if_pos hr] at e
    simp only [risesFrom, Bool.and_eq_true, Bool.not_eq_true'] at hr
    obtain ⟨was_clear, is_set⟩ := hr
    obtain ⟨-, e'⟩ | ⟨idle, e'⟩ := triggerOut_cases u <;> rw [e, e'] at hBit ⊢
    · exact .inl ⟨sBusy, sCopied⟩
    · exact .inr ⟨sBusy ▸ idle, was_clear, hBit.trans is_set, rfl, rfl⟩
  · rw [if_neg hr] at e
    exact .inl (e ▸ ⟨sBusy, sCopied⟩)

/-! ### What a command can do to the parts of the block -/

/-- A fault already marked keeps its reason (10_state.md R30). -/
def FaultKept (s t : State) : Prop := ∀ r, s.fault = some r → t.fault = some r

theorem FaultKept.of_eq {s t : State} (h : t.fault = s.fault) : FaultKept s t := fun _ hr => h.trans hr

theorem FaultKept.trans {s t u : State} (h : FaultKept s t) (h' : FaultKept t u) : FaultKept s u :=
  fun r hr => h' r (h r hr)

theorem mark_faultKept (r : FaultMark) (s : State) : FaultKept s (s.mark r) := mark_keeps_reason _ r

theorem raceIf_faultKept (b : Bool) (s : State) : FaultKept s (raceIf b s) := by
  cases b
  · exact .of_eq rfl
  · exact mark_faultKept _ s

theorem triggerIn_faultKept (s : State) : FaultKept s (triggerIn s) := by
  obtain ⟨-, e⟩ | ⟨-, -, e⟩ | ⟨-, -, e⟩ := triggerIn_cases s <;> rw [e]
  · exact mark_faultKept _ s
  · exact mark_faultKept _ s
  · exact .of_eq rfl

theorem triggerOut_faultKept (s : State) : FaultKept s (triggerOut s) := by
  obtain ⟨-, e⟩ | ⟨-, e⟩ := triggerOut_cases s <;> rw [e]
  · exact mark_faultKept _ s
  · exact .of_eq rfl

theorem writeCtrl_faultKept (v : Word) (s : State) : FaultKept s (writeCtrl v s) :=
  writeCtrl_induct (.of_eq rfl) (fun u h => h.trans (triggerIn_faultKept u))
    (fun u h => h.trans (triggerOut_faultKept u))

/-- No command clears or replaces a fault reason. -/
theorem Effect.faultKept {s t : State} {i : Instr} (h : Effect s i t) : FaultKept s t := by
  cases h with
  | quiet _ _ _ _ _ keeps _ => exact keeps
  | ctrl v => exact writeCtrl_faultKept v s
  | bufIn n j v => exact raceIf_faultKept s.inBusy s
  | bufOut n j v => exact raceIf_faultKept s.outBusy s
  | _ => exact .of_eq rfl

/-- No command writes the configuration (10_state.md R11). -/
theorem Effect.cfg {s t : State} {i : Instr} (h : Effect s i t) : t.cfg = s.cfg := by
  cases h with
  | ctrl v =>
    obtain ⟨-, -, -, -, -, -, -, hc, -⟩ := writeCtrl_frame v s
    exact hc
  | bufIn n j v => exact raceIf_cfg s.inBusy s
  | bufOut n j v => exact raceIf_cfg s.outBusy s
  | _ => rfl

/-- A command leaves the IN engine alone or starts it. -/
theorem Effect.inEngine {s t : State} {i : Instr} (h : Effect s i t) : SameInEngine s t ∨ InStarts s t := by
  cases h with
  | ctrl v => exact (writeCtrl_inEngine v s).imp id fun st => { st with }
  | bufIn n j v => exact .inl (by simp [SameInEngine, writeBufIn])
  | bufOut n j v => exact .inl (by simp [SameInEngine, writeBufOut])
  | _ => exact .inl ⟨rfl, rfl, rfl⟩

/-- A command leaves the OUT engine alone or starts it. -/
theorem Effect.outEngine {s t : State} {i : Instr} (h : Effect s i t) : SameOutEngine s t ∨ OutStarts s t := by
  cases h with
  | ctrl v => exact (writeCtrl_outEngine v s).imp id fun st => { st with }
  | bufIn n j v => exact .inl (by simp [SameOutEngine, writeBufIn])
  | bufOut n j v => exact .inl (by simp [SameOutEngine, writeBufOut])
  | _ => exact .inl ⟨rfl, rfl⟩

/-- Only the coprocessor's commands reach the FIFOs (10_state.md R24, R25). -/
theorem Effect.fifos {s t : State} {i : Instr} (h : Effect s i t) (hd : onDevPort i = false) :
    SameFifos s t := by
  cases h with
  | ctrl v =>
    obtain ⟨-, -, -, hIn, hOut, -⟩ := writeCtrl_frame v s
    exact ⟨hIn, hOut⟩
  | bufIn n j v => simp [SameFifos, writeBufIn]
  | bufOut n j v => simp [SameFifos, writeBufOut]
  | pop w ws _ => simp [onDevPort] at hd
  | push d _ => simp [onDevPort] at hd
  | _ => exact ⟨rfl, rfl⟩

/-! ### A decoded store lies inside its window -/

/-- A store of the command lies inside its window (40_register_access.md R80). -/
def StoreFits (c : Cfg) : Instr → Prop
  | .wrBufIn n j _ => j + n.bytes ≤ 4 * c.bufInWords
  | .wrBufOut n j _ => j + n.bytes ≤ 4 * c.bufOutWords
  | _ => True

theorem writeInstr_storeFits {c : Cfg} {n : Size} {off : Nat} (bad : Instr) (v : Word)
    (hb : StoreFits c bad) : StoreFits c (writeInstr bad n v (decodeTarget c off n.bytes)) := by
  cases h : decodeTarget c off n.bytes with
  | user k => fin_cases k <;> trivial
  | bufIn j =>
    obtain ⟨-, -, fits, -⟩ := decodeTarget_bufIn h
    exact fits
  | bufOut j =>
    obtain ⟨-, -, fits, -⟩ := decodeTarget_bufOut h
    exact fits
  | illegal => exact hb
  | _ => trivial

theorem readInstr_storeFits {c : Cfg} (n : Size) (bad : Instr) (tgt : Target) (hb : StoreFits c bad) :
    StoreFits c (readInstr bad n tgt) := by
  cases tgt with
  | user k => fin_cases k <;> trivial
  | illegal => exact hb
  | _ => trivial

theorem decodeBus_storeFits (c : Cfg) (w : BitVec 64) : StoreFits c (decodeBus c w) := by
  simp only [decodeBus, busFields]
  split
  · trivial
  · split
    · trivial
    · split
      · exact writeInstr_storeFits _ _ trivial
      · exact readInstr_storeFits _ _ _ trivial

theorem decodeCtl_storeFits (c : Cfg) (w : BitVec 72) : StoreFits c (decodeCtl w) := by
  simp only [decodeCtl, ctlFields]
  split <;> trivial

/-! ### The invariant under each operation (10_state.md R27) -/

theorem State.Inv.mark {s : State} (hi : s.Inv) (r : FaultMark) : (s.mark r).Inv := { hi with }

theorem State.Inv.raceIf {s : State} (hi : s.Inv) (b : Bool) : (raceIf b s).Inv := by
  cases b
  · exact hi
  · exact hi.mark _

theorem State.Inv.triggerIn {s : State} (hi : s.Inv) : (triggerIn s).Inv := by
  obtain ⟨-, e⟩ | ⟨-, -, e⟩ | ⟨-, fits, e⟩ := triggerIn_cases s <;> rw [e]
  · exact hi.mark _
  · exact hi.mark _
  · exact { hi with inCopied_le := Nat.zero_le _, inTarget_le := fits }

theorem State.Inv.triggerOut {s : State} (hi : s.Inv) : (triggerOut s).Inv := by
  obtain ⟨-, e⟩ | ⟨-, e⟩ := triggerOut_cases s <;> rw [e]
  · exact hi.mark _
  · exact { hi with outCopied_le := Nat.zero_le _ }

theorem State.Inv.writeCtrl {s : State} (hi : s.Inv) (v : Word) : (writeCtrl v s).Inv :=
  writeCtrl_induct { hi with } (fun _ h => h.triggerIn) (fun _ h => h.triggerOut)

/-- The value stored in DATA_AMOUNT has no bit at `AMOUNT_W` or above (10_state.md R17). -/
theorem writeAmount_fits {s : State} (hc : cfgOk s.cfg = true) (v : Word) :
    (writeAmount v s).amount.toNat < 2 ^ s.cfg.amountW := by
  have hlt : v.toNat % 2 ^ s.cfg.amountW < 2 ^ s.cfg.amountW := Nat.mod_lt _ (Nat.two_pow_pos _)
  have hle : 2 ^ s.cfg.amountW ≤ 2 ^ 16 := Nat.pow_le_pow_right (by decide) (cfgOk_sizes hc).amountW_le
  rw [writeAmount_amount, BitVec.toNat_ofNat, Nat.mod_eq_of_lt (hlt.trans_le hle)]
  exact hlt

theorem State.Inv.storeBufIn {s : State} (hi : s.Inv) {n j : Nat} (v : Word)
    (fits : j + n ≤ 4 * s.cfg.bufInWords) : (storeBufIn n j v s).Inv :=
  { hi with
    bufIn_wf := Memory.wf_store _ _ _ _ _ hi.bufIn_wf
    bufIn_below := Memory.below_store _ _ _ _ _ _ fits hi.bufIn_below }

theorem State.Inv.storeBufOut {s : State} (hi : s.Inv) {n j : Nat} (v : Word)
    (fits : j + n ≤ 4 * s.cfg.bufOutWords) : (storeBufOut n j v s).Inv :=
  { hi with
    bufOut_wf := Memory.wf_store _ _ _ _ _ hi.bufOut_wf
    bufOut_below := Memory.below_store _ _ _ _ _ _ fits hi.bufOut_below }

theorem State.Inv.dropIn {s : State} (hi : s.Inv) : (dropIn s).Inv :=
  { hi with fifoIn_fits := s.fifoIn.length_tail ▸ (Nat.sub_le _ 1).trans hi.fifoIn_fits }

theorem State.Inv.dropOut {s : State} (hi : s.Inv) : (dropOut s).Inv :=
  { hi with fifoOut_fits := s.fifoOut.length_tail ▸ (Nat.sub_le _ 1).trans hi.fifoOut_fits }

theorem State.Inv.pushIn {s : State} (hi : s.Inv) (w : Word) (room : s.fifoIn.length < s.cfg.fifoInDepth) :
    (pushIn w s).Inv :=
  { hi with fifoIn_fits := by simpa using room }

theorem State.Inv.pushOut {s : State} (hi : s.Inv) (w : Word) (room : s.fifoOut.length < s.cfg.fifoOutDepth) :
    (pushOut w s).Inv :=
  { hi with fifoOut_fits := by simpa using room }

/-- A command whose store lies inside its window keeps the invariant. -/
theorem Effect.keeps_inv {s t : State} {i : Instr} (h : Effect s i t) (hi : s.Inv) (fits : StoreFits s.cfg i) :
    t.Inv := by
  cases h with
  | quiet => exact { hi with }
  | user => exact { hi with }
  | amount v => exact { hi with amount_fits := writeAmount_fits hi.cfg_ok v }
  | ctrl v => exact { hi.writeCtrl v with }
  | bufIn n j v => exact { (hi.raceIf s.inBusy).storeBufIn v (by simpa [StoreFits] using fits) with }
  | bufOut n j v => exact { (hi.raceIf s.outBusy).storeBufOut v (by simpa [StoreFits] using fits) with }
  | pop => exact { hi.dropIn with }
  | push d room => exact { hi.pushOut d room with }

/-! ### What each agent's turn can do -/

/-- What a host's turn can do. `still`: no access, so only the port and the response move. `command`: one
command of the bus or the control port runs, and the procedure and the response go on from what it left. -/
inductive HostMove (s : State) : State → Prop
  | still (port : List HostCmd) (resp : HostResp) : HostMove s { s with hostPort := port, hostResp := resp }
  | command (port : List HostCmd) (pr : Option ProcRun) (resp : HostResp) (i : Instr) (u : State) :
      Effect { s with hostPort := port } i u → onDevPort i = false → StoreFits s.cfg i →
      HostMove s { u with proc := pr, hostResp := resp }

/-- A command taken from the port is a move of the host. -/
theorem exec_hostMove {s t : State} {port : List HostCmd} {i : Instr} (hc : cfgOk s.cfg = true)
    (hd : onDevPort i = false) (fits : StoreFits s.cfg i) (h : exec i { s with hostPort := port } = .next t) :
    HostMove s t :=
  .command port t.proc t.hostResp i t (exec_effect hc h) hd fits

/-- An access of a procedure is a move of the host. -/
theorem runPhase_hostMove {s t : State} {port : List HostCmd} {p : Proc} {ph : Phase} (hc : cfgOk s.cfg = true)
    (h : runPhase p ph { s with hostPort := port } = .next t) : HostMove s t := by
  obtain ⟨u, hu⟩ := exec_next (decodeBus s.cfg (procAccess s.cfg p ph)) { s with hostPort := port }
  have move := fun pr resp => HostMove.command port pr resp _ u (exec_effect hc hu) (decodeBus_onDevPort _ _)
    (decodeBus_storeFits _ _)
  simp only [runPhase, hu, Host.Outcome.next.injEq] at h
  subst h
  cases procNext u.cfg p ph (readValue u) with
  | go ph' => exact move (some ⟨p, ph'⟩) u.hostResp
  | done r => exact move none r

theorem hostTurn_hostMove {s t : State} (hc : cfgOk s.cfg = true) (h : hostTurn s = .next t) : HostMove s t := by
  simp only [hostTurn] at h
  split at h
  case h_1 r _ => exact runPhase_hostMove (port := s.hostPort) hc h
  case h_2 =>
    split at h
    case h_1 =>
      cases h
      exact .still s.hostPort s.hostResp
    case h_2 w rest _ => exact exec_hostMove hc (decodeBus_onDevPort _ _) (decodeBus_storeFits _ _) h
    case h_3 w rest _ => exact exec_hostMove hc (decodeCtl_onDevPort _) (decodeCtl_storeFits _ _) h
    case h_4 p rest _ =>
      simp only [startProc] at h
      split at h
      case h_1 r _ =>
        cases h
        exact .still rest r
      case h_2 ph _ => exact runPhase_hostMove hc h

theorem HostMove.faultKept {s t : State} (h : HostMove s t) : FaultKept s t := by
  cases h with
  | still => exact .of_eq rfl
  | command _ _ _ _ _ he => exact he.faultKept

theorem HostMove.cfg {s t : State} (h : HostMove s t) : t.cfg = s.cfg := by
  cases h with
  | still => rfl
  | command _ _ _ _ _ he => exact he.cfg

theorem HostMove.fifos {s t : State} (h : HostMove s t) : SameFifos s t := by
  cases h with
  | still => exact ⟨rfl, rfl⟩
  | command _ _ _ _ _ he hd => exact he.fifos hd

theorem HostMove.inEngine {s t : State} (h : HostMove s t) : SameInEngine s t ∨ InStarts s t := by
  cases h with
  | still => exact .inl ⟨rfl, rfl, rfl⟩
  | command _ _ _ _ _ he => exact he.inEngine.imp id fun st => { st with }

theorem HostMove.outEngine {s t : State} (h : HostMove s t) : SameOutEngine s t ∨ OutStarts s t := by
  cases h with
  | still => exact .inl ⟨rfl, rfl⟩
  | command _ _ _ _ _ he => exact he.outEngine.imp id fun st => { st with }

theorem HostMove.keeps_inv {s t : State} (h : HostMove s t) (hi : s.Inv) : t.Inv := by
  cases h with
  | still => exact { hi with }
  | command port _ _ _ _ he _ fits =>
    have hi' : State.Inv { s with hostPort := port } := { hi with }
    exact { he.keeps_inv hi' fits with }

/-- Everything the IN engine's turn can do (41_copy_engines.md R111 to R113). -/
theorem inEngineTurn_cases (s : State) :
    inEngineTurn s = s
    ∨ (s.inBusy = true ∧ s.inCopied.toNat < s.inTarget.toNat ∧ s.fifoIn.length < s.cfg.fifoInDepth
        ∧ inEngineTurn s = inCopy s)
    ∨ (s.inBusy = true ∧ inEngineTurn s = { s with inBusy := false }) := by
  simp only [inEngineTurn]
  split
  case isTrue h =>
    simp only [inCopyEnabled, Bool.and_eq_true, decide_eq_true_eq] at h
    obtain ⟨⟨busy, more⟩, room⟩ := h
    exact .inr (.inl ⟨busy, more, room, rfl⟩)
  case isFalse =>
    split
    case isTrue h =>
      simp only [inStopFullEnabled, Bool.and_eq_true] at h
      obtain ⟨⟨⟨busy, -⟩, -⟩, -⟩ := h
      exact .inr (.inr ⟨busy, rfl⟩)
    case isFalse =>
      split
      case isTrue h =>
        simp only [inDoneEnabled, Bool.and_eq_true] at h
        exact .inr (.inr ⟨h.1, rfl⟩)
      case isFalse => exact .inl rfl

/-- Everything the OUT engine's turn can do (41_copy_engines.md R114, R115). -/
theorem outEngineTurn_cases (s : State) :
    outEngineTurn s = s
    ∨ (s.outBusy = true ∧ s.fifoOut ≠ [] ∧ s.outCopied.toNat < s.cfg.bufOutWords
        ∧ outEngineTurn s = outCopy s)
    ∨ (s.outBusy = true ∧ outEngineTurn s = { s with outBusy := false }) := by
  simp only [outEngineTurn]
  split
  case isTrue h =>
    simp only [outCopyEnabled, Bool.and_eq_true, decide_eq_true_eq] at h
    obtain ⟨⟨busy, word⟩, room⟩ := h
    exact .inr (.inl ⟨busy, List.length_pos_iff.mp word, room, rfl⟩)
  case isFalse =>
    split
    case isTrue h =>
      simp only [outDoneEnabled, Bool.and_eq_true] at h
      exact .inr (.inr ⟨h.1, rfl⟩)
    case isFalse => exact .inl rfl

/-- Everything the echo coprocessor's turn can do (41_copy_engines.md R119). -/
theorem echoTurn_cases (s : State) :
    echoTurn s = s
    ∨ ∃ w ws, s.fifoIn = w :: ws ∧ s.fifoOut.length < s.cfg.fifoOutDepth
        ∧ echoTurn s = pushOut w (dropIn s) := by
  simp only [echoTurn]
  split
  case isTrue h =>
    simp only [echoEnabled, Bool.and_eq_true, decide_eq_true_eq] at h
    obtain ⟨word, room⟩ := h
    obtain ⟨w, ws, hw⟩ := List.exists_cons_of_length_pos word
    exact .inr ⟨w, ws, hw, room, by simp [echo, hw]⟩
  case isFalse => exact .inl rfl

/-- What the coprocessor's turn can do (41_copy_engines.md R117, R118). `still`: its command has no step, or
there is none. -/
inductive DevMove (s : State) : State → Prop
  | still (resp : DevResp) : DevMove s { s with devResp := resp }
  | pop (port : List (BitVec 33)) (w : Word) (ws : List Word) : s.fifoIn = w :: ws →
      DevMove s { (dropIn s).respondDev (.popped w) with devPort := port }
  | push (port : List (BitVec 33)) (d : Word) : s.fifoOut.length < s.cfg.fifoOutDepth →
      DevMove s { (pushOut d s).respondDev .pushed with devPort := port }

theorem exec_devPopIn_cons {s : State} {w : Word} {ws : List Word} (hf : s.fifoIn = w :: ws) :
    exec .devPopIn s = .next ((dropIn s).respondDev (.popped w)) := by
  simp [exec, execDevPopIn, hf]

theorem devTurn_devMove {s t : State} (h : devTurn s = .next t) : DevMove s t := by
  simp only [devTurn] at h
  split at h
  case h_1 =>
    cases h
    exact .still s.devResp
  case h_2 w rest _ =>
    have hd := decodeDev_onDevPort w
    generalize decodeDev w = i at h hd
    cases i with
    | devPopIn =>
      cases hf : s.fifoIn with
      | nil =>
        simp only [devWaits, hf, List.isEmpty_nil, if_true, exec, execDevPopIn, Host.Outcome.next.injEq] at h
        exact h ▸ .still .waiting
      | cons x xs =>
        have pops := exec_devPopIn_cons (s := { s with devPort := rest }) hf
        simp only [devWaits, List.isEmpty_eq_false_iff.mpr (hf ▸ List.cons_ne_nil x xs), Bool.false_eq_true,
          if_false, pops, Host.Outcome.next.injEq] at h
        exact h ▸ .pop rest x xs hf
    | devPushOut d =>
      by_cases room : s.fifoOut.length < s.cfg.fifoOutDepth
      · simp only [devWaits, room, decide_true, Bool.not_true, Bool.false_eq_true, if_false, if_true, exec,
          execDevPushOut, Host.Outcome.next.injEq] at h
        exact h ▸ .push rest d room
      · simp only [devWaits, room, decide_false, Bool.not_false, if_false, if_true, exec, execDevPushOut,
          Host.Outcome.next.injEq] at h
        exact h ▸ .still .waiting
    | _ => cases hd

/-! ### The invariant under each agent's turn -/

/-- Below a bound that 16 bits hold, the next count is the successor. -/
theorem count_succ {x : Count} {n : Nat} (hx : x.toNat < n) (hn : n < 65536) : (x + 1).toNat = x.toNat + 1 := by
  rw [BitVec.toNat_add]
  exact Nat.mod_eq_of_lt (show x.toNat + 1 < 65536 by omega)

theorem State.Inv.inCopy {s : State} (hi : s.Inv) (more : s.inCopied.toNat < s.inTarget.toNat)
    (room : s.fifoIn.length < s.cfg.fifoInDepth) : (inCopy s).Inv :=
  { hi with
    fifoIn_fits := (hi.pushIn (bufInValue 4 (4 * s.inCopied.toNat) s) room).fifoIn_fits
    inCopied_le := (count_succ more s.inTarget.isLt).trans_le more }

theorem State.Inv.outCopy {s : State} (hi : s.Inv) (more : s.outCopied.toNat < s.cfg.bufOutWords) :
    (outCopy s).Inv := by
  have stored := hi.dropOut.storeBufOut (n := 4) (j := 4 * s.outCopied.toNat) (s.fifoOut.headD 0)
    (show 4 * s.outCopied.toNat + 4 ≤ 4 * s.cfg.bufOutWords by omega)
  exact { stored with
    outCopied_le := (count_succ more (cfgOk_sizes hi.cfg_ok).bufOut_lt).trans_le more }

theorem State.Inv.inEngineTurn {s : State} (hi : s.Inv) : (inEngineTurn s).Inv := by
  obtain e | ⟨-, more, room, e⟩ | ⟨-, e⟩ := inEngineTurn_cases s <;> rw [e]
  · exact hi
  · exact hi.inCopy more room
  · exact { hi with }

theorem State.Inv.outEngineTurn {s : State} (hi : s.Inv) : (outEngineTurn s).Inv := by
  obtain e | ⟨-, -, more, e⟩ | ⟨-, e⟩ := outEngineTurn_cases s <;> rw [e]
  · exact hi
  · exact hi.outCopy more
  · exact { hi with }

theorem State.Inv.echoTurn {s : State} (hi : s.Inv) : (echoTurn s).Inv := by
  obtain e | ⟨w, _, -, room, e⟩ := echoTurn_cases s <;> rw [e]
  · exact hi
  · exact hi.dropIn.pushOut w room

theorem DevMove.keeps_inv {s t : State} (h : DevMove s t) (hi : s.Inv) : t.Inv := by
  cases h with
  | still => exact { hi with }
  | pop => exact { hi.dropIn with }
  | push port d room => exact { hi.pushOut d room with }

theorem State.Inv.agentTurn {s t : State} {a : Agent} (hi : s.Inv) (h : agentTurn a s = .next t) : t.Inv := by
  cases a with
  | host => exact (hostTurn_hostMove hi.cfg_ok h).keeps_inv hi
  | inEngine =>
    cases h
    exact hi.inEngineTurn
  | outEngine =>
    cases h
    exact hi.outEngineTurn
  | coprocessor => exact (devTurn_devMove h).keeps_inv hi
  | echo =>
    cases h
    exact hi.echoTurn

/-- Settles O49: the step is a turn of one agent, and each agent's turn is a few operations that keep the
invariant. -/
theorem stepKeepsInvariant : Obligations.StepKeepsInvariant := by
  intro s t hi h
  obtain ⟨-, a, rest, -, turn⟩ := step_cases h
  have hi' : State.Inv { s with turns := rest } := { hi with }
  exact hi'.agentTurn turn

/-! ### The owners of each component (10_state.md R11, R20 to R25) -/

/-- What the host's turns alone write (10_state.md R11, R20 to R22), and the configuration. -/
structure SameHostOwned (s t : State) : Prop where
  ctrl : SameCtrl s t
  amount : SameAmount s t
  users : SameUsers s t
  bufIn : SameBufIn s t
  fault : SameFault s t
  cfg : t.cfg = s.cfg

theorem SameHostOwned.refl (s : State) : SameHostOwned s s :=
  ⟨⟨rfl, rfl⟩, rfl, fun _ => ⟨rfl, rfl⟩, fun _ => rfl, rfl, rfl⟩

theorem SameUsers.trans {s t u : State} (h : SameUsers s t) (h' : SameUsers t u) : SameUsers s u :=
  fun i => ⟨(h' i).1.trans (h i).1, (h' i).2.trans (h i).2⟩

/-- No agent but the host writes what the host owns. -/
theorem agentTurn_sameHostOwned {s t : State} {a : Agent} (ha : a ≠ .host) (h : agentTurn a s = .next t) :
    SameHostOwned s t := by
  cases a with
  | host => exact absurd rfl ha
  | inEngine =>
    cases h
    obtain e | ⟨-, -, -, e⟩ | ⟨-, e⟩ := inEngineTurn_cases s <;> rw [e] <;> exact { SameHostOwned.refl s with }
  | outEngine =>
    cases h
    obtain e | ⟨-, -, -, e⟩ | ⟨-, e⟩ := outEngineTurn_cases s <;> rw [e] <;> exact { SameHostOwned.refl s with }
  | coprocessor => cases devTurn_devMove h <;> exact { SameHostOwned.refl s with }
  | echo =>
    cases h
    obtain e | ⟨_, _, -, -, e⟩ := echoTurn_cases s <;> rw [e] <;> exact { SameHostOwned.refl s with }

/-- No agent but the host and the IN engine itself writes the IN engine's state. -/
theorem agentTurn_sameInEngine {s t : State} {a : Agent} (ha : a ≠ .host) (hIn : a ≠ .inEngine)
    (h : agentTurn a s = .next t) : SameInEngine s t := by
  cases a with
  | host => exact absurd rfl ha
  | inEngine => exact absurd rfl hIn
  | outEngine =>
    cases h
    obtain e | ⟨-, -, -, e⟩ | ⟨-, e⟩ := outEngineTurn_cases s <;> rw [e] <;> exact ⟨rfl, rfl, rfl⟩
  | coprocessor => cases devTurn_devMove h <;> exact ⟨rfl, rfl, rfl⟩
  | echo =>
    cases h
    obtain e | ⟨_, _, -, -, e⟩ := echoTurn_cases s <;> rw [e] <;> exact ⟨rfl, rfl, rfl⟩

/-- No agent but the host and the OUT engine itself writes the output window or the OUT engine's state. -/
theorem agentTurn_sameOutEngine {s t : State} {a : Agent} (ha : a ≠ .host) (hOut : a ≠ .outEngine)
    (h : agentTurn a s = .next t) : SameBufOut s t ∧ SameOutEngine s t := by
  cases a with
  | host => exact absurd rfl ha
  | inEngine =>
    cases h
    obtain e | ⟨-, -, -, e⟩ | ⟨-, e⟩ := inEngineTurn_cases s <;> rw [e] <;> exact ⟨fun _ => rfl, rfl, rfl⟩
  | outEngine => exact absurd rfl hOut
  | coprocessor => cases devTurn_devMove h <;> exact ⟨fun _ => rfl, rfl, rfl⟩
  | echo =>
    cases h
    obtain e | ⟨_, _, -, -, e⟩ := echoTurn_cases s <;> rw [e] <;> exact ⟨fun _ => rfl, rfl, rfl⟩

/-- The IN engine only appends to the input FIFO (10_state.md R24). -/
theorem inEngineTurn_fifos (s : State) :
    (inEngineTurn s).fifoOut = s.fifoOut ∧ ∃ ws, (inEngineTurn s).fifoIn = s.fifoIn ++ ws := by
  obtain e | ⟨-, -, -, e⟩ | ⟨-, e⟩ := inEngineTurn_cases s <;> rw [e]
  · exact ⟨rfl, [], (List.append_nil _).symm⟩
  · exact ⟨rfl, _, rfl⟩
  · exact ⟨rfl, [], (List.append_nil _).symm⟩

/-- The OUT engine only removes at the head of the output FIFO (10_state.md R25). -/
theorem outEngineTurn_fifos (s : State) :
    (outEngineTurn s).fifoIn = s.fifoIn ∧ ∃ ws, s.fifoOut = ws ++ (outEngineTurn s).fifoOut := by
  obtain e | ⟨-, hf, -, e⟩ | ⟨-, e⟩ := outEngineTurn_cases s <;> rw [e]
  · exact ⟨rfl, [], rfl⟩
  · obtain ⟨w, ws, hf⟩ := List.exists_cons_of_ne_nil hf
    exact ⟨rfl, [w], by simp [outCopy, hf]⟩
  · exact ⟨rfl, [], rfl⟩

/-- The coprocessor removes at the head of the input FIFO and appends to the output FIFO. -/
theorem DevMove.fifos {s t : State} (h : DevMove s t) :
    (∃ ws, s.fifoIn = ws ++ t.fifoIn) ∧ ∃ ws, t.fifoOut = s.fifoOut ++ ws := by
  cases h with
  | still => exact ⟨⟨[], rfl⟩, [], (List.append_nil _).symm⟩
  | pop port w ws hf =>
    refine ⟨⟨[w], ?_⟩, [], (List.append_nil _).symm⟩
    simp [hf]
  | push port d _ => exact ⟨⟨[], rfl⟩, [d], rfl⟩

/-- The echo coprocessor moves the word at the head of the input FIFO, or none. -/
theorem echoTurn_fifos (s : State) :
    SameFifos s (echoTurn s)
    ∨ ∃ w, s.fifoIn = w :: (echoTurn s).fifoIn ∧ (echoTurn s).fifoOut = s.fifoOut ++ [w] := by
  obtain e | ⟨w, ws, hf, -, e⟩ := echoTurn_cases s <;> rw [e]
  · exact .inl ⟨rfl, rfl⟩
  · exact .inr ⟨w, by simp [hf], rfl⟩

/-- Settles O55: each clause is what the turns of the agents named in it can do. -/
theorem stateHasItsOwners : Obligations.StateHasItsOwners := by
  intro s t h
  obtain ⟨hc, a, rest, hts, turn⟩ := step_cases h
  simp only [hts, List.head?_cons, ne_eq, Option.some.injEq]
  have outOwned := fun ha hOut => agentTurn_sameOutEngine ha hOut turn
  have inOwned := fun ha hIn => agentTurn_sameInEngine ha hIn turn
  refine ⟨?_, outOwned, inOwned, ?_, ?_, ?_, ?_, ?_⟩
  · intro ha
    have own := agentTurn_sameHostOwned ha turn
    exact ⟨own.ctrl, own.amount, own.users, own.bufIn, own.fault⟩
  · rintro rfl
    exact (hostTurn_hostMove (s := { s with turns := rest }) hc turn).fifos
  · rintro rfl
    cases turn
    exact inEngineTurn_fifos { s with turns := rest }
  · rintro rfl
    cases turn
    exact outEngineTurn_fifos { s with turns := rest }
  · rintro rfl
    exact (devTurn_devMove turn).fifos
  · rintro rfl
    cases turn
    exact echoTurn_fifos { s with turns := rest }

/-! ### The configuration and the fault mark (10_state.md R11, R30) -/

theorem agentTurn_cfg_faultKept {s t : State} {a : Agent} (hc : cfgOk s.cfg = true)
    (h : agentTurn a s = .next t) : t.cfg = s.cfg ∧ FaultKept s t := by
  by_cases ha : a = .host
  · subst ha
    have move := hostTurn_hostMove hc h
    exact ⟨move.cfg, move.faultKept⟩
  · have own := agentTurn_sameHostOwned ha h
    exact ⟨own.cfg, .of_eq own.fault⟩

/-- Settles O51: the host's commands keep both, and no other agent writes either. -/
theorem configFixedAndFaultSticky : Obligations.ConfigFixedAndFaultSticky := by
  intro s t h
  obtain ⟨hc, a, rest, -, turn⟩ := step_cases h
  exact agentTurn_cfg_faultKept (s := { s with turns := rest }) hc turn

/-! ### The start of an engine (10_state.md R12, R13, R28) -/

/-- The IN engine's own turn never makes it busy. -/
theorem inEngineTurn_idle {s : State} (idle : s.inBusy = false) : (inEngineTurn s).inBusy = false := by
  obtain e | ⟨busy, -⟩ | ⟨busy, -⟩ := inEngineTurn_cases s
  · rw [e, idle]
  · simp [idle] at busy
  · simp [idle] at busy

/-- The OUT engine's own turn never makes it busy. -/
theorem outEngineTurn_idle {s : State} (idle : s.outBusy = false) : (outEngineTurn s).outBusy = false := by
  obtain e | ⟨busy, -⟩ | ⟨busy, -⟩ := outEngineTurn_cases s
  · rw [e, idle]
  · simp [idle] at busy
  · simp [idle] at busy

/-- Only a host's turn makes the IN engine busy, and by starting it. -/
theorem agentTurn_inStarts {s t : State} {a : Agent} (hc : cfgOk s.cfg = true) (h : agentTurn a s = .next t)
    (idle : s.inBusy = false) (busy : t.inBusy = true) : a = .host ∧ InStarts s t := by
  have changed : ¬ SameInEngine s t := fun same => by simp [same.1, idle] at busy
  by_cases ha : a = .host
  · subst ha
    exact ⟨rfl, (hostTurn_hostMove hc h).inEngine.resolve_left changed⟩
  · by_cases hIn : a = .inEngine
    · subst hIn
      cases h
      simp [inEngineTurn_idle idle] at busy
    · exact absurd (agentTurn_sameInEngine ha hIn h) changed

/-- Only a host's turn makes the OUT engine busy, and by starting it. -/
theorem agentTurn_outStarts {s t : State} {a : Agent} (hc : cfgOk s.cfg = true) (h : agentTurn a s = .next t)
    (idle : s.outBusy = false) (busy : t.outBusy = true) : a = .host ∧ OutStarts s t := by
  have changed : ¬ SameOutEngine s t := fun same => by simp [same.1, idle] at busy
  by_cases ha : a = .host
  · subst ha
    exact ⟨rfl, (hostTurn_hostMove hc h).outEngine.resolve_left changed⟩
  · by_cases hOut : a = .outEngine
    · subst hOut
      cases h
      simp [outEngineTurn_idle idle] at busy
    · exact absurd (agentTurn_sameOutEngine ha hOut h).2 changed

/-- Settles O52: an idle engine that is busy after the step was started by a CTRL write of the host. -/
theorem enginesStartOnlyOnEdges : Obligations.EnginesStartOnlyOnEdges := by
  intro s t h
  obtain ⟨hc, a, rest, hts, turn⟩ := step_cases h
  rw [hts, List.head?_cons, Option.some.injEq]
  constructor
  · intro idle busy
    obtain ⟨ha, st⟩ := agentTurn_inStarts (s := { s with turns := rest }) hc turn idle busy
    exact ⟨st.bit_was_clear, st.bit_is_set, st.target, st.fresh, st.fits, ha⟩
  · intro idle busy
    obtain ⟨ha, st⟩ := agentTurn_outStarts (s := { s with turns := rest }) hc turn idle busy
    exact ⟨st.bit_was_clear, st.bit_is_set, st.fresh, ha⟩

/-! ### A user register between its write and its read (10_state.md R20) -/

/-- Turns of the other agents leave the user registers and the configuration. -/
theorem runTurns_sameUsers {as : List Agent} {s t : State} (hh : Agent.host ∉ as)
    (h : runTurns as s = .next t) : SameUsers s t ∧ t.cfg = s.cfg := by
  induction as generalizing s with
  | nil =>
    cases h
    exact ⟨fun _ => ⟨rfl, rfl⟩, rfl⟩
  | cons a as ih =>
    obtain ⟨ha, has⟩ := List.ne_and_not_mem_of_not_mem_cons hh
    simp only [runTurns] at h
    split at h
    case h_1 u hu =>
      have own := agentTurn_sameHostOwned ha.symm hu
      obtain ⟨users, cfg⟩ := ih has h
      exact ⟨own.users.trans users, cfg.trans own.cfg⟩
    case h_2 => cases h
    case h_3 => cases h

theorem userIndexValid_ofNat (k : Fin 6) : userIndexValid (BitVec.ofNat 32 k.val) = true := by
  revert k
  decide

theorem userOffset_ofNat (c : Cfg) (k : Fin 6) : userOffset c (BitVec.ofNat 32 k.val) = c.offUser0 + 4 * k.val := by
  have : k.val % 2 ^ 32 = k.val := Nat.mod_eq_of_lt (by omega)
  rw [userOffset, BitVec.toNat_ofNat, this]

/-- The write commands of the user registers, by index (40_register_access.md R89). -/
theorem exec_wrUser (k : Fin 6) (v : Word) (s : State) :
    exec #v[Instr.wrUser0 v, .wrUser1 v, .wrUser2 v, .wrUser3 v, .wrUser4 v, .wrUser5 v][k] s
      = .next ((writeUser k v s).respond .done) := by
  fin_cases k <;> rfl

/-- The read commands of the user registers, by index (40_register_access.md R88). -/
theorem exec_rdUser (k : Fin 6) (s : State) :
    exec #v[Instr.rdUser0, .rdUser1, .rdUser2, .rdUser3, .rdUser4, .rdUser5][k] s
      = .next (s.nextDraw.respond (.data 4 (userValue k s))) := by
  fin_cases k <;> rfl

/-- SET_USER_REG at the index of a user register (42_status_control_mux.md R136). -/
theorem exec_setUserReg {s : State} (hc : cfgOk s.cfg = true) (k : Fin 6) (v : Word) :
    exec (.setUserReg (BitVec.ofNat 32 k.val) v) s = .next ((writeUser k v s).respond (.value 0)) := by
  simp only [exec, execSetUserReg, userIndexValid_ofNat, if_true, userOffset_ofNat, memWrite_user hc, controlAnswer]

/-- GET_USER_REG at the index of a user register (42_status_control_mux.md R137). -/
theorem exec_getUserReg {s : State} (hc : cfgOk s.cfg = true) (k : Fin 6) :
    exec (.getUserReg (BitVec.ofNat 32 k.val)) s = .next (s.nextDraw.respond (.value (userValue k s))) := by
  simp only [exec, execGetUserReg, userIndexValid_ofNat, if_true, userOffset_ofNat, memRead_user hc, controlAnswer]

/-- A written register reads as its stored word (10_state.md R20). -/
theorem userValue_written {k : Fin 6} {s : State} (h : s.userWritten[k] = true) : userValue k s = s.user[k] :=
  if_pos h

/-- A write stores the word and marks the register written (40_register_access.md R89). -/
theorem writeUser_stores (k : Fin 6) (v : Word) (s : State) :
    (writeUser k v s).userWritten[k] = true ∧ (writeUser k v s).user[k] = v := by
  simp

/-- Settles O14: the write stores the word, the other agents leave it, and both reads hand it over. -/
theorem userKeepsValueUntilRead : Obligations.UserKeepsValueUntilRead := by
  intro s t u k v as hc write hh run
  obtain ⟨r, rfl⟩ : ∃ r, t = (writeUser k v s).respond r := by
    rcases write with h | h
    · rw [exec_setUserReg hc, Host.Outcome.next.injEq] at h
      exact ⟨_, h.symm⟩
    · rw [exec_wrUser, Host.Outcome.next.injEq] at h
      exact ⟨_, h.symm⟩
  obtain ⟨users, hcfg⟩ := runTurns_sameUsers hh run
  obtain ⟨hWritten, hUser⟩ := writeUser_stores k v s
  have value : userValue k u = v :=
    (userValue_written ((users k).2.trans hWritten)).trans ((users k).1.trans hUser)
  have hcu : cfgOk u.cfg = true := hcfg ▸ hc
  exact ⟨⟨_, exec_rdUser k u, by rw [State.respond_hostResp, value]⟩,
    ⟨_, exec_getUserReg hcu k, by rw [State.respond_hostResp, value]⟩⟩

/-! ### Flags, counts and the reset state (10_state.md R27, R31) -/

/-- Settles O50: a depth is at least 1, and each count is read back whole from its field. -/
theorem flagsAndCountsConsistent : Obligations.FlagsAndCountsConsistent := by
  intro s hi
  have sizes := cfgOk_sizes hi.cfg_ok
  have inPos := sizes.fifoIn_pos
  have outPos := sizes.fifoOut_pos
  refine ⟨?_, ?_, ?_, ?_⟩
  · simp only [inEmpty, inFull, beq_iff_eq]
    omega
  · simp only [outEmpty, outFull, beq_iff_eq]
    omega
  · rw [countOf_inCopied hi, BitVec.toNat_setWidth_of_le (by decide)]
    exact hi.inCopied_le.trans hi.inTarget_le
  · rw [countOf_outCopied hi, BitVec.toNat_setWidth_of_le (by decide)]
    exact hi.outCopied_le

/-- Settles O48: every count and both FIFOs are empty, and no window byte is listed. -/
theorem resetMeetsInvariant : Obligations.ResetMeetsInvariant := fun _ hc =>
  { cfg_ok := hc
    amount_fits := Nat.two_pow_pos _
    fifoIn_fits := Nat.zero_le _
    fifoOut_fits := Nat.zero_le _
    inCopied_le := Nat.zero_le _
    inTarget_le := Nat.zero_le _
    outCopied_le := Nat.zero_le _
    bufIn_wf := rfl
    bufOut_wf := rfl
    bufIn_below := rfl
    bufOut_below := rfl }

@[simp] theorem resetWith_cfg (c : Cfg) : (State.resetWith c).cfg = c := rfl

/-- At reset both FIFOs are empty, and neither is full, since a depth is at least 1. -/
theorem resetWith_statusWord {c : Cfg} (hc : cfgOk c = true) :
    statusWord (State.resetWith c) = flagAt true c.stInEmptyBit ||| flagAt true c.stOutEmptyBit := by
  have inPos := (cfgOk_sizes hc).fifoIn_pos
  have outPos := (cfgOk_sizes hc).fifoOut_pos
  have notFull : inFull (State.resetWith c) = false ∧ outFull (State.resetWith c) = false := by
    simp only [inFull, outFull, State.resetWith, List.length_nil, beq_eq_false_iff_ne]
    omega
  have idle : (State.resetWith c).inBusy = false ∧ (State.resetWith c).outBusy = false := ⟨rfl, rfl⟩
  have empty : inEmpty (State.resetWith c) = true ∧ outEmpty (State.resetWith c) = true := ⟨rfl, rfl⟩
  simp [statusWord, flagAt, notFull, empty, idle]

/-- Settles O47: the stored fields are those of the reset state, and the three reads show them. -/
theorem resetReadsIdleAndEmpty : Obligations.ResetReadsIdleAndEmpty := by
  intro c hc
  refine ⟨rfl, rfl, rfl, rfl, rfl, rfl, rfl, rfl, rfl, rfl, rfl, ?_, fun _ => ⟨rfl, rfl⟩,
    ⟨_, _, rfl, rfl, ?_⟩, ⟨_, rfl, ?_⟩, ⟨_, rfl, ?_⟩⟩
  · intro k
    simp [State.resetWith]
  · intro b hb
    rw [resetWith_statusWord hc, BitVec.getLsbD_or, flagAt_getLsbD _ _ _ hb, flagAt_getLsbD _ _ _ hb]
    simp
  · simp [xferWord, State.resetWith]
  · simp [ctrlWord, flagAt, State.resetWith]

end Sys2Proof.Machine
end

section
/-! PROOFS. The statements of 20_memory.md: the bytes of a window access in either byte order (R43), the bus
misuse that decodes to BUS_ILLEGAL (R41, R44, R45), and the reads of registers that change nothing (R48). -/

namespace Sys2Proof

/-! ### Access sizes (30_encoding.md R64) -/

theorem Size.bytes_pos (n : Size) : 0 < n.bytes := by cases n <;> decide

theorem Size.bytes_le_four (n : Size) : n.bytes ≤ 4 := by cases n <;> decide

/-- Only a word access is four bytes wide. -/
theorem Size.eq_word_of_bytes {n : Size} (h : n.bytes = 4) : n = .word := by
  cases n with
  | word => rfl
  | _ => simp [Size.bytes] at h

namespace Machine

/-! ### Bytes of an access, in either order (20_memory.md R43, log 15) -/

/-- A stored access reads, byte by byte, as the bytes of its value. -/
theorem Memory.get?_store_byte (m : Memory) (o : ByteOrder) (j n : Nat) (v : Word) {k : Nat} (hk : k < n) :
    Memory.get? (Memory.store m o j n v) (j + k) = some (byteAt o n v k) := by
  rw [Memory.get?_store, if_pos (by omega), Nat.add_sub_cancel_left, toBytes_getElem? o n k v hk]
  cases o <;> rfl

/-- The bytes of the value of an access are the bytes it was read from. -/
theorem byteAt_ofBytes (o : ByteOrder) {bs : List Byte} {k : Nat} {b : Byte} (short : bs.length ≤ 4)
    (hb : bs[k]? = some b) : byteAt o bs.length (ofBytes o bs) k = b := by
  have hk : k < bs.length := (List.getElem?_eq_some_iff.mp hb).1
  cases o with
  | little =>
    simp only [byteAt, ofBytes]
    rw [wordLE_extract bs k (by omega), List.getD_eq_getElem?_getD, hb, Option.getD_some]
  | big =>
    have mirrored : bs.reverse[bs.length - 1 - k]? = some b := by
      rw [List.getElem?_reverse (by omega), show bs.length - 1 - (bs.length - 1 - k) = k by omega, hb]
    simp only [byteAt, ofBytes]
    rw [wordLE_extract _ _ (by omega), List.getD_eq_getElem?_getD, mirrored, Option.getD_some]

/-- The value of an access shows every byte its window lists. -/
theorem Memory.byteAt_value {m : Memory} {free : Word} {j n k : Nat} {b : Byte} (o : ByteOrder) (short : n ≤ 4)
    (hk : k < n) (hb : Memory.get? m (j + k) = some b) : byteAt o n (Memory.value m o free j n) k = b := by
  have listed : (Memory.getBytes m free j n)[k]? = some b := by
    rw [Memory.getBytes_getElem? _ _ _ _ _ hk, hb, Option.getD_some]
  simpa [Memory.value] using byteAt_ofBytes o (by simpa using short) listed

/-- The bytes of a store, put together again. -/
theorem ofBytes_toBytes_toNat (o : ByteOrder) {n : Nat} (short : n ≤ 4) (v : Word) :
    (ofBytes o (toBytes o n v)).toNat = v.toNat % 2 ^ (8 * n) := by
  cases o with
  | little => exact wordLE_bytesLE_toNat n short v
  | big =>
    simp only [ofBytes, toBytes, List.reverse_reverse]
    exact wordLE_bytesLE_toNat n short v

/-- An access of the bytes just stored has the value stored, cut to the access. -/
theorem Memory.value_store_toNat (m : Memory) (o : ByteOrder) (free v : Word) (j : Nat) {n : Nat} (short : n ≤ 4) :
    (Memory.value (Memory.store m o j n v) o free j n).toNat = v.toNat % 2 ^ (8 * n) := by
  rw [Memory.value, Memory.getBytes_store, ofBytes_toBytes_toNat o short]

/-! ### The window commands (40_register_access.md R90 to R93) -/

theorem exec_wrBufIn (n : Size) (j : Nat) (v : Word) (s : State) :
    exec (.wrBufIn n j v) s = .next ((writeBufIn n.bytes j v s).respond .done) := rfl

theorem exec_wrBufOut (n : Size) (j : Nat) (v : Word) (s : State) :
    exec (.wrBufOut n j v) s = .next ((writeBufOut n.bytes j v s).respond .done) := rfl

theorem exec_rdBufIn (n : Size) (j : Nat) (s : State) :
    exec (.rdBufIn n j) s = .next ((afterReadBufIn s).respond (.data n.bytes (bufInValue n.bytes j s))) := rfl

theorem exec_rdBufOut (n : Size) (j : Nat) (s : State) :
    exec (.rdBufOut n j) s = .next ((afterReadBufOut s).respond (.data n.bytes (bufOutValue n.bytes j s))) := rfl

/-- A host write stores its bytes in the input window, race or no race. -/
@[simp] theorem writeBufIn_bufIn (n j : Nat) (v : Word) (s : State) :
    (writeBufIn n j v s).bufIn = Memory.store s.bufIn s.cfg.byteOrder j n v := by
  simp [writeBufIn]

@[simp] theorem writeBufOut_bufOut (n j : Nat) (v : Word) (s : State) :
    (writeBufOut n j v s).bufOut = Memory.store s.bufOut s.cfg.byteOrder j n v := by
  simp [writeBufOut]

@[simp] theorem writeBufIn_cfg (n j : Nat) (v : Word) (s : State) : (writeBufIn n j v s).cfg = s.cfg := by
  simp [writeBufIn]

@[simp] theorem writeBufOut_cfg (n j : Nat) (v : Word) (s : State) : (writeBufOut n j v s).cfg = s.cfg := by
  simp [writeBufOut]

/-- Settles O21: a store and a read hold at index `k` the byte `byteAt` names, which in the big-endian order is
the mirror image. -/
theorem bigEndianMirrorsBytes : Obligations.BigEndianMirrorsBytes := by
  intro s n j v big
  have stored (m : Memory) (k : Nat) (hk : k < n.bytes) :
      Memory.get? (Memory.store m s.cfg.byteOrder j n.bytes v) (j + k)
        = some (v.extractLsb' (8 * (n.bytes - 1 - k)) 8) := by
    rw [big]
    exact Memory.get?_store_byte m .big j n.bytes v hk
  have read (m : Memory) (k : Nat) (b : Byte) (hk : k < n.bytes) (hb : Memory.get? m (j + k) = some b) :
      (Memory.value m s.cfg.byteOrder s.free j n.bytes).extractLsb' (8 * (n.bytes - 1 - k)) 8 = b := by
    rw [big]
    exact Memory.byteAt_value .big n.bytes_le_four hk hb
  refine ⟨⟨_, exec_wrBufIn n j v s, ?_⟩, ⟨_, exec_wrBufOut n j v s, ?_⟩,
    ⟨_, _, exec_rdBufIn n j s, rfl, read s.bufIn⟩, ⟨_, _, exec_rdBufOut n j s, rfl, read s.bufOut⟩⟩
  · rw [State.respond_bufIn, writeBufIn_bufIn]
    exact stored s.bufIn
  · rw [State.respond_bufOut, writeBufOut_bufOut]
    exact stored s.bufOut

/-- Settles O22: the read finds the stored bytes and puts them together in the order they were stored in. -/
theorem windowReadAfterWrite : Obligations.WindowReadAfterWrite := by
  intro s n j v
  refine ⟨⟨_, _, exec_wrBufIn n j v s, exec_rdBufIn n j _, _, rfl, ?_⟩,
    ⟨_, _, exec_wrBufOut n j v s, exec_rdBufOut n j _, _, rfl, ?_⟩⟩
  · simp only [bufInValue, State.respond_bufIn, State.respond_cfg, writeBufIn_bufIn, writeBufIn_cfg]
    exact Memory.value_store_toNat _ _ _ _ _ n.bytes_le_four
  · simp only [bufOutValue, State.respond_bufOut, State.respond_cfg, writeBufOut_bufOut, writeBufOut_cfg]
    exact Memory.value_store_toNat _ _ _ _ _ n.bytes_le_four

/-! ### An echoed word (41_copy_engines.md R111, R114, R119) -/

/-- A busy IN engine with a word to copy and room for it copies. -/
theorem inEngineTurn_copies {s : State} (busy : s.inBusy = true) (more : s.inCopied.toNat < s.inTarget.toNat)
    (room : s.fifoIn.length < s.cfg.fifoInDepth) : inEngineTurn s = inCopy s :=
  if_pos (by simp [inCopyEnabled, busy, more, room])

/-- A busy OUT engine with a word in the FIFO and room in the window copies. -/
theorem outEngineTurn_copies {s : State} (busy : s.outBusy = true) (word : 0 < s.fifoOut.length)
    (room : s.outCopied.toNat < s.cfg.bufOutWords) : outEngineTurn s = outCopy s :=
  if_pos (by simp [outCopyEnabled, busy, word, room])

/-- The echo coprocessor moves a word when the output FIFO has room. -/
theorem echoTurn_moves {s : State} (word : 0 < s.fifoIn.length) (room : s.fifoOut.length < s.cfg.fifoOutDepth) :
    echoTurn s = echo s :=
  if_pos (by simp [echoEnabled, word, room])

/-- OUT_COPY stores the word at the head of the output FIFO (41_copy_engines.md R114). -/
theorem outCopy_bufOut (s : State) :
    (outCopy s).bufOut
      = Memory.store s.bufOut s.cfg.byteOrder (4 * s.outCopied.toNat) 4 (s.fifoOut.headD 0) := rfl

/-- Settles O40: the word read from the input window is the one stored in the output window, and each store
puts back the bytes of the read. -/
theorem echoReturnsTheBytes : Obligations.EchoReturnsTheBytes := by
  intro s inv inBusy more inEmpty outEmpty outBusy room
  have sizes := cfgOk_sizes inv.cfg_ok
  have copied : inEngineTurn s = inCopy s := inEngineTurn_copies inBusy more (by rw [inEmpty]; exact sizes.fifoIn_pos)
  have oneIn : (inCopy s).fifoIn = [bufInValue 4 (4 * s.inCopied.toNat) s] := by simp [inCopy, inEmpty]
  have noneOut : (inCopy s).fifoOut = [] := outEmpty
  have echoed : echoTurn (inCopy s) = echo (inCopy s) :=
    echoTurn_moves (by simp [oneIn]) (by rw [noneOut]; exact sizes.fifoOut_pos)
  have oneOut : (echo (inCopy s)).fifoOut = [bufInValue 4 (4 * s.inCopied.toNat) s] := by
    simp [echo, oneIn, noneOut]
  have drained : outEngineTurn (echo (inCopy s)) = outCopy (echo (inCopy s)) :=
    outEngineTurn_copies outBusy (by simp [oneOut]) room
  refine ⟨outCopy (echo (inCopy s)), ?_, ?_⟩
  · rw [← drained, ← echoed, ← copied]
    rfl
  · intro k b hk hb
    rw [outCopy_bufOut, oneOut]
    refine (Memory.get?_store_byte _ _ _ _ _ hk).trans (congrArg some ?_)
    exact Memory.byteAt_value s.cfg.byteOrder (le_refl 4) hk hb

/-! ### Bus misuse (20_memory.md R41, R44, R45; 30_encoding.md R67) -/

/-- An access that decodes to a target lies in the region, and is an aligned word of the register range or an
aligned access inside one of the windows (40_register_access.md R80). -/
theorem decodeTarget_legal {c : Cfg} {off n : Nat} (h : decodeTarget c off n ≠ .illegal) :
    off < c.dev.regionLength
    ∧ ((off < c.minRegSpace ∧ n = 4 ∧ off % 4 = 0)
      ∨ (c.minRegSpace ≤ off ∧ off % n = 0 ∧ c.dev.bufInOffset ≤ off
          ∧ off + n ≤ c.dev.bufInOffset + 4 * c.bufInWords)
      ∨ (c.minRegSpace ≤ off ∧ off % n = 0 ∧ c.dev.bufOutOffset ≤ off
          ∧ off + n ≤ c.dev.bufOutOffset + 4 * c.bufOutWords)) := by
  unfold decodeTarget at h
  split at h
  case isTrue => exact absurd rfl h
  case isFalse inRegion =>
    refine ⟨by omega, ?_⟩
    split at h
    case isTrue inRegisters =>
      split at h
      case isTrue => exact absurd rfl h
      case isFalse aligned => exact .inl ⟨inRegisters, by omega, by omega⟩
    case isFalse pastRegisters =>
      split at h
      case isTrue inWindow =>
        split at h
        case isTrue => exact absurd rfl h
        case isFalse aligned => exact .inr (.inl ⟨by omega, by omega, inWindow⟩)
      case isFalse =>
        split at h
        case isTrue inWindow =>
          split at h
          case isTrue => exact absurd rfl h
          case isFalse aligned => exact .inr (.inr ⟨by omega, by omega, inWindow⟩)
        case isFalse => exact absurd rfl h

/-- The offset lies in the window of `words` words at `base`. -/
def InWindowRange (base words off : Nat) : Prop := base ≤ off ∧ off < base + 4 * words

/-- An access that starts in a window and is misaligned for its size or runs past the window's end. -/
def WindowMisuse (base words off n : Nat) : Prop :=
  base ≤ off ∧ off < base + 4 * words ∧ (off % n ≠ 0 ∨ base + 4 * words < off + n)

/-- An access of a legal size at an offset where no such access is (20_memory.md R41, R44, R45). -/
def AddressMisuse (c : Cfg) (n : Size) (off : Nat) : Prop :=
  (off < c.minRegSpace ∧ (n ≠ .word ∨ off % 4 ≠ 0))
  ∨ WindowMisuse c.dev.bufInOffset c.bufInWords off n.bytes
  ∨ WindowMisuse c.dev.bufOutOffset c.bufOutWords off n.bytes
  ∨ c.dev.regionLength ≤ off
  ∨ (c.minRegSpace ≤ off ∧ ¬ InWindowRange c.dev.bufInOffset c.bufInWords off
      ∧ ¬ InWindowRange c.dev.bufOutOffset c.bufOutWords off)

/-- An access by a misused address reaches nothing: the windows lie past the registers and apart from each
other. -/
theorem decodeTarget_misuse {c : Cfg} (hc : cfgOk c = true) {n : Size} {off : Nat} (bad : AddressMisuse c n off) :
    decodeTarget c off n.bytes = .illegal := by
  by_contra legal
  obtain ⟨inRegion, place⟩ := decodeTarget_legal legal
  have L := cfgOk_layout hc
  have := L.bufIn_min
  have := L.bufOut_min
  have := L.disjoint
  have := n.bytes_pos
  rcases bad with ⟨_, narrow | misaligned⟩ | ⟨_, _, _⟩ | ⟨_, _, _⟩ | _ | ⟨_, notIn, notOut⟩
  · have : n.bytes ≠ 4 := fun h => narrow (Size.eq_word_of_bytes h)
    omega
  · omega
  · omega
  · omega
  · omega
  · simp only [InWindowRange] at notIn notOut
    omega

/-- A word of a reserved shape or with a misused address is BUS_ILLEGAL (30_encoding.md R67). -/
theorem decode_misuse {c : Cfg} (hc : cfgOk c = true) (we : Bool) {size : BitVec 2} {rsv : BitVec 5}
    {off : BitVec 24} (wdata : Word)
    (bad : rsv ≠ 0 ∨ size = 3 ∨ ∃ n : Size, size = n.code ∧ AddressMisuse c n off.toNat) :
    decode c (.bus (busWord we size rsv off wdata)) = .busIllegal we size rsv off := by
  simp only [decode, decodeBus_busWord, busFields]
  rcases bad with reserved | rfl | ⟨n, rfl, bad⟩
  · simp only [if_pos reserved]
    cases sizeOf? size <;> rfl
  · rfl
  · simp [sizeOf?_code, decodeTarget_misuse hc bad, readInstr, writeInstr]

/-- The low bytes of a word are small. -/
theorem lowBytes_lt {n : Nat} (short : n ≤ 4) (v : Word) : (lowBytes n v).toNat < 2 ^ (8 * n) := by
  have mask : (BitVec.allOnes 32 >>> (32 - 8 * n)).toNat < 2 ^ (8 * n) := by
    rw [BitVec.toNat_ushiftRight, BitVec.toNat_allOnes, Nat.shiftRight_eq_div_pow,
      Nat.div_lt_iff_lt_mul (Nat.two_pow_pos _), ← pow_add, show 8 * n + (32 - 8 * n) = 32 by omega]
    decide
  rw [lowBytes, BitVec.toNat_and]
  exact Nat.and_lt_two_pow _ mask

theorem illegalBytes_code (n : Size) : illegalBytes n.code = n.bytes := by
  rw [illegalBytes, sizeOf?_code]

/-- An update of the responses, the draw counter and the fault mark leaves the rest of the block and the inputs. -/
theorem sameBlockButFault_quiet (s : State) (d : Nat) (f : Option FaultMark) (r : HostResp) (q : DevResp) :
    SameBlockButFault s { s with draws := d, fault := f, hostResp := r, devResp := q }
      ∧ SameInputs s { s with draws := d, fault := f, hostResp := r, devResp := q } :=
  ⟨⟨⟨rfl, rfl⟩, rfl, fun _ => ⟨rfl, rfl⟩, ⟨rfl, rfl⟩, ⟨rfl, rfl, rfl⟩, ⟨rfl, rfl⟩, fun _ => rfl, fun _ => rfl⟩,
    rfl, rfl, rfl, rfl, rfl⟩

/-- The answer of BUS_ILLEGAL, for a write and for a read (40_register_access.md R96, R97). -/
theorem exec_busIllegal (we : Bool) (size : BitVec 2) (rsv : BitVec 5) (off : BitVec 24) (s : State) :
    exec (.busIllegal we size rsv off) s = .next
      (if we then (busError s).respond .done
      else (busError s).nextDraw.respond (.data (illegalBytes size) (lowBytes (illegalBytes size) s.free))) := by
  cases we <;> rfl

/-- Settles O7: the word decodes to BUS_ILLEGAL, and BUS_ILLEGAL marks the fault and answers. -/
theorem busMisuseIsIllegal : Obligations.BusMisuseIsIllegal := by
  intro s we size rsv off wdata c hc bad
  refine ⟨decode_misuse hc we wdata bad, _, exec_busIllegal we size rsv off s, ?_⟩
  cases we with
  | true =>
    obtain ⟨block, inputs⟩ := sameBlockButFault_quiet s s.draws (busError s).fault .done s.devResp
    exact ⟨rfl, block, inputs, fun _ => rfl, nofun⟩
  | false =>
    obtain ⟨block, inputs⟩ := sameBlockButFault_quiet s (s.draws + 1) (busError s).fault
      (.data (illegalBytes size) (lowBytes (illegalBytes size) s.free)) s.devResp
    refine ⟨rfl, block, inputs, nofun, ?_⟩
    rintro - n rfl
    refine ⟨lowBytes n.bytes s.free, ?_, lowBytes_lt n.bytes_le_four _⟩
    rw [← illegalBytes_code]
    rfl

/-! ### Reads of protocol and user registers (20_memory.md R48) -/

/-- A register read hands over a word and uses at most a draw. -/
theorem exec_registerRead {i : Instr} (s : State)
    (hi : i ∈ [Instr.rdCtrl, .rdStatus, .rdXferStatus, .rdDataAmount, .rdUser0, .rdUser1, .rdUser2, .rdUser3,
      .rdUser4, .rdUser5]) :
    ∃ d v, exec i s = .next { s with draws := d, hostResp := .data 4 v } := by
  simp only [List.mem_cons, List.not_mem_nil, or_false] at hi
  obtain rfl | rfl | rfl | rfl | hi := hi
  · exact ⟨s.draws, ctrlWord s, rfl⟩
  · exact ⟨s.draws, statusWord s, rfl⟩
  · exact ⟨s.draws, xferWord s, rfl⟩
  · exact ⟨s.draws + 1, s.free, rfl⟩
  · obtain rfl | rfl | rfl | rfl | rfl | rfl := hi <;> exact ⟨s.draws + 1, userValue _ s, rfl⟩

/-- Settles O8: a draw used and a response handed over are no state of the block. -/
theorem registerReadsChangeNothing : Obligations.RegisterReadsChangeNothing := by
  intro s i hi
  obtain ⟨d, v, run⟩ := exec_registerRead s hi
  obtain ⟨block, inputs⟩ := sameBlockButFault_quiet s d s.fault (.data 4 v) s.devResp
  exact ⟨_, v, run, rfl, ⟨block, rfl⟩, inputs, rfl⟩

end Machine

end Sys2Proof
end

section
/-! PROOFS. The statements of 30_encoding.md: the bus rows of the opcode table as a relation, the decoder and the
encoder read off it (R61 to R67), and the step that runs the decoded command (R68). -/

namespace Sys2Proof

open Machine (cfgOk cfgOk_layout decodeTarget_ctrl decodeTarget_status decodeTarget_xfer decodeTarget_amount
  decodeTarget_user decodeTarget_bufIn_access decodeTarget_bufOut_access decodeTarget_legal)

/-! ### The legal accesses of format B (30_encoding.md R65, R66) -/

theorem size_cases (size : BitVec 2) : size = 3 ∨ ∃ n : Size, size = n.code := by
  have codes : ∀ x : BitVec 2, x = 3 ∨ x = Size.byte.code ∨ x = Size.half.code ∨ x = Size.word.code := by decide
  rcases codes size with reserved | byte | half | word
  · exact .inl reserved
  · exact .inr ⟨_, byte⟩
  · exact .inr ⟨_, half⟩
  · exact .inr ⟨_, word⟩

theorem sizeBytes?_code (n : Size) : sizeBytes? n.code = some n.bytes := by cases n <;> rfl

theorem inWindow_iff {c : Cfg} {base words off n : Nat} :
    inWindow c base words off n = true ↔ base ≤ off ∧ off + n ≤ base + 4 * words ∧ off % n = 0
      ∧ off + n ≤ c.dev.regionLength := by
  simp only [inWindow, Bool.and_eq_true, decide_eq_true_eq, and_assoc]

theorem busLegal_code {c : Cfg} {n : Size} {off : BitVec 24} :
    busLegal c n.code 0 off = true ↔ (n = .word ∧ isRegister c off.toNat = true)
      ∨ inWindow c c.dev.bufInOffset c.bufInWords off.toNat n.bytes = true
      ∨ inWindow c c.dev.bufOutOffset c.bufOutWords off.toNat n.bytes = true := by
  have width : n.bytes = 4 ↔ n = .word := ⟨Size.eq_word_of_bytes, fun h => h ▸ rfl⟩
  simp only [busLegal, sizeBytes?_code, beq_self_eq_true, Bool.true_and, Bool.or_eq_true, Bool.and_eq_true,
    beq_iff_eq, width, or_assoc]

/-- The rows of the opcode table that reach something on the bus: the byte offset, the access size, the target,
and the commands of the read row and of the write row. -/
inductive AccessRow (c : Cfg) : Nat → Size → Target → Instr → (Word → Instr) → Prop
  | ctrl : AccessRow c c.offCtrl .word .ctrl .rdCtrl .wrCtrl
  | status : AccessRow c c.offStatus .word .status .rdStatus .wrStatus
  | xferStatus : AccessRow c c.offXfer .word .xferStatus .rdXferStatus .wrXferStatus
  | dataAmount : AccessRow c c.offAmount .word .dataAmount .rdDataAmount .wrDataAmount
  | user0 : AccessRow c c.offUser0 .word (.user 0) .rdUser0 .wrUser0
  | user1 : AccessRow c (c.offUser0 + 4) .word (.user 1) .rdUser1 .wrUser1
  | user2 : AccessRow c (c.offUser0 + 8) .word (.user 2) .rdUser2 .wrUser2
  | user3 : AccessRow c (c.offUser0 + 12) .word (.user 3) .rdUser3 .wrUser3
  | user4 : AccessRow c (c.offUser0 + 16) .word (.user 4) .rdUser4 .wrUser4
  | user5 : AccessRow c (c.offUser0 + 20) .word (.user 5) .rdUser5 .wrUser5
  | bufIn {n : Size} {j : Nat} : inWindow c c.dev.bufInOffset c.bufInWords (c.dev.bufInOffset + j) n.bytes = true →
      AccessRow c (c.dev.bufInOffset + j) n (.bufIn j) (.rdBufIn n j) (.wrBufIn n j)
  | bufOut {n : Size} {j : Nat} :
      inWindow c c.dev.bufOutOffset c.bufOutWords (c.dev.bufOutOffset + j) n.bytes = true →
      AccessRow c (c.dev.bufOutOffset + j) n (.bufOut j) (.rdBufOut n j) (.wrBufOut n j)

/-! ### The rows are the legal accesses -/

theorem exists_row_of_isRegister {c : Cfg} {off : Nat} (h : isRegister c off = true) :
    ∃ tgt rd wr, AccessRow c off .word tgt rd wr := by
  simp only [isRegister, Bool.or_eq_true, beq_iff_eq, or_assoc] at h
  rcases h with rfl | rfl | rfl | rfl | rfl | rfl | rfl | rfl | rfl | rfl
  · exact ⟨_, _, _, .ctrl⟩
  · exact ⟨_, _, _, .status⟩
  · exact ⟨_, _, _, .xferStatus⟩
  · exact ⟨_, _, _, .dataAmount⟩
  · exact ⟨_, _, _, .user0⟩
  · exact ⟨_, _, _, .user1⟩
  · exact ⟨_, _, _, .user2⟩
  · exact ⟨_, _, _, .user3⟩
  · exact ⟨_, _, _, .user4⟩
  · exact ⟨_, _, _, .user5⟩

theorem exists_row_of_busLegal {c : Cfg} {n : Size} {off : BitVec 24} (h : busLegal c n.code 0 off = true) :
    ∃ tgt rd wr, AccessRow c off.toNat n tgt rd wr := by
  rcases busLegal_code.mp h with ⟨rfl, register⟩ | inside | inside
  · exact exists_row_of_isRegister register
  · obtain ⟨j, hj⟩ := Nat.exists_eq_add_of_le (inWindow_iff.mp inside).1
    rw [hj] at inside ⊢
    exact ⟨_, _, _, .bufIn inside⟩
  · obtain ⟨j, hj⟩ := Nat.exists_eq_add_of_le (inWindow_iff.mp inside).1
    rw [hj] at inside ⊢
    exact ⟨_, _, _, .bufOut inside⟩

theorem AccessRow.busLegal_eq {c : Cfg} {o : Nat} {n : Size} {tgt : Target} {rd : Instr} {wr : Word → Instr}
    {off : BitVec 24} (row : AccessRow c o n tgt rd wr) (ho : off.toNat = o) : busLegal c n.code 0 off = true := by
  rw [busLegal_code, ho]
  cases row with
  | bufIn inside => exact .inr (.inl inside)
  | bufOut inside => exact .inr (.inr inside)
  | _ => exact .inl ⟨rfl, by simp [isRegister]⟩

theorem registerAt_illegal {c : Cfg} {off : Nat} (h : isRegister c off = false) : registerAt c off = .illegal := by
  simp only [isRegister, Bool.or_eq_false_iff, beq_eq_false_iff_ne] at h
  simp [registerAt, userAt?, h]

/-- The tests of 40_register_access.md R80 reach nothing where no row is. -/
theorem decodeTarget_illegal {c : Cfg} {n : Size} {off : BitVec 24} (h : busLegal c n.code 0 off = false) :
    decodeTarget c off.toNat n.bytes = .illegal := by
  rw [← Bool.not_eq_true, busLegal_code, not_or, not_or, inWindow_iff, inWindow_iff] at h
  obtain ⟨noRegister, notIn, notOut⟩ := h
  unfold decodeTarget
  split
  case isTrue => rfl
  case isFalse inRegion =>
    split
    case isTrue =>
      split
      case isTrue => rfl
      case isFalse aligned =>
        have word : n = .word := Size.eq_word_of_bytes (by omega)
        exact registerAt_illegal (Bool.eq_false_iff.mpr fun register => noRegister ⟨word, register⟩)
    case isFalse =>
      split
      case isTrue within =>
        exact if_pos fun aligned => notIn ⟨within.1, within.2, aligned, by omega⟩
      case isFalse =>
        split
        case isTrue within =>
          exact if_pos fun aligned => notOut ⟨within.1, within.2, aligned, by omega⟩
        case isFalse => rfl

/-- An access aligned for its size in a word-aligned window has an aligned byte index (43_offset_validation.md R152). -/
theorem index_aligned {n : Size} {base j : Nat} (window : base % 4 = 0) (h : (base + j) % n.bytes = 0) :
    j % n.bytes = 0 := by
  cases n <;> simp only [Size.bytes] at h ⊢ <;> omega

/-! ### What a row says of the decoder, the encoder and `wf` -/

section Row

variable {c : Cfg} {o : Nat} {n : Size} {tgt : Target} {rd : Instr} {wr : Word → Instr}

theorem AccessRow.decodeTarget_eq (row : AccessRow c o n tgt rd wr) (hc : cfgOk c = true) :
    decodeTarget c o n.bytes = tgt := by
  cases row with
  | ctrl => exact decodeTarget_ctrl hc
  | status => exact decodeTarget_status hc
  | xferStatus => exact decodeTarget_xfer hc
  | dataAmount => exact decodeTarget_amount hc
  | user0 => exact decodeTarget_user hc 0
  | user1 => exact decodeTarget_user hc 1
  | user2 => exact decodeTarget_user hc 2
  | user3 => exact decodeTarget_user hc 3
  | user4 => exact decodeTarget_user hc 4
  | user5 => exact decodeTarget_user hc 5
  | @bufIn _ j inside =>
    obtain ⟨-, fits, aligned, -⟩ := inWindow_iff.mp inside
    exact decodeTarget_bufIn_access hc n j (index_aligned (cfgOk_layout hc).bufIn_aligned aligned) (by omega)
  | @bufOut _ j inside =>
    obtain ⟨-, fits, aligned, -⟩ := inWindow_iff.mp inside
    exact decodeTarget_bufOut_access hc n j (index_aligned (cfgOk_layout hc).bufOut_aligned aligned) (by omega)

theorem AccessRow.target_legal (row : AccessRow c o n tgt rd wr) : tgt ≠ .illegal := by cases row <;> nofun

/-- The offset of a row fits the 24-bit field (20_memory.md R40). -/
theorem AccessRow.offset_lt (row : AccessRow c o n tgt rd wr) (hc : cfgOk c = true) : o < 2 ^ 24 := by
  have legal : decodeTarget c o n.bytes ≠ .illegal := row.decodeTarget_eq hc ▸ row.target_legal
  exact (decodeTarget_legal legal).1.trans_le (cfgOk_layout hc).region_max

theorem AccessRow.readInstr_eq (row : AccessRow c o n tgt rd wr) (bad : Instr) : readInstr bad n tgt = rd := by
  cases row <;> rfl

theorem AccessRow.writeInstr_eq (row : AccessRow c o n tgt rd wr) (bad : Instr) (v : Word) :
    writeInstr bad n v tgt = wr v := by
  cases row <;> rfl

theorem AccessRow.encode_read (row : AccessRow c o n tgt rd wr) : encode c rd = .bus (rdWord n o) := by
  cases row <;> rfl

theorem AccessRow.encode_write (row : AccessRow c o n tgt rd wr) (v : Word) :
    encode c (wr v) = .bus (wrWord n o v) := by
  cases row <;> rfl

/-- The command word of a row's command: the size and the offset are the row's, `wdata` counts in a write. -/
theorem AccessRow.encode_eq (row : AccessRow c o n tgt rd wr) (we : Bool) (v : Word) :
    encode c (if we then wr v else rd)
      = .bus (busWord we n.code 0 (BitVec.ofNat 24 o) (if we then v else 0)) := by
  cases we with
  | true => exact row.encode_write v
  | false => exact row.encode_read

/-- The fields of a row decode to the row's command. -/
theorem AccessRow.busFields_eq {off : BitVec 24} (row : AccessRow c off.toNat n tgt rd wr) (hc : cfgOk c = true)
    (we : Bool) (v : Word) : busFields c we n.code 0 off v = if we then wr v else rd := by
  simp [busFields, row.decodeTarget_eq hc, row.readInstr_eq, row.writeInstr_eq]

theorem AccessRow.wf_read (row : AccessRow c o n tgt rd wr) : rd.wf c = true := by
  cases row with
  | bufIn inside => exact inside
  | bufOut inside => exact inside
  | _ => rfl

theorem AccessRow.wf_write (row : AccessRow c o n tgt rd wr) (v : Word) : (wr v).wf c = true := by
  cases row with
  | bufIn inside => exact inside
  | bufOut inside => exact inside
  | _ => rfl

theorem AccessRow.decode_encode_read (row : AccessRow c o n tgt rd wr) (hc : cfgOk c = true) :
    decode c (encode c rd) = rd := by
  rw [row.encode_read, decode, decodeBus_rdWord c n o (row.offset_lt hc), row.decodeTarget_eq hc, row.readInstr_eq]

theorem AccessRow.decode_encode_write (row : AccessRow c o n tgt rd wr) (hc : cfgOk c = true) (v : Word) :
    decode c (encode c (wr v)) = wr v := by
  rw [row.encode_write, decode, decodeBus_wrWord c n o v (row.offset_lt hc), row.decodeTarget_eq hc, row.writeInstr_eq]

end Row

/-! ### Every word of format B has its row -/

/-- Where no row is, the fields decode to BUS_ILLEGAL (30_encoding.md R67). -/
theorem busFields_illegal {c : Cfg} (we : Bool) {size : BitVec 2} {rsv : BitVec 5} {off : BitVec 24} (wdata : Word)
    (h : busLegal c size rsv off = false) : busFields c we size rsv off wdata = .busIllegal we size rsv off := by
  rcases size_cases size with rfl | ⟨n, rfl⟩
  · rfl
  · by_cases reserved : rsv = 0
    · subst reserved
      simp [busFields, decodeTarget_illegal h, readInstr, writeInstr]
    · simp only [busFields, sizeOf?_code, if_pos reserved]

/-- The fields of a format B word are those of a row, or of no row and then BUS_ILLEGAL. -/
theorem busFields_cases {c : Cfg} (hc : cfgOk c = true) (we : Bool) (size : BitVec 2) (rsv : BitVec 5)
    (off : BitVec 24) (wdata : Word) :
    (∃ n tgt rd wr, size = n.code ∧ rsv = 0 ∧ AccessRow c off.toNat n tgt rd wr
      ∧ busFields c we size rsv off wdata = if we then wr wdata else rd)
    ∨ (busLegal c size rsv off = false
      ∧ busFields c we size rsv off wdata = .busIllegal we size rsv off) := by
  by_cases legal : busLegal c size rsv off = true
  · have noReserved : rsv = 0 := by
      simp only [busLegal, Bool.and_eq_true, beq_iff_eq] at legal
      exact legal.1
    subst noReserved
    rcases size_cases size with rfl | ⟨n, rfl⟩
    · cases legal
    · obtain ⟨tgt, rd, wr, row⟩ := exists_row_of_busLegal legal
      exact .inl ⟨n, tgt, rd, wr, rfl, rfl, row, row.busFields_eq hc we wdata⟩
  · have illegal := Bool.eq_false_iff.mpr legal
    exact .inr ⟨illegal, busFields_illegal we wdata illegal⟩

/-! ### Decode of encode -/

theorem ctlFields_unknown {op : BitVec 8} (h : 0x0A ≤ op.toNat) (index value : Word) :
    ctlFields op index value = .ctlUnknown op := by
  unfold ctlFields
  split
  case h_11 => rfl
  all_goals omega

/-- Settles O5: a bus command by its row of the opcode table, the others by the fields of their word. -/
theorem decodeOfEncode : Obligations.DecodeOfEncode := by
  intro c i hc hwf
  cases i with
  | rdCtrl => exact AccessRow.ctrl.decode_encode_read hc
  | wrCtrl v => exact AccessRow.ctrl.decode_encode_write hc v
  | rdStatus => exact AccessRow.status.decode_encode_read hc
  | wrStatus v => exact AccessRow.status.decode_encode_write hc v
  | rdXferStatus => exact AccessRow.xferStatus.decode_encode_read hc
  | wrXferStatus v => exact AccessRow.xferStatus.decode_encode_write hc v
  | rdDataAmount => exact AccessRow.dataAmount.decode_encode_read hc
  | wrDataAmount v => exact AccessRow.dataAmount.decode_encode_write hc v
  | rdUser0 => exact AccessRow.user0.decode_encode_read hc
  | rdUser1 => exact AccessRow.user1.decode_encode_read hc
  | rdUser2 => exact AccessRow.user2.decode_encode_read hc
  | rdUser3 => exact AccessRow.user3.decode_encode_read hc
  | rdUser4 => exact AccessRow.user4.decode_encode_read hc
  | rdUser5 => exact AccessRow.user5.decode_encode_read hc
  | wrUser0 v => exact AccessRow.user0.decode_encode_write hc v
  | wrUser1 v => exact AccessRow.user1.decode_encode_write hc v
  | wrUser2 v => exact AccessRow.user2.decode_encode_write hc v
  | wrUser3 v => exact AccessRow.user3.decode_encode_write hc v
  | wrUser4 v => exact AccessRow.user4.decode_encode_write hc v
  | wrUser5 v => exact AccessRow.user5.decode_encode_write hc v
  | rdBufIn n j => exact (AccessRow.bufIn hwf).decode_encode_read hc
  | wrBufIn n j v => exact (AccessRow.bufIn hwf).decode_encode_write hc v
  | rdBufOut n j => exact (AccessRow.bufOut hwf).decode_encode_read hc
  | wrBufOut n j v => exact (AccessRow.bufOut hwf).decode_encode_write hc v
  | busIllegal we size rsv off =>
    rw [Instr.wf, Bool.not_eq_true'] at hwf
    exact (decodeBus_busWord c we size rsv off 0).trans (busFields_illegal we 0 hwf)
  | ctlUnknown op =>
    rw [Instr.wf, decide_eq_true_eq] at hwf
    exact (decodeCtl_ctlWord op 0 0).trans (ctlFields_unknown hwf 0 0)
  | devPopIn => exact decodeDev_devWord false 0
  | devPushOut d => exact decodeDev_devWord true d
  | _ => exact decodeCtl_ctlWord _ _ _

/-! ### Every word decodes to a command that exists -/

theorem decodeBus_wf {c : Cfg} (hc : cfgOk c = true) (w : BitVec 64) : (decodeBus c w).wf c = true := by
  obtain ⟨n, tgt, rd, wr, -, -, row, e⟩ | ⟨illegal, e⟩ := busFields_cases hc (w.getLsbD 63) (w.extractLsb' 61 2)
    (w.extractLsb' 56 5) (w.extractLsb' 32 24) (w.extractLsb' 0 32) <;> rw [decodeBus, e]
  · split
    · exact row.wf_write _
    · exact row.wf_read
  · rw [Instr.wf, illegal, Bool.not_false]

theorem decodeCtl_wf (c : Cfg) (w : BitVec 72) : (decodeCtl w).wf c = true := by
  unfold decodeCtl ctlFields
  split
  case h_11 =>
    simp only [imp_false, Instr.wf, decide_eq_true_eq] at *
    omega
  all_goals rfl

theorem decodeDev_wf (c : Cfg) (w : BitVec 33) : (decodeDev w).wf c = true := by
  unfold decodeDev
  split <;> rfl

/-- Settles O4, by the three formats. -/
theorem decodeGivesWellFormed : Obligations.DecodeGivesWellFormed := by
  intro c cmd hc
  cases cmd with
  | bus w => exact decodeBus_wf hc w
  | ctl w => exact decodeCtl_wf c w
  | dev w => exact decodeDev_wf c w

/-! ### The register commands come from no other word (30_encoding.md R61, R65) -/

theorem busWord_inj {we we' : Bool} {size size' : BitVec 2} {rsv rsv' : BitVec 5} {off off' : BitVec 24}
    {wdata wdata' : Word} (h : busWord we size rsv off wdata = busWord we' size' rsv' off' wdata') :
    we = we' ∧ size = size' ∧ rsv = rsv' ∧ off = off' ∧ wdata = wdata' := by
  refine ⟨?_, ?_, ?_, ?_, ?_⟩
  · rw [← busWord_we we size rsv off wdata, h, busWord_we]
  · rw [← busWord_size we size rsv off wdata, h, busWord_size]
  · rw [← busWord_rsv we size rsv off wdata, h, busWord_rsv]
  · rw [← busWord_off we size rsv off wdata, h, busWord_off]
  · rw [← busWord_wdata we size rsv off wdata, h, busWord_wdata]

/-- Encode of decode: the word again, with the `wdata` that no rule uses set to zero (log 19). -/
theorem encode_busFields {c : Cfg} (hc : cfgOk c = true) (we : Bool) (size : BitVec 2) (rsv : BitVec 5)
    (off : BitVec 24) (wdata : Word) :
    encode c (busFields c we size rsv off wdata)
      = .bus (busWord we size rsv off (if we && busLegal c size rsv off then wdata else 0)) := by
  obtain ⟨n, tgt, rd, wr, rfl, rfl, row, e⟩ | ⟨illegal, e⟩ := busFields_cases hc we size rsv off wdata <;> rw [e]
  · rw [row.encode_eq, row.busLegal_eq rfl, Bool.and_true, BitVec.ofNat_toNat, BitVec.setWidth_eq]
  · rw [encode, illegal, Bool.and_false]
    rfl

/-- The fields decode to a row's command exactly when they are the row's. -/
theorem AccessRow.busFields_eq_iff {c : Cfg} {o : Nat} {n : Size} {tgt : Target} {rd : Instr} {wr : Word → Instr}
    (row : AccessRow c o n tgt rd wr) (hc : cfgOk c = true) (dir we : Bool) (size : BitVec 2) (rsv : BitVec 5)
    (off : BitVec 24) (wdata v : Word) :
    busFields c we size rsv off wdata = (if dir then wr v else rd)
      ↔ (we = dir ∧ size = n.code ∧ rsv = 0) ∧ off.toNat = o ∧ (dir = true → wdata = v) := by
  constructor
  · intro h
    have words := encode_busFields hc we size rsv off wdata
    rw [h, row.encode_eq] at words
    obtain ⟨rfl, rfl, rfl, rfl, data⟩ := busWord_inj (Command.bus.inj words)
    have ho := off_toNat (row.offset_lt hc)
    refine ⟨⟨rfl, rfl, rfl⟩, ho, ?_⟩
    rintro rfl
    rw [row.busLegal_eq ho] at data
    exact data.symm
  · rintro ⟨⟨rfl, rfl, rfl⟩, rfl, data⟩
    rw [row.busFields_eq hc]
    cases we with
    | true => rw [data rfl]
    | false => rfl

/-- A field of a field. -/
theorem extractLsb'_extractLsb' {width i l k m : Nat} (w : BitVec width) (fits : k + m ≤ l) :
    (w.extractLsb' i l).extractLsb' k m = w.extractLsb' (i + k) m := by
  ext b hb
  have inner : k + b < l := by omega
  simp only [BitVec.getElem_extractLsb', BitVec.getLsbD_extractLsb', inner, decide_true, Bool.true_and, Nat.add_assoc]

/-- The top byte of a word access without reserved bits is its direction: 0xC0 a write, 0x40 a read
(30_encoding.md R61). -/
theorem topByte_eq_iff (dir : Bool) (w : BitVec 64) :
    w.extractLsb' 56 8 = (if dir then 0xC0#8 else 0x40#8)
      ↔ w.getLsbD 63 = dir ∧ w.extractLsb' 61 2 = Size.word.code ∧ w.extractLsb' 56 5 = 0 := by
  have fields : ∀ (dir : Bool) (b : BitVec 8), b = (if dir then 0xC0#8 else 0x40#8)
      ↔ b.getLsbD 7 = dir ∧ b.extractLsb' 5 2 = Size.word.code ∧ b.extractLsb' 0 5 = 0 := by decide
  have we : (w.extractLsb' 56 8).getLsbD 7 = w.getLsbD 63 := by simp only [BitVec.getLsbD_extractLsb']; rfl
  rw [fields, we, extractLsb'_extractLsb' w (by decide), extractLsb'_extractLsb' w (by decide)]

section WordRow

variable {c : Cfg} {o : Nat} {tgt : Target} {rd : Instr} {wr : Word → Instr}

/-- A bus word decodes to the command of a word-sized row exactly when it has the row's top byte and offset. -/
theorem AccessRow.decodeBus_eq_iff (row : AccessRow c o .word tgt rd wr) (hc : cfgOk c = true) (dir : Bool)
    (w : BitVec 64) (v : Word) :
    decodeBus c w = (if dir then wr v else rd) ↔ w.extractLsb' 56 8 = (if dir then 0xC0#8 else 0x40#8)
      ∧ (w.extractLsb' 32 24).toNat = o ∧ (dir = true → w.extractLsb' 0 32 = v) := by
  rw [decodeBus, row.busFields_eq_iff hc, topByte_eq_iff]

theorem AccessRow.decodeBus_eq_read_iff (row : AccessRow c o .word tgt rd wr) (hc : cfgOk c = true) (w : BitVec 64) :
    decodeBus c w = rd ↔ w.extractLsb' 56 8 = 0x40#8 ∧ (w.extractLsb' 32 24).toNat = o := by
  simpa only [Bool.false_eq_true, if_false, false_imp_iff, and_true] using row.decodeBus_eq_iff hc false w 0

theorem AccessRow.decodeBus_eq_write_iff (row : AccessRow c o .word tgt rd wr) (hc : cfgOk c = true) (w : BitVec 64)
    (v : Word) :
    decodeBus c w = wr v
      ↔ w.extractLsb' 56 8 = 0xC0#8 ∧ (w.extractLsb' 32 24).toNat = o ∧ w.extractLsb' 0 32 = v := by
  simpa only [if_true, true_imp_iff] using row.decodeBus_eq_iff hc true w v

end WordRow

/-- Settles O6, each pair of register rows by its row: an access of word size at the register's offset. -/
theorem registerWordsDecodeExactly : Obligations.RegisterWordsDecodeExactly := by
  intro c w v hc
  exact ⟨AccessRow.ctrl.decodeBus_eq_read_iff hc w, AccessRow.ctrl.decodeBus_eq_write_iff hc w v,
    AccessRow.status.decodeBus_eq_read_iff hc w, AccessRow.status.decodeBus_eq_write_iff hc w v,
    AccessRow.xferStatus.decodeBus_eq_read_iff hc w, AccessRow.xferStatus.decodeBus_eq_write_iff hc w v,
    AccessRow.dataAmount.decodeBus_eq_read_iff hc w, AccessRow.dataAmount.decodeBus_eq_write_iff hc w v,
    AccessRow.user0.decodeBus_eq_read_iff hc w, AccessRow.user0.decodeBus_eq_write_iff hc w v,
    AccessRow.user1.decodeBus_eq_read_iff hc w, AccessRow.user1.decodeBus_eq_write_iff hc w v,
    AccessRow.user2.decodeBus_eq_read_iff hc w, AccessRow.user2.decodeBus_eq_write_iff hc w v,
    AccessRow.user3.decodeBus_eq_read_iff hc w, AccessRow.user3.decodeBus_eq_write_iff hc w v,
    AccessRow.user4.decodeBus_eq_read_iff hc w, AccessRow.user4.decodeBus_eq_write_iff hc w v,
    AccessRow.user5.decodeBus_eq_read_iff hc w, AccessRow.user5.decodeBus_eq_write_iff hc w v⟩

/-! ### A step runs the decoded command (30_encoding.md R68) -/

namespace Machine

theorem step_of_turn {s : State} {a : Agent} {ts : List Agent} (hc : cfgOk s.cfg = true) (ht : s.turns = a :: ts) :
    step s = agentTurn a { s with turns := ts } := by
  simp only [step, hc, Bool.true_eq_false, if_false, ht]

theorem step_bus {s : State} {ts : List Agent} {w : BitVec 64} {rest : List HostCmd} (hc : cfgOk s.cfg = true)
    (ht : s.turns = .host :: ts) (hp : s.proc = none) (hw : s.hostPort = .bus w :: rest) :
    step s = exec (decode s.cfg (.bus w)) { s with turns := ts, hostPort := rest } := by
  simp only [step_of_turn hc ht, agentTurn, hostTurn, hp, hw, decode]

theorem step_ctl {s : State} {ts : List Agent} {w : BitVec 72} {rest : List HostCmd} (hc : cfgOk s.cfg = true)
    (ht : s.turns = .host :: ts) (hp : s.proc = none) (hw : s.hostPort = .ctl w :: rest) :
    step s = exec (decode s.cfg (.ctl w)) { s with turns := ts, hostPort := rest } := by
  simp only [step_of_turn hc ht, agentTurn, hostTurn, hp, hw, decode]

theorem devTurn_waits {s : State} {w : BitVec 33} {rest : List (BitVec 33)} (hw : s.devPort = w :: rest)
    (wait : devWaits (decodeDev w) s = true) : devTurn s = exec (decodeDev w) s := by
  unfold devTurn
  split
  case h_1 empty => cases hw.symm.trans empty
  case h_2 first =>
    cases hw.symm.trans first
    exact if_pos wait

theorem devTurn_runs {s : State} {w : BitVec 33} {rest : List (BitVec 33)} (hw : s.devPort = w :: rest)
    (run : devWaits (decodeDev w) s = false) : devTurn s = exec (decodeDev w) { s with devPort := rest } := by
  unfold devTurn
  split
  case h_1 empty => cases hw.symm.trans empty
  case h_2 first =>
    cases hw.symm.trans first
    exact if_neg (Bool.not_eq_true _ ▸ run)

/-- A command of the coprocessor that waits stays on its port (41_copy_engines.md R117, R118, log 10). -/
theorem step_dev_waits {s : State} {ts : List Agent} {w : BitVec 33} {rest : List (BitVec 33)}
    (hc : cfgOk s.cfg = true) (ht : s.turns = .coprocessor :: ts) (hw : s.devPort = w :: rest)
    (wait : devWaits (decode s.cfg (.dev w)) s = true) :
    step s = exec (decode s.cfg (.dev w)) { s with turns := ts } :=
  (step_of_turn hc ht).trans (devTurn_waits (s := { s with turns := ts }) hw wait)

theorem step_dev_runs {s : State} {ts : List Agent} {w : BitVec 33} {rest : List (BitVec 33)}
    (hc : cfgOk s.cfg = true) (ht : s.turns = .coprocessor :: ts) (hw : s.devPort = w :: rest)
    (run : devWaits (decode s.cfg (.dev w)) s = false) :
    step s = exec (decode s.cfg (.dev w)) { s with turns := ts, devPort := rest } :=
  (step_of_turn hc ht).trans (devTurn_runs (s := { s with turns := ts }) hw run)

theorem exec_devPopIn_nil {s : State} (h : s.fifoIn = []) : exec .devPopIn s = .next (s.respondDev .waiting) := by
  simp [exec, execDevPopIn, h]

theorem exec_devPushOut_full {s : State} (h : s.cfg.fifoOutDepth ≤ s.fifoOut.length) (d : Word) :
    exec (.devPushOut d) s = .next (s.respondDev .waiting) := by
  simp [exec, execDevPushOut, h]

/-- Settles O1: the host's turn and the coprocessor's turn, which differ in whether the command leaves its port. -/
theorem stepRunsDecodedCommand : Obligations.StepRunsDecodedCommand := by
  intro s ts hc
  refine ⟨fun w rest ht hp hw => step_bus hc ht hp hw, fun w rest ht hp hw => step_ctl hc ht hp hw, ?_⟩
  intro w rest ht hw
  refine ⟨?pops, ?pushes, ?popWaits, ?pushWaits⟩
  case pops =>
    intro hd words
    rw [step_dev_runs hc ht hw (by simp [hd, devWaits, words]), hd]
  case pushes =>
    intro d hd room
    rw [step_dev_runs hc ht hw (by simp [hd, devWaits, room]), hd]
  case popWaits =>
    intro hd empty
    rw [step_dev_waits hc ht hw (by simp [hd, devWaits, empty]), hd]
    exact exec_devPopIn_nil empty
  case pushWaits =>
    intro d hd full
    rw [step_dev_waits hc ht hw (by simp [hd, devWaits, full]), hd]
    exact exec_devPushOut_full (s := { s with turns := ts }) full d

/-- The inputs of the model are no state of the block (10_state.md R11). -/
theorem sameBlock_inputs (s : State) (ts : List Agent) (hp : List HostCmd) (dp : List (BitVec 33))
    (pr : Option ProcRun) : SameBlock s { s with turns := ts, hostPort := hp, devPort := dp, proc := pr } :=
  SameBlock_refl s

/-- Settles O2: the placed word is the first of its port, and that port's agent has the turn. -/
theorem placedWordRunsNext : Obligations.PlacedWordRunsNext := by
  intro s w hc
  refine ⟨⟨_, step_bus hc rfl rfl rfl, sameBlock_inputs s _ _ _ _⟩,
    ⟨_, step_ctl hc rfl rfl rfl, sameBlock_inputs s _ _ _ _⟩, ?_⟩
  cases wait : devWaits (decode s.cfg (.dev (BitVec.ofNat 33 w))) (s.withFetchWord 33 w) with
  | true => exact ⟨_, step_dev_waits hc rfl rfl wait, sameBlock_inputs s _ _ _ _⟩
  | false => exact ⟨_, step_dev_runs hc rfl rfl wait, sameBlock_inputs s _ _ _ _⟩

end Machine

end Sys2Proof
end

section
/-! PROOFS. The statements of 40_register_access.md: the words of the register rows (R80), what each command of the
bus reads and writes (R81 to R97), and the table of what writes what (R98). -/

namespace Sys2Proof

open Machine (cfgOk)

/-! ### The words of the register rows (40_register_access.md R80) -/

section Row

variable {c : Cfg} {o : Nat} {n : Size} {tgt : Target} {rd : Instr} {wr : Word → Instr}

/-- The read word of a row, its ignored `wdata` zero. -/
theorem AccessRow.decodeBus_rdWord (row : AccessRow c o n tgt rd wr) (hc : cfgOk c = true) :
    decodeBus c (rdWord n o) = rd := by
  rw [Sys2Proof.decodeBus_rdWord c n o (row.offset_lt hc), row.decodeTarget_eq hc, row.readInstr_eq]

/-- The write word of a row. -/
theorem AccessRow.decodeBus_wrWord (row : AccessRow c o n tgt rd wr) (hc : cfgOk c = true) (v : Word) :
    decodeBus c (wrWord n o v) = wr v := by
  rw [Sys2Proof.decodeBus_wrWord c n o v (row.offset_lt hc), row.decodeTarget_eq hc, row.writeInstr_eq]

end Row

/-- The row of user register `k`. -/
theorem AccessRow.user (c : Cfg) (k : Fin 6) :
    AccessRow c (c.offUser0 + 4 * k.val) .word (.user k)
      #v[Instr.rdUser0, .rdUser1, .rdUser2, .rdUser3, .rdUser4, .rdUser5][k]
      (fun v => #v[Instr.wrUser0 v, .wrUser1 v, .wrUser2 v, .wrUser3 v, .wrUser4 v, .wrUser5 v][k]) := by
  fin_cases k
  · exact .user0
  · exact .user1
  · exact .user2
  · exact .user3
  · exact .user4
  · exact .user5

namespace Machine

/-! ### The answers of the register commands -/

theorem exec_rdCtrl (s : State) : exec .rdCtrl s = .next (s.respond (.data 4 (ctrlWord s))) := rfl

theorem exec_rdStatus (s : State) : exec .rdStatus s = .next (s.respond (.data 4 (statusWord s))) := rfl

theorem exec_rdXferStatus (s : State) : exec .rdXferStatus s = .next (s.respond (.data 4 (xferWord s))) := rfl

theorem exec_wrCtrl (v : Word) (s : State) : exec (.wrCtrl v) s = .next ((writeCtrl v s).respond .done) := rfl

theorem exec_wrDataAmount (v : Word) (s : State) :
    exec (.wrDataAmount v) s = .next ((writeAmount v s).respond .done) := rfl

/-- A response and a draw are no state of the block (10_state.md R11, log 6, log 12). -/
theorem sameBlock_answer (s : State) (d : Nat) (r : HostResp) :
    SameBlock s { s with draws := d, hostResp := r } ∧ SameInputs s { s with draws := d, hostResp := r } :=
  ⟨SameBlock_refl s, SameInputs_refl s⟩

/-! ### Reads of the computed registers (40_register_access.md R81, R84, R86) -/

/-- Settles O9: the stored bits stand at their positions. -/
theorem readCtrlReturnsStoredBits : Obligations.ReadCtrlReturnsStoredBits := by
  intro s
  obtain ⟨block, inputs⟩ := sameBlock_answer s s.draws (.data 4 (ctrlWord s))
  refine ⟨decodeBus_rdCtrl, _, _, exec_rdCtrl s, rfl, block, inputs, fun b hb => ?_⟩
  rw [ctrlWord_getLsbD s b hb]
  simp only [Bool.or_eq_true, Bool.and_eq_true, decide_eq_true_eq]
  tauto

/-- A bit of STATUS: the flags whose position it is (10_state.md R15). -/
theorem statusWord_getLsbD (s : State) {b : Nat} (hb : b < 32) :
    (statusWord s).getLsbD b = true ↔
      (b = s.cfg.stInEmptyBit ∧ inEmpty s = true) ∨ (b = s.cfg.stInFullBit ∧ inFull s = true)
        ∨ (b = s.cfg.stInCopyingBit ∧ s.inBusy = true) ∨ (b = s.cfg.stOutEmptyBit ∧ outEmpty s = true)
        ∨ (b = s.cfg.stOutFullBit ∧ outFull s = true) ∨ (b = s.cfg.stOutCopyingBit ∧ s.outBusy = true) := by
  simp only [statusWord, BitVec.getLsbD_or, flagAt_getLsbD _ _ _ hb, Bool.or_eq_true, Bool.and_eq_true,
    decide_eq_true_eq, or_assoc, and_comm]

/-- Settles O10: the flags are computed from the FIFOs and the engines at the read. -/
theorem readStatusReturnsFlags : Obligations.ReadStatusReturnsFlags := by
  intro s
  obtain ⟨block, inputs⟩ := sameBlock_answer s s.draws (.data 4 (statusWord s))
  refine ⟨decodeBus_rdStatus, _, _, exec_rdStatus s, rfl, block, inputs, fun b hb => ?_⟩
  rw [statusWord_getLsbD s hb]
  simp only [inEmpty, inFull, outEmpty, outFull, beq_iff_eq, List.length_eq_zero_iff]

/-- A bit of a count in its field (10_state.md R16). -/
theorem countField_getLsbD (x : Count) (shift : Nat) {b : Nat} (hb : b < 32) :
    (x.setWidth 32 <<< shift).getLsbD b = true ↔ shift ≤ b ∧ x.getLsbD (b - shift) = true := by
  simp [hb]

/-- Settles O11: the two counts, each shifted to its field. -/
theorem readXferStatusReturnsCounts : Obligations.ReadXferStatusReturnsCounts := by
  intro s
  obtain ⟨block, inputs⟩ := sameBlock_answer s s.draws (.data 4 (xferWord s))
  refine ⟨decodeBus_rdXfer, _, _, exec_rdXferStatus s, rfl, block, inputs, fun b hb => ?_⟩
  rw [xferWord, BitVec.getLsbD_or, Bool.or_eq_true, countField_getLsbD _ _ hb, countField_getLsbD _ _ hb, or_comm]

/-- Settles O16: the write is answered, and nothing else happens. -/
theorem readOnlyWritesIgnored : Obligations.ReadOnlyWritesIgnored := by
  intro s v
  obtain ⟨block, inputs⟩ := sameBlock_answer s s.draws .done
  refine ⟨fun hc => ⟨AccessRow.status.decodeBus_wrWord hc v, AccessRow.xferStatus.decodeBus_wrWord hc v⟩, ?_⟩
  intro i hi
  simp only [List.mem_cons, List.not_mem_nil, or_false] at hi
  obtain rfl | rfl := hi <;> exact ⟨_, rfl, rfl, block, inputs⟩

/-! ### User registers (40_register_access.md R88, R89) -/

/-- Settles O12: the stored word of a written register, a draw otherwise. -/
theorem readUserReturnsStored : Obligations.ReadUserReturnsStored := by
  intro s k
  obtain ⟨block, inputs⟩ := sameBlock_answer s (s.draws + 1) (.data 4 (userValue k s))
  exact ⟨(AccessRow.user s.cfg k).decodeBus_rdWord, _, _, exec_rdUser k s, rfl, userValue_written, block,
    inputs⟩

/-- A write leaves every other user register. -/
theorem writeUser_others {k m : Fin 6} (v : Word) (s : State) (hm : m ≠ k) :
    (writeUser k v s).user[m] = s.user[m] ∧ (writeUser k v s).userWritten[m] = s.userWritten[m] := by
  have apart : k.val ≠ m.val := fun h => hm (Fin.ext h.symm)
  simp [Vector.getElem_set_ne, apart]

/-- Settles O13: the two vectors at index `k` are all that is written. -/
theorem writeUserStoresWord : Obligations.WriteUserStoresWord := by
  intro s k v
  obtain ⟨written, stored⟩ := writeUser_stores k v s
  exact ⟨fun hc => (AccessRow.user s.cfg k).decodeBus_wrWord hc v, _, exec_wrUser k v s, stored, written,
    fun m hm => writeUser_others v s hm, ⟨rfl, rfl⟩, rfl, ⟨rfl, rfl⟩, ⟨rfl, rfl, rfl⟩, ⟨rfl, rfl⟩, fun _ => rfl,
    fun _ => rfl, rfl, ⟨rfl, rfl, rfl, rfl, rfl⟩, rfl⟩

/-! ### DATA_AMOUNT (40_register_access.md R94) -/

/-- The stored amount has the low `AMOUNT_W` bits of the written word. -/
theorem writeAmount_getLsbD (v : Word) (s : State) {b : Nat} (hb : b < 16) :
    (writeAmount v s).amount.getLsbD b = (decide (b < s.cfg.amountW) && v.getLsbD b) := by
  rw [writeAmount_amount, BitVec.getLsbD_ofNat, Nat.testBit_mod_two_pow]
  simp [hb, BitVec.testBit_toNat]

/-- Settles O17: `amount` is the only field written. -/
theorem writeAmountStoresLowBits : Obligations.WriteAmountStoresLowBits := by
  intro s v hc
  exact ⟨decodeBus_wrAmount hc v, _, exec_wrDataAmount v s, fun b hb => writeAmount_getLsbD v s hb, ⟨rfl, rfl⟩,
    fun _ => ⟨rfl, rfl⟩, ⟨rfl, rfl⟩, ⟨rfl, rfl, rfl⟩, ⟨rfl, rfl⟩, fun _ => rfl, fun _ => rfl, rfl,
    ⟨rfl, rfl, rfl, rfl, rfl⟩, rfl⟩

/-! ### CTRL (40_register_access.md R82, R83; 60_exceptions.md R194, R196) -/

theorem risesTo_iff (v : Word) (s : State) :
    risesTo v s = true ↔ s.ctrlTo = false ∧ v.getLsbD s.cfg.ctrlToBit = true := by
  simp [risesTo]

theorem risesFrom_iff (v : Word) (s : State) :
    risesFrom v s = true ↔ s.ctrlFrom = false ∧ v.getLsbD s.cfg.ctrlFromBit = true := by
  simp [risesFrom]

/-- A rising COPY_TO_FIFO starts the idle IN engine on an amount that fits the window. -/
theorem writeCtrl_startsIn {v : Word} {s : State} (rise : risesTo v s = true) (idle : s.inBusy = false)
    (fits : s.amount.toNat ≤ s.cfg.bufInWords) :
    (writeCtrl v s).inBusy = true ∧ (writeCtrl v s).inTarget = s.amount ∧ (writeCtrl v s).inCopied = 0 := by
  have same := writeCtrl_sameInEngine v s
  rw [if_pos rise, triggerIn, if_neg (by simpa using idle), if_neg (by simpa using fits)] at same
  exact same

/-- A rising COPY_FROM_FIFO starts the idle OUT engine. -/
theorem writeCtrl_startsOut {v : Word} {s : State} (rise : risesFrom v s = true) (idle : s.outBusy = false) :
    (writeCtrl v s).outBusy = true ∧ (writeCtrl v s).outCopied = 0 := by
  obtain ⟨u, ⟨sameBusy, -⟩, e⟩ := writeCtrl_outTrigger v s
  rw [e, if_pos rise, triggerOut, sameBusy, idle]
  exact ⟨rfl, rfl⟩

/-- The fault a rising COPY_TO_FIFO leaves. -/
theorem triggerIn_fault (s : State) :
    (triggerIn s).fault =
      if s.inBusy then some (s.fault.getD .engineRetrigger)
      else if s.cfg.bufInWords < s.amount.toNat then some (s.fault.getD .windowOverrun) else s.fault := by
  obtain ⟨busy, e⟩ | ⟨idle, tooLarge, e⟩ | ⟨idle, fits, e⟩ := triggerIn_cases s
  · simp [e, busy]
  · simp [e, idle, tooLarge]
  · simp [e, idle, Nat.not_lt.mpr fits]

/-- The fault a rising COPY_FROM_FIFO leaves. -/
theorem triggerOut_fault (s : State) :
    (triggerOut s).fault = if s.outBusy then some (s.fault.getD .engineRetrigger) else s.fault := by
  obtain ⟨busy, e⟩ | ⟨idle, e⟩ := triggerOut_cases s
  · simp [e, busy]
  · simp [e, idle]

/-- The fault the COPY_TO_FIFO bit of a CTRL write marks, if it marks one (60_exceptions.md R194, R196). -/
def faultOfTo (v : Word) (s : State) : Option FaultMark :=
  if risesTo v s then
    if s.inBusy then some .engineRetrigger
    else if s.cfg.bufInWords < s.amount.toNat then some .windowOverrun else none
  else none

/-- The fault the COPY_FROM_FIFO bit marks, if it marks one and none is marked yet (60_exceptions.md R194). -/
def faultOfFrom (v : Word) (s : State) : Option FaultMark :=
  if risesFrom v s && s.outBusy then some .engineRetrigger else none

/-- The fault a CTRL write marks where none was: COPY_TO_FIFO is judged first (60_exceptions.md R201). -/
theorem writeCtrl_fault (v : Word) {s : State} (clear : s.fault = none) :
    (writeCtrl v s).fault = (faultOfTo v s).or (faultOfFrom v s) := by
  have afterTo : (if risesTo v s then triggerIn (storeCtrl v s) else storeCtrl v s).fault = faultOfTo v s := by
    rw [faultOfTo]
    split
    · simp [triggerIn_fault, clear]
    · exact clear
  have sameOut : (if risesTo v s then triggerIn (storeCtrl v s) else storeCtrl v s).outBusy = s.outBusy := by
    split <;> simp
  rw [writeCtrl, ← afterTo, faultOfFrom]
  cases risesFrom v s with
  | false => simp
  | true =>
    rw [if_pos rfl, triggerOut_fault, sameOut, Bool.true_and]
    cases s.outBusy <;> simp [Option.or_some]

theorem faultOfTo_retrigger {v : Word} {s : State} (rise : risesTo v s = true) (busy : s.inBusy = true) :
    faultOfTo v s = some .engineRetrigger := by
  rw [faultOfTo, if_pos rise, if_pos busy]

theorem faultOfTo_overrun {v : Word} {s : State} (rise : risesTo v s = true) (idle : s.inBusy = false)
    (tooLarge : s.cfg.bufInWords < s.amount.toNat) : faultOfTo v s = some .windowOverrun := by
  rw [faultOfTo, if_pos rise, if_neg (Bool.eq_false_iff.mp idle), if_pos tooLarge]

theorem faultOfTo_none {v : Word} {s : State} (notBusy : ¬ (risesTo v s = true ∧ s.inBusy = true))
    (fits : ¬ (risesTo v s = true ∧ s.inBusy = false ∧ s.cfg.bufInWords < s.amount.toNat)) :
    faultOfTo v s = none := by
  rw [faultOfTo]
  split
  case isFalse => rfl
  case isTrue rise =>
    have idle : s.inBusy = false := Bool.eq_false_iff.mpr fun busy => notBusy ⟨rise, busy⟩
    rw [if_neg (Bool.eq_false_iff.mp idle), if_neg fun tooLarge => fits ⟨rise, idle, tooLarge⟩]

/-- Settles O15: each engine by its own bit, and the fault by the first bit that marks one. -/
theorem writeCtrlTriggersOnEdges : Obligations.WriteCtrlTriggersOnEdges := by
  intro s v riseTo riseFrom startIn startOut retriggerIn overrun retriggerOut
  obtain ⟨bitTo, bitFrom⟩ := writeCtrl_bits v s
  obtain ⟨amount, user, written, fifoIn, fifoOut, bufIn, bufOut, cfg, -, turns, hostPort, devPort, proc, -, -⟩ :=
    writeCtrl_frame v s
  refine ⟨fun hc => decodeBus_wrCtrl hc v, _, exec_wrCtrl v s, bitTo, bitFrom, ?startsIn, ?leavesIn, ?startsOut,
    ?leavesOut, writeCtrl_faultKept v s, ?fault, amount, fun k => ⟨congrArg (·[k]) user, congrArg (·[k]) written⟩,
    ⟨fifoIn, fifoOut⟩, fun a => congrArg (Memory.get? · a) bufIn, fun a => congrArg (Memory.get? · a) bufOut,
    ⟨cfg, turns, hostPort, devPort, proc⟩, rfl⟩
  case startsIn =>
    rintro ⟨rise, idle, fits⟩
    exact writeCtrl_startsIn ((risesTo_iff v s).mpr rise) idle fits
  case leavesIn =>
    intro noStart
    refine (writeCtrl_inEngine v s).resolve_right fun st => noStart ?_
    exact ⟨⟨st.bit_was_clear, bitTo.symm.trans st.bit_is_set⟩, st.was_idle, st.fits⟩
  case startsOut =>
    rintro ⟨rise, idle⟩
    exact writeCtrl_startsOut ((risesFrom_iff v s).mpr rise) idle
  case leavesOut =>
    intro noStart
    refine (writeCtrl_outEngine v s).resolve_right fun st => noStart ?_
    exact ⟨⟨st.bit_was_clear, bitFrom.symm.trans st.bit_is_set⟩, st.was_idle⟩
  case fault =>
    intro clear
    rw [State.respond_fault, writeCtrl_fault v clear]
    have noFaultOfTo (notBusy : ¬ retriggerIn) (fits : ¬ overrun) : faultOfTo v s = none :=
      faultOfTo_none (by rwa [risesTo_iff]) (by rwa [risesTo_iff])
    refine ⟨?_, ?_, ?_, ?_⟩
    · rintro ⟨rise, busy⟩
      rw [faultOfTo_retrigger ((risesTo_iff v s).mpr rise) busy, Option.some_or]
    · rintro ⟨rise, idle, tooLarge⟩
      rw [faultOfTo_overrun ((risesTo_iff v s).mpr rise) idle tooLarge, Option.some_or]
    · intro notBusy fits ⟨rise, busy⟩
      rw [noFaultOfTo notBusy fits, Option.none_or, faultOfFrom, (risesFrom_iff v s).mpr rise, busy]
      rfl
    · intro notBusy fits noRetrigger
      rw [noFaultOfTo notBusy fits, Option.none_or, faultOfFrom, if_neg]
      rwa [Bool.and_eq_true, risesFrom_iff]

/-! ### The buffer windows (40_register_access.md R90 to R93) -/

/-- `WindowRace` is marked exactly while the engine copies (60_exceptions.md R195). -/
theorem raceIf_marks (busy : Bool) (s : State) :
    (busy = true → (raceIf busy s).fault = some (s.fault.getD .windowRace))
      ∧ (busy = false → SameFault s (raceIf busy s)) := by
  cases busy with
  | true => exact ⟨fun _ => rfl, nofun⟩
  | false => exact ⟨nofun, fun _ => rfl⟩

/-- A little-endian store: the bytes of the word, the least significant at the lowest index. -/
theorem Memory.get?_store_little (m : Memory) {o : ByteOrder} (little : o = .little) (j n : Nat) (v : Word) {k : Nat}
    (hk : k < n) : Memory.get? (Memory.store m o j n v) (j + k) = some (v.extractLsb' (8 * k) 8) := by
  subst little
  exact Memory.get?_store_byte m .little j n v hk

/-- A store leaves every byte outside it. -/
theorem Memory.get?_store_outside (m : Memory) (o : ByteOrder) {j n a : Nat} (v : Word)
    (outside : a < j ∨ j + n ≤ a) : Memory.get? (Memory.store m o j n v) a = Memory.get? m a := by
  rw [Memory.get?_store, if_neg (by omega)]

theorem wordLE_lt_of_length {bs : List Byte} {n : Nat} (h : bs.length = n) : (wordLE bs).toNat < 2 ^ (8 * n) :=
  h ▸ wordLE_lt bs

/-- The value of an access has no bit above the access. -/
theorem Memory.value_lt (m : Memory) (o : ByteOrder) (free : Word) (j n : Nat) :
    (Memory.value m o free j n).toNat < 2 ^ (8 * n) := by
  cases o with
  | little => exact wordLE_lt_of_length (Memory.getBytes_length m free j n)
  | big => exact wordLE_lt_of_length ((List.length_reverse).trans (Memory.getBytes_length m free j n))

/-- A little-endian access shows each listed byte at its place. -/
theorem Memory.extract_value_little {m : Memory} {o : ByteOrder} (little : o = .little) {free : Word} {j n k : Nat}
    {b : Byte} (short : n ≤ 4) (hk : k < n) (hb : Memory.get? m (j + k) = some b) :
    (Memory.value m o free j n).extractLsb' (8 * k) 8 = b := by
  subst little
  exact Memory.byteAt_value .little short hk hb

/-- What a host write of the input window leaves: all but the window and the fault mark (40_register_access.md R98). -/
theorem writeBufIn_frame (n j : Nat) (v : Word) (s : State) :
    SameCtrl s (writeBufIn n j v s) ∧ SameAmount s (writeBufIn n j v s) ∧ SameUsers s (writeBufIn n j v s)
      ∧ SameFifos s (writeBufIn n j v s) ∧ SameInEngine s (writeBufIn n j v s)
      ∧ SameOutEngine s (writeBufIn n j v s) ∧ SameBufOut s (writeBufIn n j v s)
      ∧ SameInputs s (writeBufIn n j v s) := by
  simp [writeBufIn, SameCtrl, SameAmount, SameUsers, SameFifos, SameInEngine, SameOutEngine, SameBufOut, SameInputs]

/-- What a host write of the output window leaves. -/
theorem writeBufOut_frame (n j : Nat) (v : Word) (s : State) :
    SameCtrl s (writeBufOut n j v s) ∧ SameAmount s (writeBufOut n j v s) ∧ SameUsers s (writeBufOut n j v s)
      ∧ SameFifos s (writeBufOut n j v s) ∧ SameInEngine s (writeBufOut n j v s)
      ∧ SameOutEngine s (writeBufOut n j v s) ∧ SameBufIn s (writeBufOut n j v s)
      ∧ SameInputs s (writeBufOut n j v s) := by
  simp [writeBufOut, SameCtrl, SameAmount, SameUsers, SameFifos, SameInEngine, SameOutEngine, SameBufIn, SameInputs]

/-- Settles O18: a store in the window, and the race mark of the IN engine. -/
theorem writeBufInStoresBytes : Obligations.WriteBufInStoresBytes := by
  intro s n j v
  obtain ⟨ctrl, amount, users, fifos, inEngine, outEngine, bufOut, inputs⟩ := writeBufIn_frame n.bytes j v s
  obtain ⟨race, noRace⟩ := raceIf_marks s.inBusy s
  refine ⟨fun hc aligned fits => decodeBus_wrBufIn hc n j v aligned fits, _, exec_wrBufIn n j v s, ?_, ?_, race,
    noRace, ctrl, amount, users, fifos, inEngine, outEngine, bufOut, inputs, rfl⟩
  · intro little k hk
    rw [State.respond_bufIn, writeBufIn_bufIn, Memory.get?_store_little _ little _ _ _ hk]
  · intro a outside
    rw [State.respond_bufIn, writeBufIn_bufIn, Memory.get?_store_outside _ _ _ outside]

/-- Settles O19: a store in the window, and the race mark of the OUT engine. -/
theorem writeBufOutStoresBytes : Obligations.WriteBufOutStoresBytes := by
  intro s n j v
  obtain ⟨ctrl, amount, users, fifos, inEngine, outEngine, bufIn, inputs⟩ := writeBufOut_frame n.bytes j v s
  obtain ⟨race, noRace⟩ := raceIf_marks s.outBusy s
  refine ⟨fun hc aligned fits => decodeBus_wrBufOut hc n j v aligned fits, _, exec_wrBufOut n j v s, ?_, ?_, race,
    noRace, ctrl, amount, users, fifos, inEngine, outEngine, bufIn, inputs, rfl⟩
  · intro little k hk
    rw [State.respond_bufOut, writeBufOut_bufOut, Memory.get?_store_little _ little _ _ _ hk]
  · intro a outside
    rw [State.respond_bufOut, writeBufOut_bufOut, Memory.get?_store_outside _ _ _ outside]

/-- Settles O20: the value of the access in its window, and the race mark of the window's engine. -/
theorem windowReadsReturnBytes : Obligations.WindowReadsReturnBytes := by
  intro s n j wdata
  obtain ⟨blockIn, inputsIn⟩ := afterReadBufIn_frame s
  obtain ⟨blockOut, inputsOut⟩ := afterReadBufOut_frame s
  obtain ⟨raceIn, noRaceIn⟩ := raceIf_marks s.inBusy s
  obtain ⟨raceOut, noRaceOut⟩ := raceIf_marks s.outBusy s
  exact ⟨⟨fun hc aligned fits => decodeBus_rdBufIn hc n j wdata aligned fits, _, _, exec_rdBufIn n j s, rfl,
      fun little _ _ hk hb => Memory.extract_value_little little n.bytes_le_four hk hb, Memory.value_lt _ _ _ _ _,
      raceIn, noRaceIn, blockIn, inputsIn⟩,
    fun hc aligned fits => decodeBus_rdBufOut hc n j wdata aligned fits, _, _, exec_rdBufOut n j s, rfl,
    fun little _ _ hk hb => Memory.extract_value_little little n.bytes_le_four hk hb, Memory.value_lt _ _ _ _ _,
    raceOut, noRaceOut, blockOut, inputsOut⟩

/-! ### Illegal accesses (40_register_access.md R96, R97) -/

theorem illegalBytes_le_four (size : BitVec 2) : illegalBytes size ≤ 4 := by
  obtain rfl | ⟨n, rfl⟩ := size_cases size
  · decide
  · exact illegalBytes_code n ▸ n.bytes_le_four

/-- Settles O23: the mark, the response and, for a read, the draw are all that changes. -/
theorem illegalAccessMarksBusFault : Obligations.IllegalAccessMarksBusFault := by
  intro s we size rsv off
  refine ⟨_, exec_busIllegal we size rsv off s, ?_⟩
  have widths (n : Size) (hn : size = n.code) : illegalBytes size = n.bytes := hn ▸ illegalBytes_code n
  cases we with
  | true =>
    obtain ⟨block, inputs⟩ := sameBlockButFault_quiet s s.draws (busError s).fault .done s.devResp
    exact ⟨rfl, block, inputs, fun _ => rfl, nofun, widths⟩
  | false =>
    obtain ⟨block, inputs⟩ := sameBlockButFault_quiet s (s.draws + 1) (busError s).fault
      (.data (illegalBytes size) (lowBytes (illegalBytes size) s.free)) s.devResp
    exact ⟨rfl, block, inputs, nofun, fun _ => ⟨_, rfl, lowBytes_lt (illegalBytes_le_four size) _⟩, widths⟩

/-! ### Which commands write which state (40_register_access.md R98) -/

section Effect

variable {s t : State} {i : Instr}

/-- Only WR_CTRL writes the control bits and starts engines. -/
theorem Effect.sameCtrlAndEngines (h : Effect s i t) (notCtrl : ∀ v, i ≠ .wrCtrl v) :
    SameCtrl s t ∧ SameInEngine s t ∧ SameOutEngine s t := by
  cases h with
  | ctrl v => exact absurd rfl (notCtrl v)
  | bufIn n j v =>
    obtain ⟨ctrl, -, -, -, inEngine, outEngine, -⟩ := writeBufIn_frame n.bytes j v s
    exact ⟨ctrl, inEngine, outEngine⟩
  | bufOut n j v =>
    obtain ⟨ctrl, -, -, -, inEngine, outEngine, -⟩ := writeBufOut_frame n.bytes j v s
    exact ⟨ctrl, inEngine, outEngine⟩
  | _ => exact ⟨⟨rfl, rfl⟩, ⟨rfl, rfl, rfl⟩, rfl, rfl⟩

/-- Only WR_DATA_AMOUNT writes the amount. -/
theorem Effect.sameAmount (h : Effect s i t) (notAmount : ∀ v, i ≠ .wrDataAmount v) : SameAmount s t := by
  cases h with
  | amount v => exact absurd rfl (notAmount v)
  | ctrl v => exact (writeCtrl_frame v s).1
  | bufIn n j v => exact (writeBufIn_frame n.bytes j v s).2.1
  | bufOut n j v => exact (writeBufOut_frame n.bytes j v s).2.1
  | _ => rfl

/-- Only WR_BUF_IN writes the input window. -/
theorem Effect.sameBufIn (h : Effect s i t) (notBufIn : ¬ ∃ n j v, i = .wrBufIn n j v) : SameBufIn s t := by
  cases h with
  | bufIn n j v => exact absurd ⟨n, j, v, rfl⟩ notBufIn
  | ctrl v =>
    obtain ⟨-, -, -, -, -, bufIn, -⟩ := writeCtrl_frame v s
    exact fun a => congrArg (Memory.get? · a) bufIn
  | bufOut n j v =>
    obtain ⟨-, -, -, -, -, -, bufIn, -⟩ := writeBufOut_frame n.bytes j v s
    exact bufIn
  | _ => exact fun _ => rfl

/-- Only WR_BUF_OUT writes the output window. -/
theorem Effect.sameBufOut (h : Effect s i t) (notBufOut : ¬ ∃ n j v, i = .wrBufOut n j v) : SameBufOut s t := by
  cases h with
  | bufOut n j v => exact absurd ⟨n, j, v, rfl⟩ notBufOut
  | ctrl v =>
    obtain ⟨-, -, -, -, -, -, bufOut, -⟩ := writeCtrl_frame v s
    exact fun a => congrArg (Memory.get? · a) bufOut
  | bufIn n j v =>
    obtain ⟨-, -, -, -, -, -, bufOut, -⟩ := writeBufIn_frame n.bytes j v s
    exact bufOut
  | _ => exact fun _ => rfl

/-- Only the pop takes from the input FIFO, and only the push adds to the output FIFO. -/
theorem Effect.sameFifos (h : Effect s i t) :
    (i ≠ .devPopIn → t.fifoIn = s.fifoIn) ∧ ((∀ d, i ≠ .devPushOut d) → t.fifoOut = s.fifoOut) := by
  cases port : onDevPort i with
  | false =>
    obtain ⟨fifoIn, fifoOut⟩ := h.fifos port
    exact ⟨fun _ => fifoIn, fun _ => fifoOut⟩
  | true =>
    cases h with
    | quiet => exact ⟨fun _ => rfl, fun _ => rfl⟩
    | pop => exact ⟨absurd rfl, fun _ => rfl⟩
    | push d => exact ⟨fun _ => rfl, fun notPush => absurd rfl (notPush d)⟩
    | user _ _ _ _ notDev => exact absurd (port.symm.trans notDev) (by decide)
    | _ => cases port

/-- A command of the coprocessor writes no user register and marks no fault. -/
theorem Effect.dev_sameUsersAndFault (h : Effect s i t) (port : onDevPort i = true) :
    SameUsers s t ∧ SameFault s t := by
  cases h with
  | quiet _ _ _ _ _ _ sameFault => exact ⟨fun _ => ⟨rfl, rfl⟩, sameFault port⟩
  | pop | push => exact ⟨fun _ => ⟨rfl, rfl⟩, rfl⟩
  | user _ _ _ _ notDev => exact absurd (port.symm.trans notDev) (by decide)
  | _ => cases port

end Effect

/-- The commands that write a user register. -/
inductive WritesUser : Instr → Prop
  | wrUser (k : Fin 6) (v : Word) :
      WritesUser #v[Instr.wrUser0 v, .wrUser1 v, .wrUser2 v, .wrUser3 v, .wrUser4 v, .wrUser5 v][k]
  | setUserReg (x v : Word) : WritesUser (.setUserReg x v)

/-- The commands that can mark a fault. -/
inductive MarksFault : Instr → Prop
  | wrCtrl (v : Word) : MarksFault (.wrCtrl v)
  | rdBufIn (n : Size) (j : Nat) : MarksFault (.rdBufIn n j)
  | wrBufIn (n : Size) (j : Nat) (v : Word) : MarksFault (.wrBufIn n j v)
  | rdBufOut (n : Size) (j : Nat) : MarksFault (.rdBufOut n j)
  | wrBufOut (n : Size) (j : Nat) (v : Word) : MarksFault (.wrBufOut n j v)
  | busIllegal (we : Bool) (size : BitVec 2) (rsv : BitVec 5) (off : BitVec 24) :
      MarksFault (.busIllegal we size rsv off)

/-- A control query hands over a value and uses nothing up (42_status_control_mux.md R138 to R145). -/
theorem exec_query {s : State} (hc : cfgOk s.cfg = true) {i : Instr}
    (hi : i ∈ [Instr.getFifoInEmpty, .getFifoInFull, .getFifoInCopying, .getFifoInCopiedAmount, .getFifoOutEmpty,
      .getFifoOutFull, .getFifoOutCopying, .getFifoOutCopiedAmount]) :
    ∃ v, exec i s = .next (s.respond (.value v)) := by
  have flag (f : FlagSel) : ∃ v, getFlag f s = .next (s.respond (.value v)) := by
    rw [getFlag, memRead_status hc]
    exact ⟨_, rfl⟩
  have count (k : CountSel) : ∃ v, getCount k s = .next (s.respond (.value v)) := by
    rw [getCount, memRead_xfer hc]
    exact ⟨_, rfl⟩
  simp only [List.mem_cons, List.not_mem_nil, or_false] at hi
  obtain rfl | rfl | rfl | rfl | rfl | rfl | rfl | rfl := hi
  · exact flag .inEmpty
  · exact flag .inFull
  · exact flag .inCopying
  · exact count .inCopied
  · exact flag .outEmpty
  · exact flag .outFull
  · exact flag .outCopying
  · exact count .outCopied

/-- An index is that of a user register, or it is refused (43_offset_validation.md R156). -/
theorem userIndex_cases (x : Word) : (∃ k : Fin 6, x = BitVec.ofNat 32 k.val) ∨ userIndexValid x = false := by
  cases valid : userIndexValid x with
  | false => exact .inr rfl
  | true =>
    obtain ⟨k, hk⟩ := userIndexValid_fin valid
    exact .inl ⟨k, by rw [← hk, BitVec.ofNat_toNat, BitVec.setWidth_eq]⟩

theorem exec_setUserReg_refused {x : Word} (h : userIndexValid x = false) (v : Word) (s : State) :
    exec (.setUserReg x v) s = .next (s.raise .accessDenied) :=
  if_neg (Bool.eq_false_iff.mp h)

theorem exec_getUserReg_refused {x : Word} (h : userIndexValid x = false) (s : State) :
    exec (.getUserReg x) s = .next (s.raise .accessDenied) :=
  if_neg (Bool.eq_false_iff.mp h)

/-- The command writes user registers and marks faults only as its row of the table allows. -/
def KeepsUsersAndFault (s : State) (i : Instr) (t : State) : Prop :=
  (WritesUser i ∨ SameUsers s t) ∧ (MarksFault i ∨ SameFault s t)

theorem keepsUsersAndFault_answer (s : State) (i : Instr) (d : Nat) (r : HostResp) :
    KeepsUsersAndFault s i { s with draws := d, hostResp := r } :=
  ⟨.inr fun _ => ⟨rfl, rfl⟩, .inr rfl⟩

/-- Every command keeps to its row: the writers of a user register mark no fault, and the others leave all six. -/
theorem exec_keepsUsersAndFault {s : State} (hc : cfgOk s.cfg = true) (i : Instr) :
    ∃ t, exec i s = .next t ∧ KeepsUsersAndFault s i t := by
  have query (run : ∃ v, exec i s = .next (s.respond (.value v))) :
      ∃ t, exec i s = .next t ∧ KeepsUsersAndFault s i t := by
    obtain ⟨v, run⟩ := run
    exact ⟨_, run, keepsUsersAndFault_answer ..⟩
  have dev (port : onDevPort i = true) : ∃ t, exec i s = .next t ∧ KeepsUsersAndFault s i t := by
    obtain ⟨t, run⟩ := exec_next i s
    obtain ⟨users, fault⟩ := (exec_effect hc run).dev_sameUsersAndFault port
    exact ⟨t, run, .inr users, .inr fault⟩
  cases i with
  | wrUser0 v => exact ⟨_, rfl, .inl (.wrUser 0 v), .inr rfl⟩
  | wrUser1 v => exact ⟨_, rfl, .inl (.wrUser 1 v), .inr rfl⟩
  | wrUser2 v => exact ⟨_, rfl, .inl (.wrUser 2 v), .inr rfl⟩
  | wrUser3 v => exact ⟨_, rfl, .inl (.wrUser 3 v), .inr rfl⟩
  | wrUser4 v => exact ⟨_, rfl, .inl (.wrUser 4 v), .inr rfl⟩
  | wrUser5 v => exact ⟨_, rfl, .inl (.wrUser 5 v), .inr rfl⟩
  | setUserReg x v =>
    obtain ⟨k, rfl⟩ | refused := userIndex_cases x
    · exact ⟨_, exec_setUserReg hc k v, .inl (.setUserReg _ v), .inr rfl⟩
    · exact ⟨_, exec_setUserReg_refused refused v s, keepsUsersAndFault_answer ..⟩
  | getUserReg x =>
    obtain ⟨k, rfl⟩ | refused := userIndex_cases x
    · exact ⟨_, exec_getUserReg hc k, keepsUsersAndFault_answer ..⟩
    · exact ⟨_, exec_getUserReg_refused refused s, keepsUsersAndFault_answer ..⟩
  | wrCtrl v =>
    obtain ⟨-, user, written, -⟩ := writeCtrl_frame v s
    exact ⟨_, rfl, .inr fun k => ⟨congrArg (·[k]) user, congrArg (·[k]) written⟩, .inl (.wrCtrl v)⟩
  | rdBufIn n j =>
    obtain ⟨⟨-, -, users, -⟩, -⟩ := afterReadBufIn_frame s
    exact ⟨_, rfl, .inr users, .inl (.rdBufIn n j)⟩
  | rdBufOut n j =>
    obtain ⟨⟨-, -, users, -⟩, -⟩ := afterReadBufOut_frame s
    exact ⟨_, rfl, .inr users, .inl (.rdBufOut n j)⟩
  | wrBufIn n j v =>
    obtain ⟨-, -, users, -⟩ := writeBufIn_frame n.bytes j v s
    exact ⟨_, rfl, .inr users, .inl (.wrBufIn n j v)⟩
  | wrBufOut n j v =>
    obtain ⟨-, -, users, -⟩ := writeBufOut_frame n.bytes j v s
    exact ⟨_, rfl, .inr users, .inl (.wrBufOut n j v)⟩
  | busIllegal we size rsv off =>
    refine ⟨_, exec_busIllegal we size rsv off s, .inr ?_, .inl (.busIllegal we size rsv off)⟩
    cases we <;> exact fun _ => ⟨rfl, rfl⟩
  | devPopIn | devPushOut => exact dev rfl
  | getFifoInEmpty | getFifoInFull | getFifoInCopying | getFifoInCopiedAmount | getFifoOutEmpty | getFifoOutFull
  | getFifoOutCopying | getFifoOutCopiedAmount => exact query (exec_query hc (by simp))
  | _ => exact ⟨_, rfl, keepsUsersAndFault_answer ..⟩

/-- Settles O54: the clauses of the table, each by what the command's effect leaves. -/
theorem commandsWriteOnlyTheirState : Obligations.CommandsWriteOnlyTheirState := by
  intro s t i hc run isWrUser isWrBufIn isWrBufOut
  have effect := exec_effect hc run
  obtain ⟨fifoIn, fifoOut⟩ := effect.sameFifos
  obtain ⟨users, fault⟩ : KeepsUsersAndFault s i t := by
    obtain ⟨u, run', keeps⟩ := exec_keepsUsersAndFault hc i
    cases run.symm.trans run'
    exact keeps
  refine ⟨effect.sameCtrlAndEngines, effect.sameAmount, ?users, ?others, effect.sameBufIn, effect.sameBufOut, ?fault,
    fifoIn, fifoOut, effect.cfg⟩
  case users =>
    intro notWrUser notSetUserReg
    refine users.resolve_left ?_
    rintro (⟨k, v⟩ | ⟨x, v⟩)
    · exact notWrUser ⟨v, by fin_cases k <;> simp⟩
    · exact notSetUserReg x v rfl
  case others =>
    rintro k v rfl m hm
    rw [exec_wrUser, Host.Outcome.next.injEq] at run
    exact run ▸ writeUser_others v s hm
  case fault =>
    intro notCtrl notWrBufIn notWrBufOut notRead notIllegal
    refine fault.resolve_left ?_
    intro marks
    cases marks with
    | wrCtrl v => exact notCtrl v rfl
    | rdBufIn n j => exact (notRead n j).1 rfl
    | wrBufIn n j v => exact notWrBufIn ⟨n, j, v, rfl⟩
    | rdBufOut n j => exact (notRead n j).2 rfl
    | wrBufOut n j v => exact notWrBufOut ⟨n, j, v, rfl⟩
    | busIllegal we size rsv off => exact notIllegal we size rsv off rfl

end Machine

end Sys2Proof
end

section
/-! PROOFS. The statements of 41_copy_engines.md: the coprocessor's port (R117, R118), one turn of each engine and
of the echo coprocessor (R110 to R115, R119), a whole transfer, and its end under fairness (R116). -/

namespace Sys2Proof.Machine

/-! ### The coprocessor's port (R117, R118) -/

/-- A coprocessor's command without a step leaves the block (log 10). -/
theorem respondDev_frame (r : DevResp) (s : State) :
    SameBlock s (s.respondDev r) ∧ SameInputs s (s.respondDev r) := by
  simp [SameBlock, SameBlockButFault, SameCtrl, SameAmount, SameUsers, SameFifos, SameInEngine, SameOutEngine,
    SameBufIn, SameBufOut, SameFault, SameInputs]

theorem exec_devPushOut_room {s : State} (room : s.fifoOut.length < s.cfg.fifoOutDepth) (d : Word) :
    exec (.devPushOut d) s = .next ((pushOut d s).respondDev .pushed) :=
  if_pos room

/-- Settles O30: the word comes off the head of the input FIFO, if there is one. -/
theorem popTakesHead : Obligations.PopTakesHead := by
  refine ⟨fun d => decodeDev_devWord false d, fun s => ⟨?_, ?_⟩⟩
  · intro w rest hf
    refine ⟨_, exec_devPopIn_cons hf, rfl, by simp [hf], ?_⟩
    simp [SameCtrl, SameAmount, SameUsers, SameInEngine, SameOutEngine, SameBufIn, SameBufOut, SameFault, SameInputs]
  · intro empty
    exact ⟨_, exec_devPopIn_nil empty, rfl, respondDev_frame .waiting s⟩

/-- Settles O31: the word goes to the tail of the output FIFO, if it has room. -/
theorem pushAppendsAtTail : Obligations.PushAppendsAtTail := by
  refine fun s d => ⟨decodeDev_devWord true d, ?_, ?_⟩
  · intro room
    refine ⟨_, exec_devPushOut_room room d, rfl, rfl, ?_⟩
    simp [SameCtrl, SameAmount, SameUsers, SameInEngine, SameOutEngine, SameBufIn, SameBufOut, SameFault, SameInputs]
  · intro full
    exact ⟨_, exec_devPushOut_full full d, rfl, respondDev_frame .waiting s⟩

/-! ### The echo coprocessor (R119) -/

/-- The echo coprocessor's turn does nothing without a word to move or without room for it (log 9). -/
theorem echoTurn_waits {s : State} (h : s.fifoIn = [] ∨ s.cfg.fifoOutDepth ≤ s.fifoOut.length) : echoTurn s = s := by
  refine if_neg ?_
  obtain empty | full := h
  · simp [echoEnabled, empty]
  · simp [echoEnabled, full]

/-- Settles O36: the two cases of the step's condition. -/
theorem echoMovesOneWord : Obligations.EchoMovesOneWord := by
  refine fun s => ⟨?_, fun blocked => congrArg _ (echoTurn_waits blocked)⟩
  intro w rest hf room
  have moves : echoTurn s = echo s := echoTurn_moves (by simp [hf]) room
  have moved : echo s = { s with fifoIn := rest, fifoOut := s.fifoOut ++ [w] } := by
    simp [echo, pushOut, dropIn, hf]
  exact congrArg _ (moves.trans moved)

/-! ### The steps of a busy engine (R110 to R115) -/

/-- Where a transfer of the IN engine stands: all words copied, room for the next one, or the FIFO full. -/
theorem State.Inv.inEngine_cases {s : State} (hi : s.Inv) :
    s.inCopied = s.inTarget
    ∨ (s.inCopied.toNat < s.inTarget.toNat ∧ s.fifoIn.length < s.cfg.fifoInDepth)
    ∨ (s.inCopied.toNat < s.inTarget.toNat ∧ s.fifoIn.length = s.cfg.fifoInDepth) := by
  obtain more | done := Nat.lt_or_eq_of_le hi.inCopied_le
  · obtain room | full := Nat.lt_or_eq_of_le hi.fifoIn_fits
    · exact .inr (.inl ⟨more, room⟩)
    · exact .inr (.inr ⟨more, full⟩)
  · exact .inl (BitVec.eq_of_toNat_eq done)

/-- Where a transfer of the OUT engine stands: a word to copy and room for it, or the end. -/
theorem State.Inv.outEngine_cases {s : State} (hi : s.Inv) :
    (0 < s.fifoOut.length ∧ s.outCopied.toNat < s.cfg.bufOutWords)
    ∨ (s.fifoOut = [] ∨ s.outCopied.toNat = s.cfg.bufOutWords) := by
  obtain room | filled := Nat.lt_or_eq_of_le hi.outCopied_le
  · cases hf : s.fifoOut with
    | nil => exact .inr (.inl rfl)
    | cons w ws => exact .inl ⟨Nat.succ_pos _, room⟩
  · exact .inr (.inr filled)

/-- A word still to copy: the transfer is not done. -/
theorem inDoneEnabled_more {s : State} (more : s.inCopied.toNat < s.inTarget.toNat) : inDoneEnabled s = false := by
  have notDone : s.inCopied ≠ s.inTarget := fun done => more.ne (congrArg _ done)
  simp [inDoneEnabled, notDone]

/-- Settles O34: where the transfer stands decides which step is enabled. -/
theorem busyEngineHasOneStep : Obligations.BusyEngineHasOneStep := by
  intro s hi
  refine ⟨?_, ?_, ?_, ?_⟩
  · intro busy notStalled
    obtain done | ⟨more, room⟩ | ⟨more, full⟩ := hi.inEngine_cases
    · simp [inCopyEnabled, inStopFullEnabled, inDoneEnabled, busy, done]
    · simp [inDoneEnabled_more more, inCopyEnabled, inStopFullEnabled, busy, more, room, room.ne]
    · have policy : s.cfg.inFullPolicy = .stop := by
        cases h : s.cfg.inFullPolicy with
        | stop => rfl
        | stall => exact absurd ⟨h, more, full⟩ notStalled
      simp [inDoneEnabled_more more, inCopyEnabled, inStopFullEnabled, busy, more, full, policy]
  · intro busy
    obtain ⟨word, room⟩ | ended := hi.outEngine_cases
    · simp [outCopyEnabled, outDoneEnabled, busy, word, room, room.ne, List.length_pos_iff.mp word]
    · obtain empty | filled := ended
      · simp [outCopyEnabled, outDoneEnabled, busy, empty]
      · simp [outCopyEnabled, outDoneEnabled, busy, filled]
  · intro idle
    simp [inEngineEnabled, inCopyEnabled, inStopFullEnabled, inDoneEnabled, idle]
  · intro idle
    simp [outEngineEnabled, outCopyEnabled, outDoneEnabled, idle]

/-- IN_DONE (R113). -/
theorem inEngineTurn_done {s : State} (busy : s.inBusy = true) (done : s.inCopied = s.inTarget) :
    inEngineTurn s = { s with inBusy := false } := by
  simp [inEngineTurn, inCopyEnabled, inStopFullEnabled, inDoneEnabled, busy, done, inDone]

/-- IN_STOP_FULL (R112). -/
theorem inEngineTurn_stopsFull {s : State} (busy : s.inBusy = true) (more : s.inCopied.toNat < s.inTarget.toNat)
    (full : s.fifoIn.length = s.cfg.fifoInDepth) (policy : s.cfg.inFullPolicy = .stop) :
    inEngineTurn s = { s with inBusy := false } := by
  simp [inEngineTurn, inCopyEnabled, inStopFullEnabled, busy, more, full, policy, inStopFull]

/-- A full FIFO stalls the engine under the `stall` policy (R112). -/
theorem inEngineEnabled_stalled {s : State} (more : s.inCopied.toNat < s.inTarget.toNat)
    (full : s.fifoIn.length = s.cfg.fifoInDepth) (policy : s.cfg.inFullPolicy = .stall) :
    inEngineEnabled s = false := by
  simp [inEngineEnabled, inDoneEnabled_more more, inCopyEnabled, inStopFullEnabled, full, policy]

/-- The IN engine's turn does nothing while no step is enabled (log 9). -/
theorem inEngineTurn_disabled {s : State} (h : inEngineEnabled s = false) : inEngineTurn s = s := by
  simp only [inEngineEnabled, Bool.or_eq_false_iff] at h
  obtain ⟨⟨noCopy, noStop⟩, noDone⟩ := h
  simp [inEngineTurn, noCopy, noStop, noDone]

/-- OUT_DONE (R115). -/
theorem outEngineTurn_done {s : State} (busy : s.outBusy = true)
    (ended : s.fifoOut = [] ∨ s.outCopied.toNat = s.cfg.bufOutWords) :
    outEngineTurn s = { s with outBusy := false } := by
  obtain empty | filled := ended
  · simp [outEngineTurn, outCopyEnabled, outDoneEnabled, busy, empty, outDone]
  · simp [outEngineTurn, outCopyEnabled, outDoneEnabled, busy, filled, outDone]

/-- Settles O33: the two steps that end a transfer, and the engine that has none. -/
theorem inEngineStops : Obligations.InEngineStops := by
  intro s busy
  constructor
  · rintro (done | ⟨more, full, policy⟩)
    · exact congrArg _ (inEngineTurn_done busy done)
    · exact congrArg _ (inEngineTurn_stopsFull busy more full policy)
  · intro more full policy
    have disabled := inEngineEnabled_stalled more full policy
    exact ⟨disabled, congrArg _ (inEngineTurn_disabled disabled)⟩

/-! ### One word copied (R111, R114) -/

/-- IN_COPY as one update of the state. -/
theorem inCopy_eq (s : State) :
    inCopy s = { s with
      fifoIn := s.fifoIn ++ [bufInValue 4 (4 * s.inCopied.toNat) s]
      inCopied := s.inCopied + 1
      draws := s.draws + 1 } := rfl

/-- OUT_COPY as one update of the state. -/
theorem outCopy_eq {s : State} {w : Word} {ws : List Word} (hf : s.fifoOut = w :: ws) :
    outCopy s = { s with
      fifoOut := ws
      bufOut := Memory.store s.bufOut s.cfg.byteOrder (4 * s.outCopied.toNat) 4 w
      outCopied := s.outCopied + 1 } := by
  simp [outCopy, storeBufOut, dropOut, hf]

/-- Settles O32: the word pushed is the value of the window word, which shows its bytes. -/
theorem inCopyPushesWindowWord : Obligations.InCopyPushesWindowWord := by
  intro s _ busy more room
  have copies : agentTurn .inEngine s = .next (inCopy s) := congrArg _ (inEngineTurn_copies busy more room)
  rw [inCopy_eq] at copies
  exact ⟨_, _, copies, rfl, fun little _ _ hk hb => Memory.extract_value_little little (le_refl 4) hk hb,
    count_succ more s.inTarget.isLt, busy, rfl, rfl, ⟨rfl, rfl⟩, rfl, fun _ => ⟨rfl, rfl⟩, ⟨rfl, rfl⟩, fun _ => rfl,
    fun _ => rfl, rfl, rfl, rfl, rfl, rfl, rfl⟩

/-- Settles O35: the copy is a store of the head's four bytes; the end clears the busy bit. (The obligation's plain
name is the model's own function.) -/
theorem outEngineTurn_copies_or_stops : Obligations.OutEngineTurn := by
  intro s hi busy
  refine ⟨?_, fun ended => congrArg _ (outEngineTurn_done busy ended)⟩
  intro w rest hf room
  have copies : agentTurn .outEngine s = .next (outCopy s) :=
    congrArg _ (outEngineTurn_copies busy (by simp [hf]) room)
  rw [outCopy_eq hf] at copies
  exact ⟨_, copies, rfl, fun little _ hk => Memory.get?_store_little _ little _ _ _ hk,
    fun _ outside => Memory.get?_store_outside _ _ _ outside,
    count_succ room (cfgOk_sizes hi.cfg_ok).bufOut_lt, busy, rfl, ⟨rfl, rfl⟩, rfl, fun _ => ⟨rfl, rfl⟩,
    ⟨rfl, rfl, rfl⟩, fun _ => rfl, rfl, rfl, rfl, rfl, rfl, rfl⟩

/-! ### A whole transfer (R116) -/

/-- The window lists the bytes of the words from word `i` on, in the byte order (20_memory.md R43). -/
def HoldsWords (o : ByteOrder) (m : Memory) (i : Nat) (words : List Word) : Prop :=
  ∀ n w, words[n]? = some w → ∀ k, k < 4 → Memory.get? m (4 * (i + n) + k) = some (byteAt o 4 w k)

theorem holdsWords_cons (o : ByteOrder) (m : Memory) (i : Nat) (w : Word) (ws : List Word) :
    HoldsWords o m i (w :: ws) ↔
      (∀ k, k < 4 → Memory.get? m (4 * i + k) = some (byteAt o 4 w k)) ∧ HoldsWords o m (i + 1) ws := by
  constructor
  · intro h
    refine ⟨h 0 w rfl, fun n x hx => ?_⟩
    rw [show i + 1 + n = i + (n + 1) by omega]
    exact h (n + 1) x hx
  · rintro ⟨first, rest⟩ n x hx
    cases n with
    | zero =>
      cases hx
      exact first
    | succ n =>
      rw [show i + (n + 1) = i + 1 + n by omega]
      exact rest n x hx

/-- A word whose four bytes the window lists is the value read there. -/
theorem Memory.value_of_bytes {m : Memory} {o : ByteOrder} {j : Nat} {w : Word} (free : Word)
    (bytes : ∀ k, k < 4 → Memory.get? m (j + k) = some (byteAt o 4 w k)) : Memory.value m o free j 4 = w := by
  have sameBytes : Memory.getBytes m free j 4 = Memory.getBytes (Memory.store m o j 4 w) free j 4 := by
    refine List.map_congr_left fun k hk => ?_
    have hk : k < 4 := List.mem_range.mp hk
    rw [bytes k hk, Memory.get?_store_byte m o j 4 w hk]
  apply BitVec.eq_of_toNat_eq
  calc (Memory.value m o free j 4).toNat
      = (Memory.value (Memory.store m o j 4 w) o free j 4).toNat := by rw [Memory.value, sameBytes, Memory.value]
    _ = w.toNat % 2 ^ 32 := Memory.value_store_toNat m o free w j (le_refl 4)
    _ = w.toNat := Nat.mod_eq_of_lt w.isLt

theorem runTurns_replicate_succ {a : Agent} (n : Nat) {s t : State} (turn : agentTurn a s = .next t) :
    runTurns (List.replicate (n + 1) a) s = runTurns (List.replicate n a) t := by
  rw [List.replicate_succ, runTurns, turn]

/-- The IN engine's turns until it stops: each pushes the next window word, and the last finds the count full. -/
theorem runTurns_inTransfer {words : List Word} {s : State} (hi : s.Inv) (busy : s.inBusy = true)
    (left : words.length = s.inTarget.toNat - s.inCopied.toNat)
    (room : s.fifoIn.length + words.length ≤ s.cfg.fifoInDepth)
    (held : HoldsWords s.cfg.byteOrder s.bufIn s.inCopied.toNat words) :
    ∃ d, runTurns (List.replicate (words.length + 1) .inEngine) s = .next { s with
      fifoIn := s.fifoIn ++ words, inCopied := s.inTarget, inBusy := false, draws := d } := by
  induction words generalizing s with
  | nil =>
    have le := hi.inCopied_le
    have done : s.inCopied = s.inTarget := BitVec.eq_of_toNat_eq (by rw [List.length_nil] at left; omega)
    have stops : agentTurn .inEngine s = .next { s with inBusy := false } := congrArg _ (inEngineTurn_done busy done)
    rw [List.length_nil, runTurns_replicate_succ 0 stops, List.append_nil, ← done]
    exact ⟨s.draws, rfl⟩
  | cons w ws ih =>
    rw [List.length_cons] at left room
    rw [holdsWords_cons] at held
    obtain ⟨bytes, rest⟩ := held
    have more : s.inCopied.toNat < s.inTarget.toNat := by omega
    have hasRoom : s.fifoIn.length < s.cfg.fifoInDepth := by omega
    have pushed : (inCopy s).fifoIn = s.fifoIn ++ [w] :=
      congrArg (s.fifoIn ++ [·]) (Memory.value_of_bytes s.free bytes)
    have counted : (inCopy s).inCopied.toNat = s.inCopied.toNat + 1 := count_succ more s.inTarget.isLt
    obtain ⟨d, run⟩ := ih (s := inCopy s) (hi.inCopy more hasRoom) busy
      (by rw [counted, inCopy_eq]; simp only; omega)
      (by rw [pushed, List.length_append, List.length_singleton, inCopy_eq]; simp only; omega)
      (counted ▸ rest)
    have copies : agentTurn .inEngine s = .next (inCopy s) := congrArg _ (inEngineTurn_copies busy more hasRoom)
    refine ⟨d, ?_⟩
    rw [List.length_cons, runTurns_replicate_succ _ copies, run, pushed, List.append_assoc,
      List.singleton_append, inCopy_eq]

/-- Settles O37: the state the transfer ends in, component by component. -/
theorem inTransferCopiesWholeWindow : Obligations.InTransferCopiesWholeWindow := by
  intro s words hi busy left room held
  obtain ⟨d, run⟩ := runTurns_inTransfer hi busy left room held
  exact ⟨_, run, rfl, rfl, rfl, rfl, rfl, ⟨rfl, rfl⟩, rfl, fun _ => ⟨rfl, rfl⟩, ⟨rfl, rfl⟩, fun _ => rfl, fun _ => rfl,
    rfl, rfl, rfl, rfl, rfl, rfl⟩

/-- The window after the words were stored one after another from word `i` on. -/
def storeWords (o : ByteOrder) (m : Memory) (i : Nat) : List Word → Memory
  | [] => m
  | w :: ws => storeWords o (Memory.store m o (4 * i) 4 w) (i + 1) ws

/-- The stores leave every byte outside them. -/
theorem get?_storeWords_outside (o : ByteOrder) (m : Memory) (i : Nat) (words : List Word) {a : Nat}
    (outside : a < 4 * i ∨ 4 * (i + words.length) ≤ a) :
    Memory.get? (storeWords o m i words) a = Memory.get? m a := by
  induction words generalizing m i with
  | nil => rfl
  | cons w ws ih =>
    rw [List.length_cons] at outside
    rw [storeWords, ih _ _ (by omega), Memory.get?_store_outside _ _ _ (by omega)]

/-- The window holds the words stored: the later stores lie above the earlier ones. -/
theorem holdsWords_storeWords (o : ByteOrder) (m : Memory) (i : Nat) (words : List Word) :
    HoldsWords o (storeWords o m i words) i words := by
  induction words generalizing m i with
  | nil => nofun
  | cons w ws ih =>
    refine (holdsWords_cons ..).mpr ⟨fun k hk => ?_, ih _ _⟩
    rw [storeWords, get?_storeWords_outside _ _ _ _ (by omega), Memory.get?_store_byte _ _ _ _ _ hk]

/-- The OUT engine's turns until it stops: each stores the head of the FIFO, and the last finds the FIFO empty. -/
theorem runTurns_outTransfer {words : List Word} {s : State} (hi : s.Inv) (busy : s.outBusy = true)
    (hf : s.fifoOut = words) (room : s.outCopied.toNat + words.length ≤ s.cfg.bufOutWords) :
    ∃ c : Count, c.toNat = s.outCopied.toNat + words.length
      ∧ runTurns (List.replicate (words.length + 1) .outEngine) s = .next { s with
          fifoOut := [], outBusy := false, outCopied := c
          bufOut := storeWords s.cfg.byteOrder s.bufOut s.outCopied.toNat words } := by
  induction words generalizing s with
  | nil =>
    have drained : ({ s with outBusy := false } : State) = { s with fifoOut := [], outBusy := false } := by rw [← hf]
    have stops : agentTurn .outEngine s = .next { s with outBusy := false } :=
      congrArg _ (outEngineTurn_done busy (.inl hf))
    rw [List.length_nil, runTurns_replicate_succ 0 stops, drained]
    exact ⟨s.outCopied, rfl, rfl⟩
  | cons w ws ih =>
    rw [List.length_cons] at room
    have hasRoom : s.outCopied.toNat < s.cfg.bufOutWords := by omega
    have copied := outCopy_eq hf
    have counted : (outCopy s).outCopied.toNat = s.outCopied.toNat + 1 :=
      count_succ hasRoom (cfgOk_sizes hi.cfg_ok).bufOut_lt
    obtain ⟨c, total, run⟩ := ih (s := outCopy s) (hi.outCopy hasRoom) busy (by rw [copied])
      (by rw [counted, copied]; simp only; omega)
    refine ⟨c, by rw [total, counted, List.length_cons]; omega, ?_⟩
    have copies : agentTurn .outEngine s = .next (outCopy s) :=
      congrArg _ (outEngineTurn_copies busy (by simp [hf]) hasRoom)
    rw [List.length_cons, runTurns_replicate_succ _ copies, run, counted, copied]
    rfl

/-- Settles O38: the state the transfer ends in, component by component. -/
theorem outTransferDrainsFifo : Obligations.OutTransferDrainsFifo := by
  intro s hi busy room
  obtain ⟨c, total, run⟩ := runTurns_outTransfer hi busy rfl room
  exact ⟨_, run, rfl, rfl, total, holdsWords_storeWords _ _ _ _, fun _ => get?_storeWords_outside _ _ _ _, rfl,
    ⟨rfl, rfl⟩, rfl, fun _ => ⟨rfl, rfl⟩, ⟨rfl, rfl, rfl⟩, fun _ => rfl, rfl, rfl, rfl, rfl, rfl, rfl⟩

/-! ### Termination under fairness (R116, 20_memory.md R51) -/

/-- Words the IN engine has still to copy. -/
def inWordsLeft (s : State) : Nat := s.inTarget.toNat - s.inCopied.toNat

/-- Words of the output window the OUT engine has still to fill. -/
def outWordsLeft (s : State) : Nat := s.cfg.bufOutWords - s.outCopied.toNat

/-- Under the `stop` policy a busy IN engine has a step. -/
theorem inEngineEnabled_busy {s : State} (hi : s.Inv) (policy : s.cfg.inFullPolicy = .stop) (busy : s.inBusy = true) :
    inEngineEnabled s = true := by
  obtain done | ⟨more, room⟩ | ⟨more, full⟩ := hi.inEngine_cases
  · simp [inEngineEnabled, inDoneEnabled, busy, done]
  · simp [inEngineEnabled, inCopyEnabled, busy, more, room]
  · simp [inEngineEnabled, inStopFullEnabled, busy, more, full, policy]

theorem outEngineEnabled_busy {s : State} (hi : s.Inv) (busy : s.outBusy = true) : outEngineEnabled s = true := by
  obtain ⟨word, room⟩ | ended := hi.outEngine_cases
  · simp [outEngineEnabled, outCopyEnabled, busy, word, room]
  · simp [outEngineEnabled, outDoneEnabled, busy, ended]

/-- A turn of the busy IN engine ends its transfer or copies one of the words left. -/
theorem inEngineTurn_progress {s : State} (hi : s.Inv) (policy : s.cfg.inFullPolicy = .stop)
    (busy : s.inBusy = true) : (inEngineTurn s).inBusy = false ∨ inWordsLeft (inEngineTurn s) < inWordsLeft s := by
  obtain done | ⟨more, room⟩ | ⟨more, full⟩ := hi.inEngine_cases
  · exact .inl (by rw [inEngineTurn_done busy done])
  · have counted : (inCopy s).inCopied.toNat = s.inCopied.toNat + 1 := count_succ more s.inTarget.isLt
    rw [inEngineTurn_copies busy more room, inWordsLeft, inWordsLeft, counted]
    exact .inr (Nat.sub_succ_lt_self _ _ more)
  · exact .inl (by rw [inEngineTurn_stopsFull busy more full policy])

/-- A turn of the busy OUT engine ends its transfer or fills one of the words left. -/
theorem outEngineTurn_progress {s : State} (hi : s.Inv) (busy : s.outBusy = true) :
    (outEngineTurn s).outBusy = false ∨ outWordsLeft (outEngineTurn s) < outWordsLeft s := by
  obtain ⟨word, room⟩ | ended := hi.outEngine_cases
  · have counted : (outCopy s).outCopied.toNat = s.outCopied.toNat + 1 :=
      count_succ room (cfgOk_sizes hi.cfg_ok).bufOut_lt
    rw [outEngineTurn_copies busy word room, outWordsLeft, outWordsLeft, counted]
    exact .inr (Nat.sub_succ_lt_self _ _ room)
  · exact .inl (by rw [outEngineTurn_done busy ended])

/-- While the IN engine is busy, no other agent writes its state: a host's turn can only start an idle engine. -/
theorem agentTurn_sameInEngine_of_busy {s t : State} {a : Agent} (hc : cfgOk s.cfg = true) (busy : s.inBusy = true)
    (other : a ≠ .inEngine) (h : agentTurn a s = .next t) : SameInEngine s t := by
  by_cases host : a = .host
  · subst host
    exact (hostTurn_hostMove hc h).inEngine.resolve_right fun st => Bool.false_ne_true (st.was_idle.symm.trans busy)
  · exact agentTurn_sameInEngine host other h

/-- While the OUT engine is busy, no other agent writes its state. -/
theorem agentTurn_sameOutEngine_of_busy {s t : State} {a : Agent} (hc : cfgOk s.cfg = true) (busy : s.outBusy = true)
    (other : a ≠ .outEngine) (h : agentTurn a s = .next t) : SameOutEngine s t := by
  by_cases host : a = .host
  · subst host
    exact (hostTurn_hostMove hc h).outEngine.resolve_right fun st => Bool.false_ne_true (st.was_idle.symm.trans busy)
  · exact (agentTurn_sameOutEngine host other h).2

/-- The invariant and the configuration stay along an execution. -/
theorem IsExecution.inv_cfg {σ : Nat → State} {ag : Nat → Agent} (run : IsExecution σ ag) (hi : (σ 0).Inv)
    (k : Nat) : (σ k).Inv ∧ (σ k).cfg = (σ 0).cfg := by
  induction k with
  | zero => exact ⟨hi, rfl⟩
  | succ k ih =>
    obtain ⟨inv, cfg⟩ := ih
    exact ⟨inv.agentTurn (run k), (agentTurn_cfg_faultKept inv.cfg_ok (run k)).1.trans cfg⟩

/-- Agent `a` ends what `busy` says it does: it takes turns for ever while busy, each leaves less to do or ends it,
and no other agent's turn leaves more to do. -/
theorem exists_idle_of_progress {σ : Nat → State} {ag : Nat → Agent} {a : Agent} {busy : State → Bool}
    {left : State → Nat} (fair : (∀ k, busy (σ k) = true) → ∀ k, ∃ j, k ≤ j ∧ ag j = a)
    (own : ∀ k, busy (σ k) = true → ag k = a → busy (σ (k + 1)) = false ∨ left (σ (k + 1)) < left (σ k))
    (others : ∀ k, busy (σ k) = true → ag k ≠ a → left (σ (k + 1)) = left (σ k)) :
    ∃ k, busy (σ k) = false := by
  by_contra never
  have always (k : Nat) : busy (σ k) = true := by
    rw [← Bool.not_eq_false]
    exact fun idle => never ⟨k, idle⟩
  have less (k : Nat) (hk : ag k = a) : left (σ (k + 1)) < left (σ k) :=
    (own k (always k) hk).resolve_left (by simp [always])
  have antitone : Antitone (left ∘ σ) := antitone_nat_of_succ_le fun k => by
    by_cases hk : ag k = a
    · exact (less k hk).le
    · exact (others k (always k) hk).le
  have descent (n k : Nat) : left (σ k) ≠ n := by
    induction n using Nat.strong_induction_on generalizing k with
    | _ n ih =>
      rintro rfl
      obtain ⟨j, kj, hj⟩ := fair always k
      exact ih _ ((less j hj).trans_le (antitone kj)) (j + 1) rfl
  exact descent _ 0 rfl

/-- Settles O39: a busy engine stays enabled, so fairness gives it turns, and each leaves fewer words to copy. -/
theorem fairEnginesStop : Obligations.FairEnginesStop := by
  intro σ ag run ⟨fairIn, fairOut⟩ hi
  have inv (k : Nat) : (σ k).Inv := (run.inv_cfg hi k).1
  have cfg (k : Nat) : (σ k).cfg = (σ 0).cfg := (run.inv_cfg hi k).2
  constructor
  · intro stop
    have policy (k : Nat) : (σ k).cfg.inFullPolicy = .stop := cfg k ▸ stop
    refine exists_idle_of_progress (left := inWordsLeft)
      (fun always k => fairIn k fun j _ => inEngineEnabled_busy (inv j) (policy j) (always j)) ?_ ?_
    · intro k busy own
      have turn : inEngineTurn (σ k) = σ (k + 1) := Host.Outcome.next.inj (own ▸ run k)
      exact turn ▸ inEngineTurn_progress (inv k) (policy k) busy
    · intro k busy other
      obtain ⟨-, target, copied⟩ := agentTurn_sameInEngine_of_busy (inv k).cfg_ok busy other (run k)
      rw [inWordsLeft, inWordsLeft, target, copied]
  · refine exists_idle_of_progress (left := outWordsLeft)
      (fun always k => fairOut k fun j _ => outEngineEnabled_busy (inv j) (always j)) ?_ ?_
    · intro k busy own
      have turn : outEngineTurn (σ k) = σ (k + 1) := Host.Outcome.next.inj (own ▸ run k)
      exact turn ▸ outEngineTurn_progress (inv k) busy
    · intro k busy other
      obtain ⟨-, copied⟩ := agentTurn_sameOutEngine_of_busy (inv k).cfg_ok busy other (run k)
      rw [outWordsLeft, outWordsLeft, cfg (k + 1), cfg k, copied]

end Sys2Proof.Machine
end

section
/-! PROOFS. The statements of 42_status_control_mux.md: the flag decode (R132), the control operations (R136 to
R146), and the words of the spec as the decoder reads them. -/

namespace Sys2Proof.Machine

/-! ### Words of the spec -/

/-- Settles O3: each word is closed, so the decoder runs on it. -/
theorem specWordsDecode : Obligations.SpecWordsDecode := by
  unfold Obligations.SpecWordsDecode
  decide

/-! ### The user registers by index (R136, R137) -/

/-- An index outside 0 to 5, read as a signed integer, is refused (43_offset_validation.md R156). -/
theorem userIndexValid_outside {index : Word} (outside : index.toInt < 0 ∨ 5 < index.toInt) :
    userIndexValid index = false := by
  simp only [userIndexValid, Bool.and_eq_false_iff, decide_eq_false_iff_not]
  omega

/-- An error handed to the host changes nothing of the block (60_exceptions.md R185). -/
theorem raise_frame (k : ErrorKind) (s : State) : SameBlock s (s.raise k) ∧ SameInputs s (s.raise k) :=
  sameBlock_answer s s.draws (.error k)

/-- Settles O24: the write of the register at its offset, or the refusal of the index. -/
theorem setUserRegStores : Obligations.SetUserRegStores := by
  refine ⟨decodeCtl_ctlWord 0x00, ?_, ?_⟩
  · intro s index v outside
    exact ⟨_, exec_setUserReg_refused (userIndexValid_outside outside) v s, rfl, raise_frame .accessDenied s⟩
  · intro s k v hc
    obtain ⟨written, stored⟩ := writeUser_stores k v s
    exact ⟨_, exec_setUserReg hc k v, rfl, stored, written, fun m hm => writeUser_others v s hm, ⟨rfl, rfl⟩, rfl,
      ⟨rfl, rfl⟩, ⟨rfl, rfl, rfl⟩, ⟨rfl, rfl⟩, fun _ => rfl, fun _ => rfl, rfl, rfl, rfl, rfl, rfl, rfl⟩

/-- Settles O25: the read of the register at its offset, or the refusal of the index. -/
theorem getUserRegReads : Obligations.GetUserRegReads := by
  refine ⟨decodeCtl_ctlWord 0x01, ?_, ?_⟩
  · intro s index outside
    exact ⟨_, exec_getUserReg_refused (userIndexValid_outside outside) s, rfl, raise_frame .accessDenied s⟩
  · intro s k hc
    exact ⟨_, _, exec_getUserReg hc k, rfl, userValue_written,
      sameBlock_answer s (s.draws + 1) (.value (userValue k s))⟩

/-! ### The flag queries (R132, R138 to R140, R142 to R144) -/

/-- Settles O29: the decode is the bit itself. -/
theorem flagDecodeReadsOneBit : Obligations.FlagDecodeReadsOneBit := by
  intro c f raw
  rw [flagOf_eq_bit]
  cases raw.getLsbD (flagBit c f) with
  | false => decide
  | true => decide

/-- A flag query hands over its bit of STATUS (R134). -/
theorem getFlag_eq {s : State} (hc : cfgOk s.cfg = true) (f : FlagSel) :
    getFlag f s = .next (s.respond (.value ((flagOf s.cfg f (statusWord s)).setWidth 32))) := by
  rw [getFlag, memRead_status hc]
  rfl

/-- A flag query answers 1 while what its flag stands for holds, and 0 otherwise. -/
theorem getFlag_answers {s : State} (hc : cfgOk s.cfg = true) {f : FlagSel} {P : Prop}
    (flag : (statusWord s).getLsbD (flagBit s.cfg f) = true ↔ P) :
    ∃ t v, getFlag f s = .next t ∧ t.hostResp = .value v ∧ (P → v = 1) ∧ (¬ P → v = 0) ∧ SameBlock s t
      ∧ SameInputs s t := by
  obtain ⟨one, zero⟩ := flagDecodeReadsOneBit s.cfg f (statusWord s)
  refine ⟨_, _, getFlag_eq hc f, rfl, fun h => ?_, fun h => ?_, sameBlock_answer s s.draws _⟩
  · rw [one.mpr (flag.mpr h)]
    rfl
  · rw [zero.mpr (Bool.eq_false_iff.mpr (mt flag.mp h))]
    rfl

/-- Settles O26: each flag of STATUS stands for its condition (10_state.md R15). -/
theorem flagQueriesReturnFlags : Obligations.FlagQueriesReturnFlags := by
  constructor
  · intro index v
    exact ⟨decodeCtl_ctlWord 0x02 index v, decodeCtl_ctlWord 0x03 index v, decodeCtl_ctlWord 0x04 index v,
      decodeCtl_ctlWord 0x06 index v, decodeCtl_ctlWord 0x07 index v, decodeCtl_ctlWord 0x08 index v⟩
  · intro s hc
    refine ⟨getFlag_answers hc (f := .inEmpty) ?_, getFlag_answers hc (f := .inFull) ?_,
      getFlag_answers hc (f := .inCopying) ?_, getFlag_answers hc (f := .outEmpty) ?_,
      getFlag_answers hc (f := .outFull) ?_, getFlag_answers hc (f := .outCopying) ?_⟩ <;>
      simp [flag_of_statusWord hc, inEmpty, inFull, outEmpty, outFull]

/-! ### The amount queries (R141, R145) -/

/-- An amount query hands over its count of XFER_STATUS (R134). -/
theorem getCount_eq {s : State} (hc : cfgOk s.cfg = true) (k : CountSel) :
    getCount k s = .next (s.respond (.value (countOf s.cfg k (xferWord s)))) := by
  rw [getCount, memRead_xfer hc]
  rfl

/-- Settles O27: under the invariant each count comes back whole from its field. -/
theorem amountQueriesReturnCounts : Obligations.AmountQueriesReturnCounts := by
  refine ⟨fun index v => ⟨decodeCtl_ctlWord 0x05 index v, decodeCtl_ctlWord 0x09 index v⟩, fun s hi => ⟨?_, ?_⟩⟩
  · exact ⟨_, getCount_eq hi.cfg_ok .inCopied, congrArg HostResp.value (countOf_inCopied hi),
      sameBlock_answer s s.draws _⟩
  · exact ⟨_, getCount_eq hi.cfg_ok .outCopied, congrArg HostResp.value (countOf_outCopied hi),
      sameBlock_answer s s.draws _⟩

/-! ### Unknown operations (R146) -/

/-- Settles O28: past the last operation the decoder leaves only CTL_UNKNOWN, which raises the error. -/
theorem unknownControlIsInvalidArgument : Obligations.UnknownControlIsInvalidArgument := by
  intro s w past
  have unknown : decodeCtl w = .ctlUnknown (w.extractLsb' 64 8) := ctlFields_unknown past _ _
  rw [unknown]
  exact ⟨rfl, _, rfl, rfl, raise_frame .invalidArgument s⟩

end Sys2Proof.Machine
end

section
/-! PROOFS. The statements of 43_offset_validation.md: what `Validate` accepts (R150 to R155), bringing the block up
(R151, R155; 60_exceptions.md R191), and the user-register index (R156). -/

namespace Sys2Proof.Machine

/-! ### Validate (R150 to R155) -/

/-- One check of `Validate` ahead of the rest: the answer is Ok exactly when the check does not fail and the rest
answers Ok. -/
theorem guard_eq_none_iff {fails : Prop} [Decidable fails] {k : ErrorKind} {rest : Option ErrorKind} :
    (if fails then some k else rest) = none ↔ ¬ fails ∧ rest = none := by
  by_cases h : fails <;> simp [h]

/-- On supplied values `Validate` is the conjunction of its checks, on natural numbers (R150, R152 to R155). -/
theorem validate_some_eq_none_iff (p : Params) (l i o : Nat) :
    validate p (some l) (some i) (some o) = none ↔
      l ≤ 2 ^ 24 ∧ p.minRegSpace ≤ l ∧ i % 4 = 0 ∧ o % 4 = 0
        ∧ p.minRegSpace ≤ i ∧ i + 4 * p.bufInWords ≤ l ∧ p.minRegSpace ≤ o ∧ o + 4 * p.bufOutWords ≤ l
        ∧ (i + 4 * p.bufInWords ≤ o ∨ o + 4 * p.bufOutWords ≤ i) := by
  simp only [validate, guard_eq_none_iff, Nat.not_lt, Bool.not_eq_false, and_true]
  simp only [lenOk, alignOk, rangeOk, disjointOk, Bool.and_eq_true, Bool.or_eq_true, decide_eq_true_eq, and_assoc]

/-- An accepted length and accepted offsets were supplied (R151). -/
theorem validate_supplied {p : Params} {len bi bo : Option Nat} (ok : validate p len bi bo = none) :
    ∃ l i o, len = some l ∧ bi = some i ∧ bo = some o := by
  match len, bi, bo, ok with
  | some l, some i, some o, _ => exact ⟨l, i, o, rfl, rfl, rfl⟩

/-- Every failure of `Validate` is `DeviceNotReady` (R155). -/
theorem validate_failure {p : Params} {len bi bo : Option Nat} {k : ErrorKind} (h : validate p len bi bo = some k) :
    k = .deviceNotReady := by
  unfold validate at h
  split at h
  case h_1 => split_ifs at h <;> exact (Option.some.inj h).symm
  case h_2 => exact (Option.some.inj h).symm

/-- Settles O56: the checks one by one on supplied values, and the one kind of failure. -/
theorem validateAcceptsExactly : Obligations.ValidateAcceptsExactly := by
  intro p len bi bo
  refine ⟨⟨fun ok => ?_, ?_⟩, ?_⟩
  · obtain ⟨l, i, o, rfl, rfl, rfl⟩ := validate_supplied ok
    exact ⟨l, i, o, rfl, rfl, rfl, (validate_some_eq_none_iff p l i o).mp ok⟩
  · rintro ⟨l, i, o, rfl, rfl, rfl, checks⟩
    exact (validate_some_eq_none_iff p l i o).mpr checks
  · cases h : validate p len bi bo with
    | none => exact .inl rfl
    | some k => exact .inr (congrArg some (validate_failure h))

/-! ### Bringing the block up (R151, R155) -/

/-- With the base supplied and the rest accepted, the block comes up in its reset state. -/
theorem bringUp_accepted {p : Params} (base : Nat) {l i o : Nat} (ok : validate p (some l) (some i) (some o) = none) :
    bringUp p ⟨some base, some l, some i, some o⟩ = .ok (State.resetWith { p with dev := ⟨base, l, i, o⟩ }) := by
  simp only [bringUp, ok]

/-- A missing value or a refusal of `Validate` leaves no state (60_exceptions.md R191). -/
theorem bringUp_refused {p : Params} {plat : Platform}
    (h : plat.registerBase = none ∨ validate p plat.regionLength plat.bufInOffset plat.bufOutOffset ≠ none) :
    bringUp p plat = .error .deviceNotReady := by
  cases hv : validate p plat.regionLength plat.bufInOffset plat.bufOutOffset with
  | some k => simp only [bringUp, hv, validate_failure hv]
  | none =>
    have noBase : plat.registerBase = none := h.resolve_right (absurd hv)
    simp only [bringUp, hv, noBase]

/-- What a block that came up was given, and its state. -/
theorem bringUp_ok {p : Params} {plat : Platform} {s : State} (up : bringUp p plat = .ok s) :
    ∃ base l i o, validate p (some l) (some i) (some o) = none
      ∧ s = State.resetWith { p with dev := ⟨base, l, i, o⟩ } := by
  by_cases h : plat.registerBase = none ∨ validate p plat.regionLength plat.bufInOffset plat.bufOutOffset ≠ none
  · rw [bringUp_refused h] at up
    cases up
  · obtain ⟨supplied, ok⟩ := not_or.mp h
    obtain ⟨base, len, bi, bo⟩ := plat
    obtain ⟨base, rfl⟩ := Option.ne_none_iff_exists'.mp supplied
    have ok := not_not.mp ok
    obtain ⟨l, i, o, rfl, rfl, rfl⟩ := validate_supplied ok
    rw [bringUp_accepted base ok] at up
    exact ⟨base, l, i, o, ok, (Except.ok.inj up).symm⟩

/-- Settles O57: the two answers of bring-up, the reset state it gives, and the first test of a step. -/
theorem bringUpOrDeviceNotReady : Obligations.BringUpOrDeviceNotReady := by
  refine ⟨fun p base l i o => bringUp_accepted base, fun p plat => bringUp_refused, ?_, ?_, fun s notUp => if_pos notUp⟩
  · intro p plat missing
    refine bringUp_refused (.inr fun ok => ?_)
    obtain ⟨l, i, o, hl, hi, ho⟩ := validate_supplied ok
    simp [hl, hi, ho] at missing
  · intro p plat s params up
    obtain ⟨base, l, i, o, ok, rfl⟩ := bringUp_ok up
    have hc : cfgOk { p with dev := ⟨base, l, i, o⟩ } = true := by simp [cfgOk, params, ok]
    exact ⟨hc, resetMeetsInvariant _ hc⟩

/-! ### The user-register index (R156) -/

/-- The check as an unsigned number: a negative index lies far above 5. -/
theorem userIndexValid_iff_toNat (index : Word) : userIndexValid index = true ↔ index.toNat ≤ 5 := by
  constructor
  · intro valid
    obtain ⟨k, hk⟩ := userIndexValid_fin valid
    omega
  · intro le
    simpa using userIndexValid_ofNat ⟨index.toNat, by omega⟩

/-- Settles O58: a valid index is that of a register, whose access answers a value; any other is refused. -/
theorem indexCheckSignedOrUnsigned : Obligations.IndexCheckSignedOrUnsigned := by
  intro index
  refine ⟨by simp [userIndexValid], userIndexValid_iff_toNat index, fun s v hc i hi => ?_⟩
  rw [List.mem_pair] at hi
  obtain ⟨k, rfl⟩ | refused := userIndex_cases index
  · rw [userIndexValid_ofNat k]
    obtain rfl | rfl := hi
    · exact ⟨_, exec_setUserReg hc k v, by simp [State.respond], nofun⟩
    · exact ⟨_, exec_getUserReg hc k, by simp [State.respond], nofun⟩
  · have run : exec i s = .next (s.raise .accessDenied) := by
      obtain rfl | rfl := hi
      · exact exec_setUserReg_refused refused v s
      · exact exec_getUserReg_refused refused s
    exact ⟨_, run, iff_of_true rfl refused, fun _ => raise_frame .accessDenied s⟩

end Sys2Proof.Machine
end

section
/-! PROOFS. The statements of 44_host_procedures.md: the arithmetic of the lengths (R173), what each access of a
procedure does and where the procedure goes (R165 to R172), and the host that keeps the sequencing (R174). -/

namespace Sys2Proof.Machine

/-! ### Lengths (R173) -/

theorem roundUp4_bounds (len : Nat) : roundUp4 len % 4 = 0 ∧ len ≤ roundUp4 len ∧ roundUp4 len < len + 4 := by
  unfold roundUp4
  omega

/-- A window of whole words holds a payload exactly when it holds the padded one. -/
theorem roundUp4_le_iff (len words : Nat) : roundUp4 len ≤ 4 * words ↔ len ≤ 4 * words := by
  have := roundUp4_bounds len
  omega

/-- The mask of DATA_AMOUNT keeps a word count that fits the window. -/
theorem amountOf_toNat {c : Cfg} {len : Nat} (hc : cfgOk c = true) (fits : roundUp4 len ≤ 4 * c.bufInWords) :
    (amountOf c len).toNat = roundUp4 len / 4 := by
  have sizes := cfgOk_sizes hc
  have max := sizes.bufIn_max
  have lt := sizes.bufIn_lt
  have pos : 0 < 2 ^ c.amountW := Nat.two_pow_pos _
  rw [amountOf, Nat.mod_eq_of_lt (by omega), BitVec.toNat_ofNat, Nat.mod_eq_of_lt (by omega)]

/-- Settles O59: the rounding is linear arithmetic, and a count that fits the window is below the mask. -/
theorem roundUpAndMask : Obligations.RoundUpAndMask :=
  fun _ len hc => ⟨roundUp4_bounds len, amountOf_toNat hc⟩

/-! ### The host's turn and its procedure (log 16) -/

theorem hostTurn_runPhase {s : State} {r : ProcRun} (hp : s.proc = some r) :
    hostTurn s = runPhase r.proc r.phase s := by
  rw [hostTurn, hp]

theorem hostTurn_startProc {s : State} {p : Proc} {rest : List HostCmd} (hp : s.proc = none)
    (port : s.hostPort = .proc p :: rest) : hostTurn s = startProc p { s with hostPort := rest } := by
  simp only [hostTurn, hp, port]

theorem hostTurn_control {s : State} {w : BitVec 72} {rest : List HostCmd} (hp : s.proc = none)
    (port : s.hostPort = .ctl w :: rest) : hostTurn s = exec (decodeCtl w) { s with hostPort := rest } := by
  simp only [hostTurn, hp, port]

theorem step_runPhase {s : State} {ts : List Agent} {r : ProcRun} (hc : cfgOk s.cfg = true)
    (ht : s.turns = .host :: ts) (hp : s.proc = some r) : step s = runPhase r.proc r.phase { s with turns := ts } :=
  (step_of_turn hc ht).trans (hostTurn_runPhase hp)

theorem startProc_go {s : State} {p : Proc} {ph : Phase} (start : procStart s.cfg p = .go ph) :
    startProc p s = runPhase p ph s := by
  rw [startProc, start]

theorem startProc_done {s : State} {p : Proc} {r : HostResp} (start : procStart s.cfg p = .done r) :
    startProc p s = .next (s.respond r) := by
  rw [startProc, start]

/-- A procedure that ends at its start makes no access (60_exceptions.md R201(d)). -/
theorem step_refused {s : State} {ts : List Agent} {rest : List HostCmd} {p : Proc} {r : HostResp}
    (hc : cfgOk s.cfg = true) (hp : s.proc = none) (ht : s.turns = .host :: ts) (port : s.hostPort = .proc p :: rest)
    (start : procStart s.cfg p = .done r) :
    step s = .next (State.respond r { s with turns := ts, hostPort := rest }) :=
  calc step s = hostTurn { s with turns := ts } := step_of_turn hc ht
    _ = startProc p { s with turns := ts, hostPort := rest } := hostTurn_startProc hp port
    _ = _ := startProc_done start

theorem procStart_write_tooLong {c : Cfg} {payload : List Byte} (long : 4 * c.bufInWords < payload.length)
    (ev : HostEvents) : procStart c (.writeToDevice payload ev) = .done (.error .invalidArgument) :=
  if_pos (long.trans_le (roundUp4_bounds payload.length).2.1)

theorem procStart_write_allocFails {c : Cfg} {payload : List Byte} {ev : HostEvents}
    (short : payload.length ≤ 4 * c.bufInWords) (alloc : ev.allocFails = true) :
    procStart c (.writeToDevice payload ev) = .done (.error .resourceExhausted) := by
  have fits := (roundUp4_le_iff payload.length c.bufInWords).mpr short
  simp [procStart, fits.not_gt, alloc]

theorem procStart_write_copyFails {c : Cfg} {payload : List Byte} {ev : HostEvents}
    (short : payload.length ≤ 4 * c.bufInWords) (alloc : ev.allocFails = false) (copy : ev.copyFails = true) :
    procStart c (.writeToDevice payload ev) = .done (.error .boundaryFault) := by
  have fits := (roundUp4_le_iff payload.length c.bufInWords).mpr short
  simp [procStart, fits.not_gt, alloc, copy]

/-- Settles O42: each test of the start ends the procedure with its error. -/
theorem writeRefusalsTouchNothing : Obligations.WriteRefusalsTouchNothing := by
  intro s ts rest payload ev hc hp ht port tooLong refused
  by_cases long : tooLong
  · exact ⟨_, step_refused hc hp ht port (procStart_write_tooLong long ev), SameBlock_refl s, hp, rfl, fun _ => rfl,
      fun short => absurd long short, fun short => absurd long short⟩
  · have short := Nat.le_of_not_lt long
    cases alloc : ev.allocFails with
    | true =>
      exact ⟨_, step_refused hc hp ht port (procStart_write_allocFails short alloc), SameBlock_refl s, hp, rfl,
        fun h => absurd h long, fun _ _ => rfl, nofun⟩
    | false =>
      have copy : ev.copyFails = true := by simpa [long, alloc] using refused
      exact ⟨_, step_refused hc hp ht port (procStart_write_copyFails short alloc copy), SameBlock_refl s, hp, rfl,
        fun h => absurd h long, nofun, fun _ _ => rfl⟩

/-! ### The accesses of WRITE_TO_DEVICE (R169) -/

/-- An access is the command its word decodes to, and the procedure goes on with what it returned. -/
theorem runPhase_of_exec {s u : State} {p : Proc} {ph : Phase} {i : Instr} {st : ProcStep}
    (decoded : decodeBus s.cfg (procAccess s.cfg p ph) = i) (run : exec i s = .next u)
    (next : procNext u.cfg p ph (readValue u) = st) : runPhase p ph s = .next (advance p st u) := by
  simp only [runPhase, decoded, run, next]

/-- The store of a staged byte. -/
theorem runPhase_stage {s : State} {j : Nat} (hc : cfgOk s.cfg = true) (p : Proc) (hj : j < 4 * s.cfg.bufInWords) :
    runPhase p (.stage j) s
      = .next (advance p (.go (if j + 1 < p.paddedLen then .stage (j + 1) else .setAmount))
          ((writeBufIn 1 j ((stagedByte p.payload j).setWidth 32) s).respond .done)) :=
  runPhase_of_exec (decodeBus_wrBufIn hc .byte j _ (Nat.mod_one j) hj) (exec_wrBufIn ..) (apply_ite ProcStep.go ..).symm

/-- The write of the word count. -/
theorem runPhase_setAmount {s : State} (hc : cfgOk s.cfg = true) (p : Proc) :
    runPhase p .setAmount s
      = .next (advance p (.go (.trigRead .toFifo))
          ((writeAmount (amountOf s.cfg p.payload.length) s).respond .done)) :=
  runPhase_of_exec (decodeBus_wrAmount hc _) (exec_wrDataAmount ..) rfl

/-- A one-byte access has its byte at its index, in either order. -/
theorem byteAt_one (o : ByteOrder) (b : Byte) : byteAt o 1 (b.setWidth 32) 0 = b := by
  have low : BitVec.extractLsb' 0 8 (b.setWidth 32) = b := by
    rw [← BitVec.setWidth_eq_extractLsb' (by decide), BitVec.setWidth_setWidth_of_le _ (by decide),
      BitVec.setWidth_eq]
  cases o with
  | little => exact low
  | big => exact low

/-- Settles O43: the access stores the staged byte at its index and nothing beside it. -/
theorem stagingWritesPaddedPayload : Obligations.StagingWritesPaddedPayload := by
  intro s ts payload ev j hc ht hp hj fits
  have run := (step_runPhase hc ht hp).trans
    (runPhase_stage (s := { s with turns := ts }) hc (.writeToDevice payload ev) (hj.trans_le fits))
  have stored : Memory.get? (Memory.store s.bufIn s.cfg.byteOrder j 1 ((stagedByte payload j).setWidth 32)) j
      = some (stagedByte payload j) :=
    (Memory.get?_store_byte s.bufIn s.cfg.byteOrder j 1 _ Nat.one_pos).trans (congrArg some (byteAt_one ..))
  refine ⟨_, run, ?_⟩
  simp only [advance_bufIn, State.respond_bufIn, writeBufIn_bufIn]
  refine ⟨fun h => ?_, fun h => ?_, fun a ha => ?_, rfl⟩
  · exact stored.trans (congrArg some (List.getD_eq_getElem payload 0 h))
  · exact stored.trans (congrArg some (List.getD_eq_default payload 0 h))
  · exact Memory.get?_store_outside _ _ _ (by omega)

/-! ### TRIG.IN and TRIG.OUT (R165, R166) -/

/-- The stored bit of an action, cleared. -/
def clearBit (a : Action) (s : State) : State :=
  match a with
  | .toFifo => { s with ctrlTo := false }
  | .fromFifo => { s with ctrlFrom := false }

/-- The engine of an action, started, with its stored bit set. -/
def startEngine (a : Action) (s : State) : State :=
  match a with
  | .toFifo => { s with ctrlTo := true, inBusy := true, inTarget := s.amount, inCopied := 0 }
  | .fromFifo => { s with ctrlFrom := true, outBusy := true, outCopied := 0 }

/-- The engine of an action copies. -/
def actionBusy (a : Action) (s : State) : Bool :=
  match a with
  | .toFifo => s.inBusy
  | .fromFifo => s.outBusy

/-- The clearing write with the word just read: the bit of the action alone changes, and no engine starts. -/
theorem runPhase_trigClear_read {s : State} (hc : cfgOk s.cfg = true) (p : Proc) (a : Action) :
    runPhase p (.trigClear a (ctrlWord s)) s
      = .next (advance p (.go (.trigSet a (ctrlWord s))) ((clearBit a s).respond .done)) := by
  have clears : writeCtrl (clearVal s.cfg a (ctrlWord s)) s = clearBit a s := by
    cases a with
    | toFifo => exact writeCtrl_clear_toFifo hc
    | fromFifo => exact writeCtrl_clear_fromFifo hc
  rw [runPhase_trigClear hc, clears]

/-- The bit of the action is stored as 0 and the other one as the word read shows it. -/
def ReadyToSet (a : Action) (w : Word) (s : State) : Prop :=
  match a with
  | .toFifo => s.ctrlTo = false ∧ s.ctrlFrom = w.getLsbD s.cfg.ctrlFromBit
  | .fromFifo => s.ctrlFrom = false ∧ s.ctrlTo = w.getLsbD s.cfg.ctrlToBit

theorem clearBit_readyToSet {s : State} (hc : cfgOk s.cfg = true) (a : Action) :
    ReadyToSet a (ctrlWord s) (clearBit a s) := by
  obtain ⟨toBit, fromBit⟩ := ctrlWord_bits hc
  cases a with
  | toFifo => exact ⟨rfl, fromBit.symm⟩
  | fromFifo => exact ⟨rfl, toBit.symm⟩

/-- The setting write starts the idle engine. -/
theorem runPhase_trigSet_idle {s : State} (hc : cfgOk s.cfg = true) (p : Proc) {a : Action} {w : Word}
    (idle : actionBusy a s = false) (amount : AmountReady s a) (bits : ReadyToSet a w s) :
    runPhase p (.trigSet a w) s = .next (advance p (afterTrigger p a) ((startEngine a s).respond .done)) := by
  have starts : writeCtrl (setVal s.cfg a w) s = startEngine a s := by
    cases a with
    | toFifo =>
      obtain ⟨clear, other⟩ := bits
      exact writeCtrl_set_toFifo hc w clear other idle (amount rfl)
    | fromFifo =>
      obtain ⟨clear, other⟩ := bits
      exact writeCtrl_set_fromFifo hc w clear other idle
  rw [runPhase_trigSet hc, starts]

/-- The two writes of a trigger whose engine is idle: the bit is cleared, then set, and the engine starts. -/
theorem runTurns_clearAndSet {s : State} {p : Proc} {a : Action} (hc : cfgOk s.cfg = true)
    (hp : s.proc = some ⟨p, .trigClear a (ctrlWord s)⟩) (idle : actionBusy a s = false) (amount : AmountReady s a) :
    ∃ pr, runTurns [.host, .host] s
      = .next (advance p (afterTrigger p a) ((startEngine a { s with proc := pr }).respond .done)) := by
  have clears : agentTurn .host s = _ := (hostTurn_runPhase hp).trans (runPhase_trigClear_read hc p a)
  have bits := clearBit_readyToSet hc a
  refine ⟨some ⟨p, .trigSet a (ctrlWord s)⟩, (runTurns_replicate_succ 1 clears).trans ?_⟩
  have sets := runPhase_trigSet_idle (a := a) (w := ctrlWord s)
    (s := advance p (.go (.trigSet a (ctrlWord s))) ((clearBit a s).respond .done))
  cases a with
  | toFifo => exact runTurns_replicate_succ 0 (sets hc p idle amount bits)
  | fromFifo => exact runTurns_replicate_succ 0 (sets hc p idle amount bits)

/-- The three accesses of a trigger taken from the port. -/
theorem runTurns_trigger {s : State} {p : Proc} {a : Action} {rest : List HostCmd} (hc : cfgOk s.cfg = true)
    (hp : s.proc = none) (port : s.hostPort = .proc p :: rest) (start : procStart s.cfg p = .go (.trigRead a))
    (idle : actionBusy a s = false) (amount : AmountReady s a) :
    ∃ pr, runTurns [.host, .host, .host] s = .next (advance p (afterTrigger p a)
      ((startEngine a { s with hostPort := rest, proc := pr }).respond .done)) := by
  have reads : agentTurn .host s = _ := ((hostTurn_startProc hp port).trans (startProc_go start)).trans
    (runPhase_trigRead (s := { s with hostPort := rest }) hc p a)
  change ∃ pr, runTurns (List.replicate 3 .host) s = _
  rw [runTurns_replicate_succ 2 reads]
  cases a with
  | toFifo => exact runTurns_clearAndSet hc rfl idle amount
  | fromFifo => exact runTurns_clearAndSet hc rfl idle amount

/-- Settles O41: the three accesses end in the started engine, and a trigger ends after them. -/
theorem triggerProceduresStartEngine : Obligations.TriggerProceduresStartEngine := by
  intro s rest hc hp clear
  constructor
  · intro port idle fits
    obtain ⟨pr, run⟩ := runTurns_trigger hc hp port rfl idle (fun _ => fits)
    exact ⟨_, run, rfl, rfl, rfl, rfl, rfl, ⟨rfl, rfl⟩, clear, rfl, rfl⟩
  · intro port idle
    obtain ⟨pr, run⟩ := runTurns_trigger hc hp port rfl idle nofun
    exact ⟨_, run, rfl, rfl, rfl, rfl, ⟨rfl, rfl, rfl⟩, clear, rfl, rfl⟩

/-! ### The poll loop (R167, R168) -/

/-- The flag a procedure polls is that of its engine. -/
theorem flagOf_copyingSel {s : State} (hc : cfgOk s.cfg = true) (a : Action) :
    flagOf s.cfg (copyingSel a) (statusWord s) = BitVec.ofBool (actionBusy a s) := by
  rw [flagOf_eq_bit, flag_of_statusWord hc]
  cases a with
  | toFifo => rfl
  | fromFifo => rfl

/-- The STATUS read of the poll loop. -/
theorem runPhase_poll {s : State} (hc : cfgOk s.cfg = true) (p : Proc) (a : Action) (k : Nat) :
    runPhase p (.poll a k) s
      = .next (advance p (procNext s.cfg p (.poll a k) (statusWord s)) (s.respond (.data 4 (statusWord s)))) :=
  runPhase_of_exec (decodeBus_rdStatus hc) (exec_rdStatus s) rfl

theorem procNext_poll_busy {s : State} (hc : cfgOk s.cfg = true) (p : Proc) {a : Action} (k : Nat)
    (busy : actionBusy a s = true) :
    procNext s.cfg p (.poll a k) (statusWord s)
      = if pollExpired s.cfg (k + 1) then .done (.error .timeout) else .go (.poll a (k + 1)) := by
  simp [procNext, flagOf_copyingSel hc, busy]

theorem procNext_poll_idle {s : State} (hc : cfgOk s.cfg = true) (p : Proc) {a : Action} (k : Nat)
    (idle : actionBusy a s = false) :
    procNext s.cfg p (.poll a k) (statusWord s) = afterPoll p a := by
  simp [procNext, flagOf_copyingSel hc, idle]

theorem pollExpired_unbounded {c : Cfg} (unbounded : c.pollLimit = none) (k : Nat) : ¬ pollExpired c k = true := by
  simp [pollExpired, unbounded]

theorem pollExpired_limit {c : Cfg} {l : Nat} (limit : c.pollLimit = some l) (k : Nat) :
    pollExpired c k = true ↔ l ≤ k := by
  simp [pollExpired, limit]

/-- A procedure's move changes nothing of the block. -/
theorem advance_sameBlockButFault {s u : State} (p : Proc) (st : ProcStep) (h : SameBlockButFault s u) :
    SameBlockButFault s (advance p st u) := by
  cases st with
  | go ph => exact h
  | done r => exact h

theorem advance_sameBlock {s u : State} (p : Proc) (st : ProcStep) (h : SameBlock s u) :
    SameBlock s (advance p st u) :=
  ⟨advance_sameBlockButFault p st h.1, (advance_fault p st u).trans h.2⟩

/-- Settles O44: the flag read is 1, so only the bound can end the loop. -/
theorem pollWaitsForFlag : Obligations.PollWaitsForFlag := by
  intro s ts p a k hc ht hp inBusy outBusy
  have busy : actionBusy a s = true := by
    cases a with
    | toFifo => exact inBusy rfl
    | fromFifo => exact outBusy rfl
  have run := (step_runPhase hc ht hp).trans (runPhase_poll (s := { s with turns := ts }) hc p a k)
  rw [procNext_poll_busy (s := { s with turns := ts }) hc p k busy] at run
  refine ⟨_, run, advance_sameBlock _ _ (SameBlock_refl s), fun unbounded => ?_,
    fun l limit => ⟨fun below => ?_, fun reached => ?_⟩⟩
  · rw [if_neg (pollExpired_unbounded unbounded (k + 1))]
    rfl
  · rw [if_neg (mt (pollExpired_limit limit (k + 1)).mp below.not_ge)]
    rfl
  · rw [if_pos ((pollExpired_limit limit (k + 1)).mpr reached)]
    exact ⟨rfl, rfl⟩

/-! ### The results (R169, R171, R172) -/

/-- The XFER_STATUS read of WRITE_TO_DEVICE returns 4 times the confirmed count. -/
theorem runPhase_readXfer_toFifo {s : State} (hi : s.Inv) (p : Proc) :
    runPhase p (.readXfer .toFifo) s
      = .next (advance p (.done (.count (4 * s.inCopied.toNat))) (s.respond (.data 4 (xferWord s)))) := by
  have count : (countOf s.cfg .inCopied (xferWord s)).toNat = s.inCopied.toNat := by
    rw [countOf_inCopied hi, BitVec.toNat_setWidth_of_le (by decide)]
  exact runPhase_of_exec (decodeBus_rdXfer hi.cfg_ok) (exec_rdXferStatus s)
    (congrArg (fun n => ProcStep.done (.count (4 * n))) count)

theorem afterAvailable_tooMany {p : Proc} {avail : Nat} (h : p.maxLength < avail) :
    afterAvailable p avail = .done (.error .invalidArgument) := if_pos h

theorem afterAvailable_zero (p : Proc) : afterAvailable p 0 = .done (collected p []) := rfl

theorem afterAvailable_covered {p : Proc} {avail : Nat} (pos : 0 < avail) (covered : avail ≤ p.maxLength) :
    afterAvailable p avail = .go (.collect 0 avail []) :=
  (if_neg covered.not_gt).trans (if_neg pos.ne')

theorem collected_copied {ev : HostEvents} (h : ev.copyFails = false) (max : Nat) (bs : List Byte) :
    collected (.readFromDevice max ev) bs = .bytes bs := by
  simp [collected, h]

theorem collected_failed {ev : HostEvents} (h : ev.copyFails = true) (max : Nat) (bs : List Byte) :
    collected (.readFromDevice max ev) bs = .error .boundaryFault := if_pos h

/-- The XFER_STATUS read of READ_FROM_DEVICE, taken as a step. -/
theorem step_readXfer_fromFifo {s : State} {ts : List Agent} {p : Proc} (hi : s.Inv) (ht : s.turns = .host :: ts)
    (hp : s.proc = some ⟨p, .readXfer .fromFifo⟩) :
    step s = .next (advance p (afterAvailable p (4 * s.outCopied.toNat))
      (State.respond (.data 4 (xferWord s)) { s with turns := ts })) :=
  have hi' : State.Inv { s with turns := ts } := { hi with }
  (step_runPhase hi.cfg_ok ht hp).trans (runPhase_readXfer_fromFifo hi' p)

/-- Settles O45: the count from its field, then the four outcomes of the read procedure, and each collected byte. -/
theorem procedureResultsAreConfirmedCounts : Obligations.ProcedureResultsAreConfirmedCounts := by
  intro s ts hi ht
  refine ⟨fun payload ev hp => ?write, fun max ev hp => ?read, fun max ev j avail acc hp hj fits => ?collect⟩
  case write =>
    have hi' : State.Inv { s with turns := ts } := { hi with }
    have run := (step_runPhase hi.cfg_ok ht hp).trans (runPhase_readXfer_toFifo hi' _)
    exact ⟨_, run, rfl, rfl, SameBlock_refl s⟩
  case read =>
    refine ⟨_, step_readXfer_fromFifo hi ht hp, advance_sameBlock _ _ (SameBlock_refl s), ?_, ?_, ?_, ?_⟩
    · intro tooMany
      rw [afterAvailable_tooMany tooMany]
      exact ⟨rfl, rfl⟩
    · intro empty copy
      rw [empty, afterAvailable_zero, collected_copied copy]
      exact ⟨rfl, rfl⟩
    · intro empty copy
      rw [empty, afterAvailable_zero, collected_failed copy]
      exact ⟨rfl, rfl⟩
    · intro nonempty covered
      rw [afterAvailable_covered (by omega) covered]
      rfl
  case collect =>
    have run := (step_runPhase hi.cfg_ok ht hp).trans
      (runPhase_collect (s := { s with turns := ts }) hi.cfg_ok _ j avail acc (Nat.lt_of_lt_of_le hj fits))
    obtain ⟨frame, -⟩ := afterReadBufOut_frame { s with turns := ts }
    obtain ⟨races, quiet⟩ := raceIf_marks s.outBusy { s with turns := ts }
    refine ⟨_, collectedByte { s with turns := ts } j, run, advance_sameBlockButFault _ _ frame,
      fun _ => collectedByte_listed (s := { s with turns := ts }), fun busy => (advance_fault ..).trans (races busy),
      fun idle => (advance_fault ..).trans (quiet idle), fun more => ?_, fun last => ?_⟩
    · rw [if_pos more]
      rfl
    · rw [if_neg last.not_gt, advance_done_hostResp]
      exact ⟨rfl, fun copy => collected_copied copy max _, fun copy => collected_failed copy max _⟩

/-! ### READ_FROM_DEVICE as a whole (R171, R172) -/

theorem afterReadBufOut_idle {s : State} (idle : s.outBusy = false) : afterReadBufOut s = s.nextDraw := by
  rw [afterReadBufOut, idle]
  rfl

/-- The host's turn that collects a listed byte, with the engine idle. -/
theorem hostTurn_collect {s : State} {p : Proc} {j avail : Nat} {acc : List Byte} {b : Byte} (hc : cfgOk s.cfg = true)
    (idle : s.outBusy = false) (hp : s.proc = some ⟨p, .collect j avail acc⟩) (inWindow : j < 4 * s.cfg.bufOutWords)
    (listed : Memory.get? s.bufOut j = some b) :
    hostTurn s = .next (advance p
      (if j + 1 < avail then .go (.collect (j + 1) avail (acc ++ [b])) else .done (collected p (acc ++ [b])))
      (s.nextDraw.respond (.data 1 (bufOutValue 1 j s)))) := by
  rw [hostTurn_runPhase hp, runPhase_collect hc p j avail acc inWindow, collectedByte_listed listed,
    afterReadBufOut_idle idle]

/-- The host's turns that collect the bytes `b :: bs` listed from index `j` on. -/
theorem runTurns_collect {b : Byte} {bs : List Byte} {s : State} {p : Proc} {j avail : Nat} {acc : List Byte}
    (hc : cfgOk s.cfg = true) (idle : s.outBusy = false) (hp : s.proc = some ⟨p, .collect j avail acc⟩)
    (left : j + (bs.length + 1) = avail) (fits : avail ≤ 4 * s.cfg.bufOutWords)
    (listed : ∀ i x, (b :: bs)[i]? = some x → Memory.get? s.bufOut (j + i) = some x) :
    ∃ d, runTurns (List.replicate (bs.length + 1) .host) s
      = .next { s with draws := d, proc := none, hostResp := collected p (acc ++ b :: bs) } := by
  induction bs generalizing s b j acc with
  | nil =>
    have turn : agentTurn .host s = _ := hostTurn_collect hc idle hp (by omega) (listed 0 b rfl)
    rw [if_neg (by rw [List.length_nil] at left; omega)] at turn
    exact ⟨_, runTurns_replicate_succ 0 turn⟩
  | cons b' bs ih =>
    rw [List.length_cons] at left ⊢
    have rest (i : Nat) (x : Byte) (h : (b' :: bs)[i]? = some x) : Memory.get? s.bufOut (j + 1 + i) = some x := by
      rw [Nat.add_assoc, Nat.add_comm 1 i]
      exact listed (i + 1) x h
    have turn : agentTurn .host s = _ := hostTurn_collect hc idle hp (by omega) (listed 0 b rfl)
    rw [if_pos (by omega)] at turn
    rw [runTurns_replicate_succ _ turn, List.append_cons acc b (b' :: bs)]
    exact ih hc idle rfl (by omega) fits rest

/-- The host's turns from the XFER_STATUS read to the result, left alone with a stopped transfer. -/
theorem runTurns_readResult {s : State} {max : Nat} {ev : HostEvents} {bs : List Byte} (hi : s.Inv)
    (idle : s.outBusy = false) (hp : s.proc = some ⟨.readFromDevice max ev, .readXfer .fromFifo⟩)
    (length : bs.length = 4 * s.outCopied.toNat) (covered : bs.length ≤ max)
    (listed : ∀ j b, bs[j]? = some b → Memory.get? s.bufOut j = some b) :
    ∃ d, runTurns (List.replicate (bs.length + 1) .host) s
      = .next { s with draws := d, proc := none, hostResp := collected (.readFromDevice max ev) bs } := by
  have turn := (hostTurn_runPhase hp).trans (runPhase_readXfer_fromFifo hi (.readFromDevice max ev))
  have fits : bs.length ≤ 4 * s.cfg.bufOutWords := length ▸ Nat.mul_le_mul_left 4 hi.outCopied_le
  rw [← length] at turn
  cases bs with
  | nil => exact ⟨s.draws, runTurns_replicate_succ 0 turn⟩
  | cons b bs =>
    have nonempty : 0 < (b :: bs).length := Nat.succ_pos _
    rw [afterAvailable_covered (p := .readFromDevice max ev) nonempty covered] at turn
    rw [runTurns_replicate_succ (a := .host) _ turn]
    exact runTurns_collect (acc := []) hi.cfg_ok idle rfl (Nat.zero_add _) fits (by simpa using listed)

/-- Settles O60: the allocation is tested at the start, and an idle engine leaves the window to be collected. -/
theorem readFromDeviceReturnsWindow : Obligations.ReadFromDeviceReturnsWindow := by
  constructor
  · intro s ts rest max ev hc hp ht port alloc
    exact ⟨_, step_refused hc hp ht port (if_pos alloc), SameBlock_refl s, hp, rfl, rfl⟩
  · intro s max ev bs hi idle hp length covered listed
    obtain ⟨d, run⟩ := runTurns_readResult hi idle hp length (length ▸ covered) listed
    exact ⟨_, run, rfl, SameBlock_refl s, rfl, fun copy => collected_copied copy max bs,
      fun copy => collected_failed copy max bs⟩

/-! ### The host that keeps the sequencing (R174) -/

/-- Nothing that the sequencing looks at changes, but that an engine may stop. -/
structure NoEngineStarts (s t : State) : Prop where
  cfg : t.cfg = s.cfg
  ctrl : SameCtrl s t
  amount : SameAmount s t
  inStays : s.inBusy = false → t.inBusy = false
  outStays : s.outBusy = false → t.outBusy = false

theorem NoEngineStarts.idle {s t : State} (h : NoEngineStarts s t) (idle : EnginesIdle s) : EnginesIdle t :=
  ⟨h.inStays idle.1, h.outStays idle.2⟩

theorem NoEngineStarts.amountReady {s t : State} {a : Action} (h : NoEngineStarts s t) (ready : AmountReady s a) :
    AmountReady t a := by
  intro ha
  rw [h.amount, h.cfg]
  exact ready ha

theorem NoEngineStarts.ctrlWord {s t : State} (h : NoEngineStarts s t) : ctrlWord t = ctrlWord s := by
  rw [Machine.ctrlWord, Machine.ctrlWord, h.ctrl.1, h.ctrl.2, h.cfg]

/-- What holds while a procedure makes an access still holds after a turn that starts no engine. -/
theorem NoEngineStarts.phaseOk {s t : State} {p : Proc} {ph : Phase} (h : NoEngineStarts s t) (ok : PhaseOk s p ph) :
    PhaseOk t p ph := by
  obtain ⟨toBit, fromBit⟩ := h.ctrl
  cases ph with
  | stage j =>
    obtain ⟨carries, idle, more, fits⟩ := ok
    exact ⟨carries, h.idle idle, more, h.cfg ▸ fits⟩
  | setAmount =>
    obtain ⟨carries, idle, fits⟩ := ok
    exact ⟨carries, h.idle idle, h.cfg ▸ fits⟩
  | trigRead a =>
    obtain ⟨carries, idle, ready⟩ := ok
    exact ⟨carries, h.idle idle, h.amountReady ready⟩
  | trigClear a w =>
    obtain ⟨carries, idle, ready, word⟩ := ok
    exact ⟨carries, h.idle idle, h.amountReady ready, word.trans h.ctrlWord.symm⟩
  | trigSet a w =>
    cases a with
    | toFifo =>
      obtain ⟨carries, idle, ready, clear, other⟩ := ok
      exact ⟨carries, h.idle idle, h.amountReady ready, toBit.trans clear, fromBit.trans (h.cfg ▸ other)⟩
    | fromFifo =>
      obtain ⟨carries, idle, clear, other⟩ := ok
      exact ⟨carries, h.idle idle, fromBit.trans clear, toBit.trans (h.cfg ▸ other)⟩
  | poll a k =>
    cases a with
    | toFifo => exact ⟨ok.1, h.outStays ok.2⟩
    | fromFifo => exact ⟨ok.1, h.inStays ok.2⟩
  | readXfer a => exact ⟨ok.1, h.idle ok.2⟩
  | collect j avail acc =>
    obtain ⟨carries, idle, more, fits⟩ := ok
    exact ⟨carries, h.idle idle, more, h.cfg ▸ fits⟩

/-- A turn that starts no engine, marks no fault and leaves the host's place as it was keeps the sequencing. -/
theorem Disciplined.of_noEngineStarts {s t : State} (hd : Disciplined s) (hi : t.Inv) (still : NoEngineStarts s t)
    (fault : SameFault s t) (port : t.hostPort = s.hostPort) (proc : t.proc = s.proc) : Disciplined t where
  inv := hi
  no_fault := fault.trans hd.no_fault
  unbounded := still.cfg ▸ hd.unbounded
  port := port ▸ hd.port
  idle := fun ended => still.idle (hd.idle (proc ▸ ended))
  phase := fun r running => still.phaseOk (hd.phase r (proc ▸ running))

/-! ### The turns of the other agents -/

/-- No agent but the host moves the host's port or its place in a procedure (log 11, log 16). -/
theorem agentTurn_sameHostPlace {s t : State} {a : Agent} (ha : a ≠ .host) (h : agentTurn a s = .next t) :
    t.hostPort = s.hostPort ∧ t.proc = s.proc := by
  cases a with
  | host => exact absurd rfl ha
  | inEngine =>
    cases h
    obtain e | ⟨-, -, -, e⟩ | ⟨-, e⟩ := inEngineTurn_cases s <;> rw [e] <;> exact ⟨rfl, rfl⟩
  | outEngine =>
    cases h
    obtain e | ⟨-, -, -, e⟩ | ⟨-, e⟩ := outEngineTurn_cases s <;> rw [e] <;> exact ⟨rfl, rfl⟩
  | coprocessor => cases devTurn_devMove h <;> exact ⟨rfl, rfl⟩
  | echo =>
    cases h
    obtain e | ⟨_, _, -, -, e⟩ := echoTurn_cases s <;> rw [e] <;> exact ⟨rfl, rfl⟩

/-- No agent but the host starts an engine. -/
theorem agentTurn_noEngineStarts {s t : State} {a : Agent} (hc : cfgOk s.cfg = true) (ha : a ≠ .host)
    (h : agentTurn a s = .next t) : NoEngineStarts s t :=
  have own := agentTurn_sameHostOwned ha h
  { cfg := own.cfg
    ctrl := own.ctrl
    amount := own.amount
    inStays := fun idle => Bool.eq_false_iff.mpr fun busy => ha (agentTurn_inStarts hc h idle busy).1
    outStays := fun idle => Bool.eq_false_iff.mpr fun busy => ha (agentTurn_outStarts hc h idle busy).1 }

theorem Disciplined.otherTurn {s t : State} {a : Agent} (hd : Disciplined s) (ha : a ≠ .host)
    (h : agentTurn a s = .next t) : Disciplined t := by
  obtain ⟨port, proc⟩ := agentTurn_sameHostPlace ha h
  exact hd.of_noEngineStarts (hd.inv.agentTurn h) (agentTurn_noEngineStarts hd.inv.cfg_ok ha h)
    (agentTurn_sameHostOwned ha h).fault port proc

/-! ### A control operation of the host -/

/-- No command reaches the model's inputs (log 8, log 11). -/
theorem Effect.sameInputs {s t : State} {i : Instr} (h : Effect s i t) : SameInputs s t := by
  cases h with
  | ctrl v =>
    obtain ⟨-, -, -, -, -, -, -, cfg, -, turns, hostPort, devPort, proc, -⟩ := writeCtrl_frame v s
    exact ⟨cfg, turns, hostPort, devPort, proc⟩
  | bufIn n j v => simp [SameInputs, writeBufIn]
  | bufOut n j v => simp [SameInputs, writeBufOut]
  | _ => exact ⟨rfl, rfl, rfl, rfl, rfl⟩

/-- No word of the control port writes CTRL or DATA_AMOUNT, or marks a fault (42_status_control_mux.md R135). -/
theorem decodeCtl_keepsSequencing (w : BitVec 72) :
    (∀ v, decodeCtl w ≠ .wrCtrl v) ∧ (∀ v, decodeCtl w ≠ .wrDataAmount v) ∧ ¬ MarksFault (decodeCtl w) := by
  simp only [decodeCtl, ctlFields]
  split <;> exact ⟨nofun, nofun, nofun⟩

theorem Disciplined.control {s t : State} {w : BitVec 72} (hd : Disciplined s)
    (h : exec (decodeCtl w) s = .next t) : Disciplined t := by
  have hc := hd.inv.cfg_ok
  have effect := exec_effect hc h
  obtain ⟨notCtrl, notAmount, noMark⟩ := decodeCtl_keepsSequencing w
  obtain ⟨ctrl, inEngine, outEngine⟩ := effect.sameCtrlAndEngines notCtrl
  obtain ⟨cfg, -, hostPort, -, proc⟩ := effect.sameInputs
  have fault : SameFault s t := by
    obtain ⟨u, run, -, fault⟩ := exec_keepsUsersAndFault hc (decodeCtl w)
    cases h.symm.trans run
    exact fault.resolve_left noMark
  exact hd.of_noEngineStarts (effect.keeps_inv hd.inv (decodeCtl_storeFits s.cfg w))
    ⟨cfg, ctrl, effect.sameAmount notAmount, inEngine.1.trans, outEngine.1.trans⟩ fault hostPort proc

/-! ### An access of a procedure -/

/-- What holds of the block where a procedure goes: its phase's condition, or both engines idle at its end. -/
def StepOk (s : State) (p : Proc) : ProcStep → Prop
  | .go ph => PhaseOk s p ph
  | .done _ => EnginesIdle s

/-- An access that left `u` marked no fault, and the procedure goes on to `st` in its sequence. -/
structure KeepsSequence (s : State) (p : Proc) (st : ProcStep) (u : State) : Prop where
  no_fault : u.fault = none
  cfg : u.cfg = s.cfg
  port : u.hostPort = s.hostPort
  place : StepOk u p st

theorem KeepsSequence.disciplined {s u : State} {p : Proc} {st : ProcStep} (hd : Disciplined s)
    (h : KeepsSequence s p st u) (hi : (advance p st u).Inv) : Disciplined (advance p st u) where
  inv := hi
  no_fault := (advance_fault p st u).trans h.no_fault
  unbounded := by rw [advance_cfg, h.cfg, hd.unbounded]
  port := by rw [advance_hostPort, h.port, hd.port]
  idle := by
    intro ended
    cases st with
    | go ph => cases ended
    | done r => exact h.place
  phase := by
    intro r running
    cases st with
    | go ph =>
      cases running
      exact h.place
    | done r => cases running

theorem writeBufIn_idle {s : State} (idle : s.inBusy = false) (n j : Nat) (v : Word) :
    writeBufIn n j v s = storeBufIn n j v s := by
  rw [writeBufIn, idle]
  rfl

/-- The count written for a payload that fits the window is one that a trigger accepts. -/
theorem writeAmount_amountReady {s : State} {len : Nat} (hc : cfgOk s.cfg = true)
    (fits : roundUp4 len ≤ 4 * s.cfg.bufInWords) (a : Action) : AmountReady (writeAmount (amountOf s.cfg len) s) a := by
  intro _
  rw [writeAmount_amount, writeAmount_cfg, amountOf_toNat hc fits, BitVec.toNat_ofNat]
  have small : roundUp4 len / 4 % 2 ^ s.cfg.amountW % 2 ^ 16 ≤ roundUp4 len / 4 :=
    (Nat.mod_le _ _).trans (Nat.mod_le _ _)
  omega

/-- The setting write of a trigger finds the block as the clearing write left it. -/
theorem phaseOk_trigSet_iff (s : State) (p : Proc) (a : Action) (w : Word) :
    PhaseOk s p (.trigSet a w) ↔ p.carries a = true ∧ EnginesIdle s ∧ AmountReady s a ∧ ReadyToSet a w s := by
  cases a with
  | toFifo => exact Iff.rfl
  | fromFifo =>
    exact ⟨fun ⟨carries, idle, bits⟩ => ⟨carries, idle, nofun, bits⟩,
      fun ⟨carries, idle, _, bits⟩ => ⟨carries, idle, bits⟩⟩

theorem EnginesIdle.actionBusy {s : State} (idle : EnginesIdle s) (a : Action) : actionBusy a s = false := by
  cases a with
  | toFifo => exact idle.1
  | fromFifo => exact idle.2

/-- A procedure that carries out an action polls its engine after the trigger and reads its count after the poll. -/
theorem carries_goes_on {p : Proc} {a : Action} (carries : p.carries a = true) :
    afterTrigger p a = .go (.poll a 0) ∧ afterPoll p a = .go (.readXfer a) := by
  cases a with
  | toFifo =>
    cases p with
    | writeToDevice payload ev => exact ⟨rfl, rfl⟩
    | _ => cases carries
  | fromFifo =>
    cases p with
    | readFromDevice max ev => exact ⟨rfl, rfl⟩
    | _ => cases carries

/-- A response is nothing the sequencing looks at. -/
theorem StepOk.respond {s : State} {p : Proc} {st : ProcStep} (ok : StepOk s p st) (r : HostResp) :
    StepOk (s.respond r) p st := by
  cases st with
  | go ph => exact ok
  | done _ => exact ok

/-- A trigger starts one engine and leaves the other idle. -/
theorem afterTrigger_stepOk {s : State} {p : Proc} {a : Action} (carries : p.carries a = true) (idle : EnginesIdle s) :
    StepOk (startEngine a s) p (afterTrigger p a) := by
  rw [(carries_goes_on carries).1]
  cases a with
  | toFifo => exact ⟨.inl carries, idle.2⟩
  | fromFifo => exact ⟨.inl carries, idle.1⟩

/-- The poll loop is left with both engines idle: the one polled, and the one that was not started. -/
theorem afterPoll_stepOk {s : State} {p : Proc} {a : Action} {k : Nat} (ok : PhaseOk s p (.poll a k))
    (stopped : actionBusy a s = false) : StepOk s p (afterPoll p a) := by
  cases a with
  | toFifo =>
    obtain ⟨carries | rfl, outIdle⟩ := ok
    · rw [(carries_goes_on carries).2]
      exact ⟨carries, stopped, outIdle⟩
    · exact ⟨stopped, outIdle⟩
  | fromFifo =>
    obtain ⟨carries | rfl, inIdle⟩ := ok
    · rw [(carries_goes_on carries).2]
      exact ⟨carries, inIdle, stopped⟩
    · exact ⟨inIdle, stopped⟩

theorem afterAvailable_stepOk {s : State} {p : Proc} {avail : Nat} (carries : p.carries .fromFifo = true)
    (idle : EnginesIdle s) (fits : avail ≤ 4 * s.cfg.bufOutWords) : StepOk s p (afterAvailable p avail) := by
  unfold afterAvailable
  split
  case isTrue => exact idle
  case isFalse =>
    split
    case isTrue => exact idle
    case isFalse nonempty => exact ⟨carries, idle, Nat.pos_of_ne_zero nonempty, fits⟩

/-- Every access of a whole procedure finds what it needs and leaves what the next one needs. -/
theorem runPhase_keepsSequence {s : State} {p : Proc} {ph : Phase} (hd : Disciplined s) (ok : PhaseOk s p ph) :
    ∃ st u, runPhase p ph s = .next (advance p st u) ∧ KeepsSequence s p st u := by
  have hi := hd.inv
  have hc := hi.cfg_ok
  have clear := hd.no_fault
  cases ph with
  | stage j =>
    obtain ⟨carries, idle, more, fits⟩ := ok
    refine ⟨_, _, runPhase_stage hc p (more.trans_le fits), ?_⟩
    rw [writeBufIn_idle idle.1]
    refine ⟨clear, rfl, rfl, ?_⟩
    split
    case isTrue next => exact ⟨carries, idle, next, fits⟩
    case isFalse => exact ⟨carries, idle, fits⟩
  | setAmount =>
    obtain ⟨carries, idle, fits⟩ := ok
    exact ⟨_, _, runPhase_setAmount hc p, clear, rfl, rfl, carries, idle, writeAmount_amountReady hc fits .toFifo⟩
  | trigRead a =>
    obtain ⟨carries, idle, ready⟩ := ok
    exact ⟨_, _, runPhase_trigRead hc p a, clear, rfl, rfl, carries, idle, ready, rfl⟩
  | trigClear a w =>
    obtain ⟨carries, idle, ready, rfl⟩ := ok
    have bits := clearBit_readyToSet hc a
    refine ⟨_, _, runPhase_trigClear_read hc p a, ?_⟩
    cases a with
    | toFifo => exact ⟨clear, rfl, rfl, carries, idle, ready, bits⟩
    | fromFifo => exact ⟨clear, rfl, rfl, carries, idle, bits⟩
  | trigSet a w =>
    obtain ⟨carries, idle, ready, bits⟩ := (phaseOk_trigSet_iff s p a w).mp ok
    have place := (afterTrigger_stepOk carries idle).respond .done
    refine ⟨_, _, runPhase_trigSet_idle hc p (idle.actionBusy a) ready bits, ?_⟩
    cases a with
    | toFifo => exact ⟨clear, rfl, rfl, place⟩
    | fromFifo => exact ⟨clear, rfl, rfl, place⟩
  | poll a k =>
    refine ⟨_, _, runPhase_poll hc p a k, clear, rfl, rfl, ?_⟩
    cases busy : actionBusy a s with
    | true =>
      rw [procNext_poll_busy hc p k busy, if_neg (pollExpired_unbounded hd.unbounded (k + 1))]
      cases a with
      | toFifo => exact ok
      | fromFifo => exact ok
    | false =>
      rw [procNext_poll_idle hc p k busy]
      exact (afterPoll_stepOk ok busy).respond _
  | readXfer a =>
    obtain ⟨carries, idle⟩ := ok
    cases a with
    | toFifo => exact ⟨_, _, runPhase_readXfer_toFifo hi p, clear, rfl, rfl, idle⟩
    | fromFifo =>
      exact ⟨_, _, runPhase_readXfer_fromFifo hi p, clear, rfl, rfl,
        afterAvailable_stepOk carries idle (Nat.mul_le_mul_left 4 hi.outCopied_le)⟩
  | collect j avail acc =>
    obtain ⟨carries, idle, more, fits⟩ := ok
    refine ⟨_, _, runPhase_collect hc p j avail acc (more.trans_le fits), ?_⟩
    rw [afterReadBufOut_idle idle.2]
    refine ⟨clear, rfl, rfl, ?_⟩
    split
    case isTrue next => exact ⟨carries, idle, next, fits⟩
    case isFalse => exact idle

theorem Disciplined.runPhase {s t : State} {p : Proc} {ph : Phase} (hd : Disciplined s) (ok : PhaseOk s p ph)
    (h : runPhase p ph s = .next t) : Disciplined t := by
  obtain ⟨st, u, run, keeps⟩ := runPhase_keepsSequence hd ok
  have hi := (runPhase_hostMove (port := s.hostPort) hd.inv.cfg_ok h).keeps_inv hd.inv
  cases h.symm.trans run
  exact keeps.disciplined hd hi

/-! ### The start of a procedure, and the host's turn -/

/-- A procedure of the disciplined host begins with its phase's condition met, or is refused. -/
theorem procStart_stepOk {s : State} {p : Proc} (whole : (HostCmd.proc p).disciplined = true) (idle : EnginesIdle s) :
    StepOk s p (procStart s.cfg p) := by
  cases p with
  | trigIn => cases whole
  | trigOut => cases whole
  | pollIn => exact ⟨.inr rfl, idle.2⟩
  | pollOut => exact ⟨.inr rfl, idle.1⟩
  | writeToDevice payload ev =>
    simp only [procStart]
    split
    case isTrue => exact idle
    case isFalse size =>
      have fits := Nat.le_of_not_lt size
      split
      case isTrue => exact idle
      case isFalse =>
        split
        case isTrue => exact idle
        case isFalse =>
          split
          case isTrue => exact ⟨rfl, idle, fits⟩
          case isFalse nonempty => exact ⟨rfl, idle, Nat.pos_of_ne_zero nonempty, fits⟩
  | readFromDevice max ev =>
    simp only [procStart]
    split
    case isTrue => exact idle
    case isFalse => exact ⟨rfl, idle, nofun⟩

theorem Disciplined.startProc {s t : State} {p : Proc} (hd : Disciplined s) (hp : s.proc = none)
    (whole : (HostCmd.proc p).disciplined = true) (h : startProc p s = .next t) : Disciplined t := by
  have ok := procStart_stepOk whole (hd.idle hp)
  cases start : procStart s.cfg p with
  | go ph =>
    rw [start] at ok
    exact hd.runPhase ok ((startProc_go start).symm.trans h)
  | done r =>
    cases (startProc_done start).symm.trans h
    exact { hd with inv := { hd.inv with } }

/-- The command taken from the port is one of a disciplined host, and the rest of the port is its own. -/
theorem Disciplined.takeCommand {s : State} {cmd : HostCmd} {rest : List HostCmd} (hd : Disciplined s)
    (port : s.hostPort = cmd :: rest) : cmd.disciplined = true ∧ Disciplined { s with hostPort := rest } := by
  have all := hd.port
  rw [port, List.all_cons, Bool.and_eq_true] at all
  exact ⟨all.1, { hd with inv := { hd.inv with }, port := all.2 }⟩

theorem Disciplined.hostTurn {s t : State} (hd : Disciplined s) (h : hostTurn s = .next t) : Disciplined t := by
  cases hp : s.proc with
  | some r => exact hd.runPhase (hd.phase r hp) ((hostTurn_runPhase hp).symm.trans h)
  | none =>
    cases port : s.hostPort with
    | nil =>
      simp only [Machine.hostTurn, hp, port, Host.Outcome.next.injEq] at h
      exact h ▸ hd
    | cons cmd rest =>
      obtain ⟨whole, hd'⟩ := hd.takeCommand port
      cases cmd with
      | bus w => cases whole
      | ctl w => exact hd'.control ((hostTurn_control hp port).symm.trans h)
      | proc p => exact hd'.startProc hp whole ((hostTurn_startProc hp port).symm.trans h)

/-- Settles O46: the host's turn is an access of a whole procedure or a control operation, and the other agents
start no engine and mark no fault. -/
theorem disciplinedHostNeverFaults : Obligations.DisciplinedHostNeverFaults := by
  intro s t hd h
  obtain ⟨-, a, rest, -, turn⟩ := step_cases h
  have hd' : Disciplined { s with turns := rest } := { hd with inv := { hd.inv with } }
  by_cases ha : a = .host
  · subst ha
    exact hd'.hostTurn turn
  · exact hd'.otherTurn ha turn

end Sys2Proof.Machine
end

section
/-! PROOFS. The statement of 70_reset_and_hazards.md: nothing cancels a running transfer (R214). -/

namespace Sys2Proof.Machine

/-- Settles O53: the host's turn can only start an idle engine, and the other agents do not write the engine's
state. -/
theorem onlyTheEngineStopsItself : Obligations.OnlyTheEngineStopsItself := by
  intro s t h
  obtain ⟨hc, a, rest, hts, turn⟩ := step_cases h
  rw [hts, List.head?_cons, Ne, Ne, Option.some.injEq, Option.some.injEq]
  exact ⟨fun busy other => agentTurn_sameInEngine_of_busy (s := { s with turns := rest }) hc busy other turn,
    fun busy other => agentTurn_sameOutEngine_of_busy (s := { s with turns := rest }) hc busy other turn⟩

end Sys2Proof.Machine
end
